-- ==== Sys2Proof/Word.lean ====
section
/-! DEFINITION. The word types of the PRESENT24-MitM core (00_scope.md R5, R9): every value is an unsigned integer of a
stated width, bit 0 least significant. -/

namespace Sys2Proof

/-- A Block or a MasterKey: 24 bits (`BLOCKW`, `KEYW`, R5). -/
abbrev Block := BitVec 24

/-- A nibble of a Block, and an entry of the substitution tables (R20). -/
abbrev Nibble := BitVec 4

/-- A word of the host register space (R61). -/
abbrev HostWord := BitVec 32

/-- A word index of the host register space (R61). -/
abbrev Index := BitVec 6

/-- The bus transaction `T` (R90). -/
abbrev Txn := BitVec 39

/-- The key-schedule register (`KREGW`, R5). -/
abbrev KeyReg := BitVec 80

/-- A packed IntermediateEntry: value in bits 47..24, key in bits 23..0 (R96). -/
abbrev Entry := BitVec 48

/-- A RoundKeySchedule: eleven round keys, indices 0 to 10 (`NRK`, R5). -/
abbrev Schedule := Vector Block 11

end Sys2Proof
end

