-- ==== Sys2Proof/Syntax.lean ====
section
/-! DEFINITION. The instructions of the core: one constructor per row of spec/opcode_table.json (30_encoding.md section 1:
host accesses, commands, micro-operations; and the four functions of the document). -/

namespace Sys2Proof

/-- The registers a micro-operation or a function works on (10_state.md R29 to R31): the short-command datapath's own
(`KREG`, `RK`, `STATE`), or one of the two private sets of `DENC`. Workers and lanes run theirs inside `GEN` and
`VERIFY`. -/
inductive Datapath where
  | short
  | denc1
  | denc2
  deriving DecidableEq, Repr

/-- The operand register a key schedule takes its master key from (R145, R176). -/
inductive KeySource where
  | k1
  | k2
  deriving DecidableEq, Repr

/-- Where a function takes its block from: `DIN`, or the intermediate value `t` of `DENC` (R176). -/
inductive BlockSource where
  | din
  | inner
  deriving DecidableEq, Repr

/-- One constructor per row of the opcode table. Host accesses carry the fields the interface looks at (R90): an index,
or the 32 data bits. Micro-operations and functions have no encoding (R103); their operands name the registers they
work on, the round-key index, the round counter, the worker and key, the lane and queue slot. -/
inductive Instr where
  | rd (a : Index)
  | nop
  | ksched
  | enc
  | dec
  | denc
  | mitm
  | illcmd (d : HostWord)
  | pop
  | wrK1 (d : HostWord)
  | wrK2 (d : HostWord)
  | wrDin (d : HostWord)
  | wrP1 (d : HostWord)
  | wrC1 (d : HostWord)
  | wrP2 (d : HostWord)
  | wrC2 (d : HostWord)
  | wrRk0 (d : HostWord)
  | wrRk1 (d : HostWord)
  | wrRk2 (d : HostWord)
  | wrRk3 (d : HostWord)
  | wrRk4 (d : HostWord)
  | wrRk5 (d : HostWord)
  | wrRk6 (d : HostWord)
  | wrRk7 (d : HostWord)
  | wrRk8 (d : HostWord)
  | wrRk9 (d : HostWord)
  | wrRk10 (d : HostWord)
  | badwr (a : Index)
  | addkey (p : Datapath) (i : Fin 11)
  | slayer (p : Datapath)
  | invslayer (p : Datapath)
  | player (p : Datapath)
  | invplayer (p : Datapath)
  | ksload (p : Datapath) (k : KeySource)
  | ksupdate (p : Datapath) (i : BitVec 5)
  | rkx (p : Datapath) (i : Fin 11)
  | encround (p : Datapath) (i : Fin 11)
  | decround (p : Datapath) (i : Fin 11)
  | gen (w : Nat) (k : Block)
  | sort
  | advf
  | advb
  | emitx
  | verify (v : Nat) (n : Nat)
  | retire
  | keySchedule (p : Datapath) (k : KeySource)
  | encrypt (p : Datapath) (x : BlockSource)
  | decrypt (p : Datapath) (x : BlockSource)
  | doubleEncrypt
  deriving DecidableEq, Repr

end Sys2Proof
end

