-- ==== Sys2Proof/WellFormed.lean ====
section
/-! DEFINITION. Which terms of Instr stand for something the spec describes: the data word of a row that catches "every
other word" is one no earlier row takes (30_encoding.md R100), and the round counter is in its range (R141). -/

namespace Sys2Proof

/-- A data word of index 0x00 that is one of the six commands: `D[31:4] = 0` and `D[3:0] <= 5` (R100 line 2). -/
def isCommandWord (d : HostWord) : Bool :=
  d.extractLsb' 4 28 == 0 && decide (d.extractLsb' 0 4 ≤ 5)

/-- The indices whose writes are refused BADACC: unmapped or read-only (R66, R67, R100 line 6). -/
def isRefusedIndex (a : Index) : Bool :=
  let n := a.toNat
  n == 0x01 || n == 0x05 || n == 0x0A || n == 0x0B || (0x0D ≤ n && n ≤ 0x0F) || 0x1B ≤ n

/-- Well-formedness of an instruction. -/
def Instr.wellFormed : Instr → Bool
  | .illcmd d => !isCommandWord d
  | .badwr a => isRefusedIndex a
  | .ksupdate _ i => decide (1 ≤ i.toNat) && decide (i.toNat ≤ 10)
  | .rd _ | .nop | .ksched | .enc | .dec | .denc | .mitm | .pop
  | .wrK1 _ | .wrK2 _ | .wrDin _ | .wrP1 _ | .wrC1 _ | .wrP2 _ | .wrC2 _
  | .wrRk0 _ | .wrRk1 _ | .wrRk2 _ | .wrRk3 _ | .wrRk4 _ | .wrRk5 _ | .wrRk6 _ | .wrRk7 _ | .wrRk8 _ | .wrRk9 _
  | .wrRk10 _
  | .addkey _ _ | .slayer _ | .invslayer _ | .player _ | .invplayer _ | .ksload _ _ | .rkx _ _
  | .encround _ _ | .decround _ _ | .gen _ _ | .sort | .advf | .advb | .emitx | .verify _ _ | .retire
  | .keySchedule _ _ | .encrypt _ _ | .decrypt _ _ | .doubleEncrypt => true

end Sys2Proof
end

