-- ==== Sys2Proof/Decode.lean ====
section
/-! DEFINITION. Decoding and encoding of a transaction (30_encoding.md R90, R91, R92, R100). The decoder is total on the
2^39 transactions (R98 c, R100); a number that is no 39-bit transaction decodes to none. -/

namespace Sys2Proof

/-- Format TXN (R90): `{RW, A[5:0], D[31:0]}`. -/
def txn (rw : Bool) (a : Index) (d : HostWord) : Txn := ((BitVec.ofBool rw ++ a) ++ d).cast (by decide)

/-- Bit 38: 1 = write. -/
def txnRw (t : Txn) : Bool := t.getLsbD 38

/-- Bits 37..32: the word index. -/
def txnIndex (t : Txn) : Index := t.extractLsb' 32 6

/-- Bits 31..0: the write data. -/
def txnData (t : Txn) : HostWord := t.extractLsb' 0 32

/-- Format CMDW (R91, R92): the data word of a write to index 0x00. `ZERO` (bits 31..4) must be 0 and `OP` (bits 3..0)
one of the six opcodes; every other word is an illegal command (R98 a; lines 2 and 3 of R100). -/
def decodeCommand (d : HostWord) : Instr :=
  if d.extractLsb' 4 28 = 0 then
    match (d.extractLsb' 0 4).toNat with
    | 0 => .nop
    | 1 => .ksched
    | 2 => .enc
    | 3 => .dec
    | 4 => .denc
    | 5 => .mitm
    | _ => .illcmd d
  else .illcmd d

/-- A write, by its index; lines 2 to 6 of R100 (the map of 20_memory.md R66). -/
def decodeWrite (a : Index) (d : HostWord) : Instr :=
  match a.toNat with
  | 0x00 => decodeCommand d
  | 0x02 => .wrK1 d
  | 0x03 => .wrK2 d
  | 0x04 => .wrDin d
  | 0x06 => .wrP1 d
  | 0x07 => .wrC1 d
  | 0x08 => .wrP2 d
  | 0x09 => .wrC2 d
  | 0x0C => .pop
  | 0x10 => .wrRk0 d
  | 0x11 => .wrRk1 d
  | 0x12 => .wrRk2 d
  | 0x13 => .wrRk3 d
  | 0x14 => .wrRk4 d
  | 0x15 => .wrRk5 d
  | 0x16 => .wrRk6 d
  | 0x17 => .wrRk7 d
  | 0x18 => .wrRk8 d
  | 0x19 => .wrRk9 d
  | 0x1A => .wrRk10 d
  | _ => .badwr a

/-- R100: the first line that matches. -/
def decode (t : Txn) : Instr :=
  if txnRw t then decodeWrite (txnIndex t) (txnData t) else .rd (txnIndex t)

/-- The instruction of a number read as a transaction: `w`'s low `nbits` bits, the bits above them 0 (log 21). -/
def decodeTableWord (nbits w : Nat) : Option Instr :=
  let v := w % 2 ^ nbits
  if v < 2 ^ 39 then some (decode (BitVec.ofNat 39 v)) else none

/-- The transaction of a host-issuable instruction (R101); data the interface ignores is written as 0. Micro-operations
and functions have none (R103). -/
def encode : Instr → Option Txn
  | .rd a => some (txn false a 0)
  | .nop => some (txn true 0x00 0)
  | .ksched => some (txn true 0x00 1)
  | .enc => some (txn true 0x00 2)
  | .dec => some (txn true 0x00 3)
  | .denc => some (txn true 0x00 4)
  | .mitm => some (txn true 0x00 5)
  | .illcmd d => some (txn true 0x00 d)
  | .pop => some (txn true 0x0C 0)
  | .wrK1 d => some (txn true 0x02 d)
  | .wrK2 d => some (txn true 0x03 d)
  | .wrDin d => some (txn true 0x04 d)
  | .wrP1 d => some (txn true 0x06 d)
  | .wrC1 d => some (txn true 0x07 d)
  | .wrP2 d => some (txn true 0x08 d)
  | .wrC2 d => some (txn true 0x09 d)
  | .wrRk0 d => some (txn true 0x10 d)
  | .wrRk1 d => some (txn true 0x11 d)
  | .wrRk2 d => some (txn true 0x12 d)
  | .wrRk3 d => some (txn true 0x13 d)
  | .wrRk4 d => some (txn true 0x14 d)
  | .wrRk5 d => some (txn true 0x15 d)
  | .wrRk6 d => some (txn true 0x16 d)
  | .wrRk7 d => some (txn true 0x17 d)
  | .wrRk8 d => some (txn true 0x18 d)
  | .wrRk9 d => some (txn true 0x19 d)
  | .wrRk10 d => some (txn true 0x1A d)
  | .badwr a => some (txn true a 0)
  | .addkey _ _ | .slayer _ | .invslayer _ | .player _ | .invplayer _ | .ksload _ _ | .ksupdate _ _ | .rkx _ _
  | .encround _ _ | .decround _ _ | .gen _ _ | .sort | .advf | .advb | .emitx | .verify _ _ | .retire
  | .keySchedule _ _ | .encrypt _ _ | .decrypt _ _ | .doubleEncrypt => none

/-- The mnemonic spec/opcode_table.json gives an instruction's row. -/
def mnemonic : Instr → String
  | .rd _ => "RD"
  | .nop => "NOP"
  | .ksched => "KSCHED"
  | .enc => "ENC"
  | .dec => "DEC"
  | .denc => "DENC"
  | .mitm => "MITM"
  | .illcmd _ => "ILLCMD"
  | .pop => "POP"
  | .wrK1 _ => "WR_K1"
  | .wrK2 _ => "WR_K2"
  | .wrDin _ => "WR_DIN"
  | .wrP1 _ => "WR_P1"
  | .wrC1 _ => "WR_C1"
  | .wrP2 _ => "WR_P2"
  | .wrC2 _ => "WR_C2"
  | .wrRk0 _ => "WR_RK0"
  | .wrRk1 _ => "WR_RK1"
  | .wrRk2 _ => "WR_RK2"
  | .wrRk3 _ => "WR_RK3"
  | .wrRk4 _ => "WR_RK4"
  | .wrRk5 _ => "WR_RK5"
  | .wrRk6 _ => "WR_RK6"
  | .wrRk7 _ => "WR_RK7"
  | .wrRk8 _ => "WR_RK8"
  | .wrRk9 _ => "WR_RK9"
  | .wrRk10 _ => "WR_RK10"
  | .badwr _ => "BADWR"
  | .addkey _ _ => "ADDKEY"
  | .slayer _ => "SLAYER"
  | .invslayer _ => "INVSLAYER"
  | .player _ => "PLAYER"
  | .invplayer _ => "INVPLAYER"
  | .ksload _ _ => "KSLOAD"
  | .ksupdate _ _ => "KSUPDATE"
  | .rkx _ _ => "RKX"
  | .encround _ _ => "ENCROUND"
  | .decround _ _ => "DECROUND"
  | .gen _ _ => "GEN"
  | .sort => "SORT"
  | .advf => "ADVF"
  | .advb => "ADVB"
  | .emitx => "EMITX"
  | .verify _ _ => "VERIFY"
  | .retire => "RETIRE"
  | .keySchedule _ _ => "key_schedule"
  | .encrypt _ _ => "encrypt"
  | .decrypt _ _ => "decrypt"
  | .doubleEncrypt => "double_encrypt"

/-- A decodable row of spec/opcode_table.json: its match and mask words and its mnemonic. -/
structure OpcodeRow where
  pat : Txn
  mask : Txn
  name : String
  deriving DecidableEq, Repr

/-- The decodable rows in the table's order, which is their priority (R100). -/
def opcodeRows : List OpcodeRow :=
  [ ⟨0x0000000000, 0x4000000000, "RD"⟩,
    ⟨0x4000000000, 0x7FFFFFFFFF, "NOP"⟩,
    ⟨0x4000000001, 0x7FFFFFFFFF, "KSCHED"⟩,
    ⟨0x4000000002, 0x7FFFFFFFFF, "ENC"⟩,
    ⟨0x4000000003, 0x7FFFFFFFFF, "DEC"⟩,
    ⟨0x4000000004, 0x7FFFFFFFFF, "DENC"⟩,
    ⟨0x4000000005, 0x7FFFFFFFFF, "MITM"⟩,
    ⟨0x4000000000, 0x7F00000000, "ILLCMD"⟩,
    ⟨0x4C00000000, 0x7F00000000, "POP"⟩,
    ⟨0x4200000000, 0x7F00000000, "WR_K1"⟩,
    ⟨0x4300000000, 0x7F00000000, "WR_K2"⟩,
    ⟨0x4400000000, 0x7F00000000, "WR_DIN"⟩,
    ⟨0x4600000000, 0x7F00000000, "WR_P1"⟩,
    ⟨0x4700000000, 0x7F00000000, "WR_C1"⟩,
    ⟨0x4800000000, 0x7F00000000, "WR_P2"⟩,
    ⟨0x4900000000, 0x7F00000000, "WR_C2"⟩,
    ⟨0x5000000000, 0x7F00000000, "WR_RK0"⟩,
    ⟨0x5100000000, 0x7F00000000, "WR_RK1"⟩,
    ⟨0x5200000000, 0x7F00000000, "WR_RK2"⟩,
    ⟨0x5300000000, 0x7F00000000, "WR_RK3"⟩,
    ⟨0x5400000000, 0x7F00000000, "WR_RK4"⟩,
    ⟨0x5500000000, 0x7F00000000, "WR_RK5"⟩,
    ⟨0x5600000000, 0x7F00000000, "WR_RK6"⟩,
    ⟨0x5700000000, 0x7F00000000, "WR_RK7"⟩,
    ⟨0x5800000000, 0x7F00000000, "WR_RK8"⟩,
    ⟨0x5900000000, 0x7F00000000, "WR_RK9"⟩,
    ⟨0x5A00000000, 0x7F00000000, "WR_RK10"⟩,
    ⟨0x4000000000, 0x4000000000, "BADWR"⟩ ]

/-- The table's decoder: the name of the first row whose masked bits match (R100). -/
def firstMatch (t : Txn) : Option String :=
  (opcodeRows.find? fun r => t &&& r.mask == r.pat).map OpcodeRow.name

end Sys2Proof
end

