-- ==== Sys2Proof/Config.lean ====
section
/-! DEFINITION. What an implementation fixes (00_scope.md R6 to R8) and the values the spec leaves unspecified
(93_implementation_defined.md U5, U6). -/

namespace Sys2Proof.Config

/-- The four constant tables (R20, R21): `SBOX`, `INVSBOX` indexed by a nibble, `PERM`, `INVPERM` maps on bit positions.
They are a parameter of the model (R7); `Machine/Tables.lean` holds the literals of R120 to R123. -/
structure Tables where
  sbox : Vector Nibble 16
  invsbox : Vector Nibble 16
  perm : Vector (Fin 24) 24
  invperm : Vector (Fin 24) 24
  deriving DecidableEq, Repr

/-- The properties R20 and R21 state of the tables: mutual inverses, and bit 23 a fixed point. -/
structure Tables.Ok (T : Tables) : Prop where
  invsbox_sbox : ∀ v : Fin 16, T.invsbox[T.sbox[v].toFin] = BitVec.ofFin v
  sbox_invsbox : ∀ v : Fin 16, T.sbox[T.invsbox[v].toFin] = BitVec.ofFin v
  invperm_perm : ∀ i : Fin 24, T.invperm[T.perm[i]] = i
  perm_top : T.perm[23] = 23

/-- The parameters of one core: the key-space exponent `KBITS` (R6), the numbers of generation workers `W` and of
verification lanes `V`, the capacity `FIFO_DEPTH` of the result FIFO (R8), and the constant tables (R7). No step
changes them. -/
structure Params where
  kbits : Nat
  workers : Nat
  lanes : Nat
  fifoDepth : Nat
  tables : Tables
  deriving DecidableEq, Repr

/-- `N = 2^KBITS`, the number of keys and of entries of a table (R6). -/
def Params.n (p : Params) : Nat := 2 ^ p.kbits

/-- The ranges R6, R7 and R8 give the parameters. -/
structure Params.Ok (p : Params) : Prop where
  kbits_pos : 1 ≤ p.kbits
  kbits_le : p.kbits ≤ 24
  workers_pos : 1 ≤ p.workers
  lanes_pos : 1 ≤ p.lanes
  fifo_pos : 1 ≤ p.fifoDepth
  tables_ok : p.tables.Ok

/-- The two table memories of the search engine (R32). -/
inductive Side where
  | fwd
  | bwd
  deriving DecidableEq, Repr

/-- FREE VALUE (R225, U5; log 5): the 24 bits the `n`-th unspecified read of `DOUT` or `RK[i]` returns. It has no
body, so no proof can know it. -/
opaque busyRead : Nat → Block

/-- FREE VALUE (R39, R68, U6; log 6): what an entry of a table memory that no generation has written reads as. -/
opaque tableFill : Nat → Side → Nat → Entry

end Sys2Proof.Config
end

