-- ==== Sys2Proof/Machine/Bits.lean ====
section
/-! DEFINITION. Bit-field helpers (00_scope.md R9; 30_encoding.md R96). -/

namespace Sys2Proof.Machine

/-- Nibble `j` of a Block: bits `4j+3` down to `4j` (R9). -/
def nibble (s : Block) (j : Fin 6) : Nibble := s.extractLsb' (4 * j.val) 4

/-- The Block whose nibble `j` is `f j` (R94 c). -/
def ofNibbles (f : Fin 6 → Nibble) : Block :=
  (((((f 5 ++ f 4) ++ f 3) ++ f 2) ++ f 1) ++ f 0).cast (by decide)

/-- `t` with bit `j` set to `b`. -/
def putBit (t : Block) (j : Fin 24) (b : Bool) : Block :=
  if b then t ||| BitVec.twoPow 24 j.val else t &&& ~~~(BitVec.twoPow 24 j.val)

/-- `zext_32` of a 24-bit value (R93). -/
def zext32 (b : Block) : HostWord := b.setWidth 32

/-- `D[23:0]` of a data word (R37, R93). -/
def low24 (d : HostWord) : Block := d.setWidth 24

/-- The packed entry `{value, key}` (R96). -/
def pack (value key : Block) : Entry := (value ++ key).cast (by decide)

/-- The value of an entry: bits 47..24 (R96). -/
def entryValue (e : Entry) : Block := e.extractLsb' 24 24

/-- The key of an entry: bits 23..0 (R96). -/
def entryKey (e : Entry) : Block := e.extractLsb' 0 24

end Sys2Proof.Machine
end

