-- ==== Sys2Proof/Machine/Cipher.lean ====
section
/-! DEFINITION. The cipher as functions (40_layers.md, 41_key_schedule.md, 42_block_cipher.md, 43_cascade.md), for any
constant tables. Every function is pure and total (R11). -/

namespace Sys2Proof.Machine

open Sys2Proof.Config

/-- `SBOX[n]` (R20). -/
def sbox (T : Tables) (n : Nibble) : Nibble := T.sbox[n.toFin]

/-- `INVSBOX[n]` (R20). -/
def invSbox (T : Tables) (n : Nibble) : Nibble := T.invsbox[n.toFin]

/-- `ADDKEY(s, k)` (R124). -/
def addKey (s k : Block) : Block := s ^^^ k

/-- `SLAYER(s)` (R125): each of the six nibbles through `SBOX`. -/
def sLayer (T : Tables) (s : Block) : Block := ofNibbles fun j => sbox T (nibble s j)

/-- `INVSLAYER(s)` (R126): each of the six nibbles through `INVSBOX`. -/
def invSLayer (T : Tables) (s : Block) : Block := ofNibbles fun j => invSbox T (nibble s j)

/-- The loop of R127 and R128: for `i` in 0..23, bit `m[i]` of the result is bit `i` of `s`. -/
def scatter (m : Vector (Fin 24) 24) (s : Block) : Block :=
  (List.finRange 24).foldl (fun t i => putBit t m[i] (s.getLsbD i.val)) 0

/-- `PLAYER(s)` (R127): bit `i` goes to bit `PERM[i]` (R122's direction). -/
def pLayer (T : Tables) (s : Block) : Block := scatter T.perm s

/-- `INVPLAYER(s)` (R128). -/
def invPLayer (T : Tables) (s : Block) : Block := scatter T.invperm s

/-- `KSLOAD(k)` (R140): the master key at bits 79..56, zeros below. -/
def ksLoad (k : Block) : KeyReg := (k ++ (0 : BitVec 56)).cast (by decide)

/-- Step two of R141: `SBOX` on bits 79..76. -/
def subTop (T : Tables) (r : KeyReg) : KeyReg :=
  (sbox T (r.extractLsb' 76 4) ++ r.extractLsb' 0 76).cast (by decide)

/-- `KSUPDATE(r, i)` (R141): rotate left 61, substitute the top nibble, XOR the round counter at bit 15. -/
def ksUpdate (T : Tables) (r : KeyReg) (i : BitVec 5) : KeyReg :=
  subTop T (r.rotateLeft 61) ^^^ (i.setWidth 80 <<< 15)

/-- `RKX(r)` (R142): bits 39..16. -/
def rkx (r : KeyReg) : Block := r.extractLsb' 16 24

/-- The key-schedule register of key `k` after update `n` (R143): loaded at 0, updated with counter 1, 2, .... -/
def keyRegAfter (T : Tables) (k : Block) : Nat → KeyReg
  | 0 => ksLoad k
  | n + 1 => ksUpdate T (keyRegAfter T k n) (BitVec.ofNat 5 (n + 1))

/-- `key_schedule(k)` (R143): round key `i` is extracted after update `i`, round key 0 from the loaded register
(R144). -/
def keySchedule (T : Tables) (k : Block) : Schedule := Vector.ofFn fun i => rkx (keyRegAfter T k i.val)

/-- `ENCROUND(s, k)` (R155): key, substitution, permutation. -/
def encRound (T : Tables) (s k : Block) : Block := pLayer T (sLayer T (addKey s k))

/-- `DECROUND(s, k)` (R157): inverse permutation, inverse substitution, key. -/
def decRound (T : Tables) (s k : Block) : Block := addKey (invSLayer T (invPLayer T s)) k

/-- The round indices 0..9, ascending, as indices of a schedule (R156). -/
def roundIndices : List (Fin 11) := (List.finRange 10).map Fin.castSucc

/-- `encrypt(rk, x)` (R156): rounds 0 to 9, then the final whitening. -/
def encrypt (T : Tables) (rk : Schedule) (x : Block) : Block :=
  addKey (roundIndices.foldl (fun s i => encRound T s rk[i]) x) rk[10]

/-- `decrypt(rk, y)` (R158): the final whitening undone, then inverse rounds 9 down to 0, nothing after. -/
def decrypt (T : Tables) (rk : Schedule) (y : Block) : Block :=
  roundIndices.reverse.foldl (fun s i => decRound T s rk[i]) (addKey y rk[10])

/-- `double_encrypt(k1, k2, x)` (R175): under key 1 first, then under key 2. -/
def doubleEncrypt (T : Tables) (k1 k2 x : Block) : Block :=
  encrypt T (keySchedule T k2) (encrypt T (keySchedule T k1) x)

end Sys2Proof.Machine
end

