-- ==== Sys2Proof/Machine/Tables.lean ====
section
/-! DEFINITION. The literal constant tables (40_layers.md R120 to R123) and the parameters of this hardware
(00_scope.md R6; log 8, 9). -/

namespace Sys2Proof.Machine

open Sys2Proof.Config

/-- The literals of R120 (`C56B90AD3EF84712`), R121 (`5EF8C12DB463079A`), R122 and R123. The spec marks them "from
general knowledge, not in source"; no structural statement rests on them (R7, log 9). -/
def present24 : Tables where
  sbox := #v[0xC, 0x5, 0x6, 0xB, 0x9, 0x0, 0xA, 0xD, 0x3, 0xE, 0xF, 0x8, 0x4, 0x7, 0x1, 0x2]
  invsbox := #v[0x5, 0xE, 0xF, 0x8, 0xC, 0x1, 0x2, 0xD, 0xB, 0x4, 0x6, 0x3, 0x0, 0x7, 0x9, 0xA]
  perm := #v[0, 6, 12, 18, 1, 7, 13, 19, 2, 8, 14, 20, 3, 9, 15, 21, 4, 10, 16, 22, 5, 11, 17, 23]
  invperm := #v[0, 4, 8, 12, 16, 20, 1, 5, 9, 13, 17, 21, 2, 6, 10, 14, 18, 22, 3, 7, 11, 15, 19, 23]

/-- The parameters at reset: `KBITS = 24` (R6); `W`, `V` and `FIFO_DEPTH` at the smallest value R8 allows
(DESIGN CHOICE, log 8). -/
def hardware : Params where
  kbits := 24
  workers := 1
  lanes := 1
  fifoDepth := 1
  tables := present24

end Sys2Proof.Machine
end

