-- ==== Sys2Proof/Machine/State.lean ====
section
/-! DEFINITION. The state of the core (10_state.md), as plain data, and its value right after reset (R39, R270). -/

namespace Sys2Proof.Machine

open Sys2Proof.Config

/-- `PHASE` (R27, R33): the sequencer's phase. Values 5 to 7 of the field never occur (R27, U20). -/
inductive Phase where
  | idle
  | short
  | gen
  | sort
  | join
  deriving DecidableEq, Repr

/-- `CAUSE` (R27, R241): why the most recent host write was refused. -/
inductive Cause where
  | noCause
  | illcmd
  | busywr
  | badacc
  deriving DecidableEq, Repr

/-- `OP` (R33): the command being executed, one of the six opcodes of R92. -/
inductive Op where
  | nop
  | ksched
  | enc
  | dec
  | denc
  | mitm
  deriving DecidableEq, Repr

/-- The verdict of an entry of the verification queue (R34). -/
inductive Verdict where
  | pending
  | pass
  | fail
  deriving DecidableEq, Repr

/-- A key pair `(key1, key2)`: a join candidate, or a CandidateKeyPair of the result (R97). -/
structure KeyPair where
  key1 : Block
  key2 : Block
  deriving DecidableEq, Repr

/-- An entry of the verification queue `VQ` (R34). -/
structure QueueEntry where
  pair : KeyPair
  verdict : Verdict
  deriving DecidableEq, Repr

/-- One set of cipher registers (R29 to R31): a key-schedule register, a schedule, a cipher state. -/
structure CipherRegs where
  kreg : KeyReg
  rk : Schedule
  st : Block
  deriving DecidableEq, Repr

/-- Cipher registers at reset: 0 (R39). -/
def CipherRegs.zero : CipherRegs := ⟨0, Vector.replicate 11 0, 0⟩

/-- A table memory (R32, R60): (index, entry) pairs, indices strictly rising. An index that is not listed holds no
written entry (log 7). -/
abbrev Memory := List (Nat × Entry)

/-- The agents inside the core and the step each may be given (R248; log 1): `worker w k` is worker `w` on key `k`,
`lane v n` is lane `v` on the `n`-th entry of `VQ`. -/
inductive Agent where
  | sequencer
  | datapath
  | worker (w : Nat) (k : Block)
  | sorter
  | join
  | lane (v : Nat) (n : Nat)
  | retirement
  deriving DecidableEq, Repr

/-- What happens next to the core (log 1): a host access (R226), reset (R270), or the turn of one of its own agents. -/
inductive Event where
  | host (t : Txn)
  | reset
  | agent (g : Agent)
  deriving DecidableEq, Repr

/-- The state of the core. Each field's docstring names the rule of spec/ that gives it. -/
structure State where
  /-- `KBITS`, `W`, `V`, `FIFO_DEPTH` and the constant tables (R6 to R8, R20, R21); no step changes them. -/
  params : Params
  /-- `K1` (R22). -/
  k1 : Block
  /-- `K2` (R22). -/
  k2 : Block
  /-- `DIN` (R23). -/
  din : Block
  /-- `DOUT` (R23). -/
  dout : Block
  /-- `P1` (R24). -/
  p1 : Block
  /-- `C1` (R24). -/
  c1 : Block
  /-- `P2` (R24). -/
  p2 : Block
  /-- `C2` (R24). -/
  c2 : Block
  /-- `RK[0]` to `RK[10]` (R25). -/
  rk : Schedule
  /-- `STATUS.BUSY` (R27). -/
  busy : Bool
  /-- `STATUS.DONE` (R27). -/
  done : Bool
  /-- `STATUS.ERR` (R27). -/
  err : Bool
  /-- `STATUS.CAUSE` (R27). -/
  cause : Cause
  /-- `PHASE` (R27, R33). -/
  phase : Phase
  /-- `RF`, the result FIFO, front first (R28). -/
  rf : List KeyPair
  /-- `KREG` (R29). -/
  kreg : KeyReg
  /-- `STATE` (R30). -/
  cst : Block
  /-- The private registers of `DENC` for key 1 (R31, R176; log 13). -/
  denc1 : CipherRegs
  /-- The private registers of `DENC` for key 2 (R31, R176; log 13). -/
  denc2 : CipherRegs
  /-- The private registers of each generation worker (R31). -/
  workers : List CipherRegs
  /-- The private registers of each verification lane (R31). -/
  lanes : List CipherRegs
  /-- `TF`, the forward table memory (R32). -/
  tf : Memory
  /-- `TB`, the backward table memory (R32). -/
  tb : Memory
  /-- `OP` (R33). -/
  op : Op
  /-- The number of micro-steps the short-command datapath has done (implied by R145, R160, R161, R176; log 11). -/
  upc : Nat
  /-- `GDONE`: the keys generation has finished, strictly rising (R33; log 15). -/
  gdone : List Nat
  /-- Cursor `I` (R33). -/
  i : Nat
  /-- Cursor `J` (R33). -/
  j : Nat
  /-- `IE` (R33). -/
  ie : Nat
  /-- `JE` (R33). -/
  je : Nat
  /-- `A` (R33). -/
  a : Nat
  /-- `B` (R33). -/
  b : Nat
  /-- `JEND` (R33). -/
  jend : Bool
  /-- `VQ`, front first (R34). -/
  vq : List QueueEntry
  /-- The word the host's last read returned (R220; the MODEL's own field, log 4). -/
  rdata : HostWord
  /-- How many free values reads have drawn (R225, U5; the MODEL's own field, log 5). -/
  draws : Nat
  /-- What happens next, first first (R226, R248, U9; the MODEL's own field, log 1). -/
  agenda : List Event
  deriving DecidableEq, Repr

/-- Why a step stops with a fault: never. "Nothing in the core is treated as fault" (93_implementation_defined.md,
R240), so the type has no constructor (log 23). -/
inductive Fault where
  deriving DecidableEq, Repr

/-- Why a step is refused. -/
inductive Refusal where
  /-- Raised only by an arm of `exec` whose instruction has no meaning yet (none has this arm now). Safe. -/
  | notModelled (mnemonic : String)
  deriving DecidableEq, Repr

/-- The outcome of a step of the core. -/
abbrev Result := Host.Outcome State Fault Refusal

/-- The state of R39 and R270 for a core with the given parameters; the model's own fields `rdata`, `draws` and `agenda`
are 0, 0 and empty (DESIGN CHOICE, log 1, 4, 5), and nothing is listed in `TF` and `TB` (R39 leaves them unspecified,
log 6). -/
def State.resetOf (p : Params) : State where
  params := p
  k1 := 0
  k2 := 0
  din := 0
  dout := 0
  p1 := 0
  c1 := 0
  p2 := 0
  c2 := 0
  rk := Vector.replicate 11 0
  busy := false
  done := false
  err := false
  cause := .noCause
  phase := .idle
  rf := []
  kreg := 0
  cst := 0
  denc1 := CipherRegs.zero
  denc2 := CipherRegs.zero
  workers := List.replicate p.workers CipherRegs.zero
  lanes := List.replicate p.lanes CipherRegs.zero
  tf := []
  tb := []
  op := .nop
  upc := 0
  gdone := []
  i := 0
  j := 0
  ie := 0
  je := 0
  a := 0
  b := 0
  jend := false
  vq := []
  rdata := 0
  draws := 0
  agenda := []

/-- The machine right after reset (R39, R270), with this hardware's parameters. -/
def State.reset : State := State.resetOf hardware

end Sys2Proof.Machine
end

