-- ==== Sys2Proof/Machine/Flags.lean ====
section
/-! DEFINITION. The `STATUS` word (10_state.md R27): the only flags of the core. -/

namespace Sys2Proof.Machine

/-- The code of `PHASE` in bits 6..4 of `STATUS` (R27). -/
def Phase.code : Phase → BitVec 3
  | .idle => 0
  | .short => 1
  | .gen => 2
  | .sort => 3
  | .join => 4

/-- The code of `CAUSE` in bits 9..8 of `STATUS` (R27, R241). -/
def Cause.code : Cause → BitVec 2
  | .noCause => 0
  | .illcmd => 1
  | .busywr => 2
  | .badacc => 3

/-- The opcode of a command (R92). -/
def Op.code : Op → BitVec 4
  | .nop => 0
  | .ksched => 1
  | .enc => 2
  | .dec => 3
  | .denc => 4
  | .mitm => 5

/-- `RVALID = (len(RF) > 0)` (R27). -/
def rvalid (s : State) : Bool := decide (0 < s.rf.length)

/-- The `STATUS` word (R27): bits 31..10 zero, `CAUSE`, bit 7 zero, `PHASE`, `ERR`, `RVALID`, `DONE`, `BUSY`. -/
def statusWord (s : State) : HostWord :=
  ((((((((0 : BitVec 22) ++ s.cause.code) ++ (0 : BitVec 1)) ++ s.phase.code) ++ BitVec.ofBool s.err)
    ++ BitVec.ofBool (rvalid s)) ++ BitVec.ofBool s.done) ++ BitVec.ofBool s.busy).cast (by decide)

end Sys2Proof.Machine
end

