-- ==== Sys2Proof/Machine/Ops.lean ====
section
/-! DEFINITION. The shared operations on the state: the table memories, the cipher registers, the refusal of a host write
(the core's only exception, 60_exceptions.md R241, R244), acceptance and completion of a command (45_host_interface.md
R222, R227), and reset (70_reset_and_hazards.md R270, R271). -/

namespace Sys2Proof.Machine

open Sys2Proof.Config

/-! ### Table memories (20_memory.md R60, R64, R68) -/

/-- The canonical form of a table memory: indices strictly rising (log 7). An unlisted index holds no written entry, so
no listed entry can equal what an unlisted one holds. -/
abbrev Memory.wf (m : Memory) : Prop := m.Pairwise fun x y => x.1 < y.1

/-- The entry written at index `x`, if one was. -/
def Memory.lookup : Memory → Nat → Option Entry
  | [], _ => none
  | (k, e) :: m, x => if k = x then some e else Memory.lookup m x

/-- Store entry `e` at index `x`, keeping the indices strictly rising. -/
def Memory.write : Memory → Nat → Entry → Memory
  | [], x, e => [(x, e)]
  | (k, d) :: m, x, e =>
    if x < k then (x, e) :: (k, d) :: m
    else if x = k then (x, e) :: m
    else (k, d) :: Memory.write m x e

/-- The memory that holds the entries of a list at index `x` and up. -/
def Memory.ofEntriesFrom : Nat → List Entry → Memory
  | _, [] => []
  | x, e :: es => (x, e) :: Memory.ofEntriesFrom (x + 1) es

/-- `TF` or `TB` (R32). -/
def State.table (s : State) : Side → Memory
  | .fwd => s.tf
  | .bwd => s.tb

/-- `MemRead(T[x], 1)` (00_scope.md 6.2): the written entry, or a free value where nothing was written (R68, U6;
log 6). -/
def memRead (s : State) (t : Side) (x : Nat) : Entry :=
  (Memory.lookup (s.table t) x).getD (tableFill s.draws t x)

/-- `MemWrite(T[x], 1, e)` (00_scope.md 6.2). -/
def memWrite (t : Side) (x : Nat) (e : Entry) (s : State) : State :=
  match t with
  | .fwd => { s with tf := Memory.write s.tf x e }
  | .bwd => { s with tb := Memory.write s.tb x e }

/-- The `N` entries of a table, index 0 first. -/
def tableEntries (s : State) (t : Side) : List Entry := (List.range s.params.n).map (memRead s t)

/-! ### Cipher registers (10_state.md R29 to R31) -/

/-- The registers of a datapath: the short-command datapath's are `KREG`, `RK`, `STATE`. -/
def cipherRegs (s : State) : Datapath → CipherRegs
  | .short => ⟨s.kreg, s.rk, s.cst⟩
  | .denc1 => s.denc1
  | .denc2 => s.denc2

/-- Write the registers of a datapath. -/
def setCipherRegs (p : Datapath) (c : CipherRegs) (s : State) : State :=
  match p with
  | .short => { s with kreg := c.kreg, rk := c.rk, cst := c.st }
  | .denc1 => { s with denc1 := c }
  | .denc2 => { s with denc2 := c }

/-- Write the cipher state of a datapath. -/
def setCipherState (p : Datapath) (b : Block) (s : State) : State :=
  setCipherRegs p { cipherRegs s p with st := b } s

/-- Write the key-schedule register of a datapath. -/
def setKeyReg (p : Datapath) (r : KeyReg) (s : State) : State :=
  setCipherRegs p { cipherRegs s p with kreg := r } s

/-- Write one round key of a datapath. -/
def setRoundKey (p : Datapath) (i : Fin 11) (b : Block) (s : State) : State :=
  setCipherRegs p { cipherRegs s p with rk := (cipherRegs s p).rk.set i.val b } s

/-! ### The command protocol -/

/-- A refusal (R241, R244): `ERR <- 1`, `CAUSE <-` its code, nothing else. There is no handler, no saved state and no
return (R244, R245); acceptance of the next command clears both (R222). -/
def refuse (c : Cause) (s : State) : State := { s with err := true, cause := c }

/-- What acceptance of `MITM` discards (R181): the results of an earlier run, the verification queue, and the
sequencing state. -/
def flush (s : State) : State :=
  { s with rf := [], vq := [], gdone := [], i := 0, j := 0, ie := 0, je := 0, a := 0, b := 0, jend := false }

/-- The assignments of R222 on acceptance of a command that goes to phase `ph`. -/
def beginCommand (o : Op) (ph : Phase) (s : State) : State :=
  { s with op := o, busy := true, done := false, err := false, cause := .noCause, phase := ph, upc := 0 }

/-- Acceptance of a command (R222), with the flush of R181 for `MITM`. -/
def accept (o : Op) (s : State) : State :=
  if o = .mitm then beginCommand o .gen (flush s) else beginCommand o .short s

/-- A command word written to index 0x00 (R222): accepted if and only if `BUSY = 0`, else refused BUSYWR. -/
def command (o : Op) (s : State) : State := if s.busy then refuse .busywr s else accept o s

/-- Completion of a command (R227): `BUSY <- 0; DONE <- 1; PHASE <- IDLE`. -/
def complete (s : State) : State := { s with busy := false, done := true, phase := .idle }

/-- What the tables hold after a search is unspecified (R38, R68): nothing stays listed, and a fresh free value stands
for every entry (log 6). -/
def discardTables (s : State) : State := { s with tf := [], tb := [], draws := s.draws + 1 }

/-- Completion of `MITM` (R200, R227, R68). -/
def completeSearch (s : State) : State := complete (discardTables s)

/-! ### Reset -/

/-- Reset asserted and released (R270, R271): the state of R39. The parameters are wiring; the model's own fields are
the outside world's and go on (log 20). -/
def resetCore (s : State) : State :=
  { State.resetOf s.params with rdata := s.rdata, draws := s.draws + 1, agenda := s.agenda }

end Sys2Proof.Machine
end

