-- ==== Sys2Proof/Machine/Operands.lean ====
section
/-! DEFINITION. The host's view of the registers (20_memory.md R66, R67; 45_host_interface.md R220, R221, R225) and the
operands of the functions. -/

namespace Sys2Proof.Machine

open Sys2Proof.Config

/-- The eighteen operand registers a host write may store to (R221). -/
inductive OperandReg where
  | k1
  | k2
  | din
  | p1
  | c1
  | p2
  | c2
  | rk (i : Fin 11)
  deriving DecidableEq, Repr

/-- Read an operand register. -/
def operand (s : State) : OperandReg → Block
  | .k1 => s.k1
  | .k2 => s.k2
  | .din => s.din
  | .p1 => s.p1
  | .c1 => s.c1
  | .p2 => s.p2
  | .c2 => s.c2
  | .rk i => s.rk[i]

/-- Store a value in an operand register. -/
def setOperand (r : OperandReg) (b : Block) (s : State) : State :=
  match r with
  | .k1 => { s with k1 := b }
  | .k2 => { s with k2 := b }
  | .din => { s with din := b }
  | .p1 => { s with p1 := b }
  | .c1 => { s with c1 := b }
  | .p2 => { s with p2 := b }
  | .c2 => { s with c2 := b }
  | .rk i => { s with rk := s.rk.set i.val b }

/-- `WR a, d` (R221): refused BUSYWR while a command executes, else `register(a) <- d[23:0]` (R37). -/
def writeOperand (r : OperandReg) (d : HostWord) (s : State) : State :=
  if s.busy then refuse .busywr s else setOperand r (low24 d) s

/-- The indices whose reads are unspecified while `BUSY = 1` (R225): `DOUT` and `RK[0]` to `RK[10]`. -/
def isResultIndex (x : Index) : Bool := x.toNat == 0x05 || (0x10 ≤ x.toNat && x.toNat ≤ 0x1A)

/-- A read draws a free value (R225, U5; log 5). -/
def drawsFree (s : State) (x : Index) : Bool := s.busy && isResultIndex x

/-- The word a read returns when nothing is unspecified: the cases of R220. -/
def storedWord (s : State) (x : Index) : HostWord :=
  match x.toNat with
  | 0x01 => statusWord s
  | 0x02 => zext32 s.k1
  | 0x03 => zext32 s.k2
  | 0x04 => zext32 s.din
  | 0x05 => zext32 s.dout
  | 0x06 => zext32 s.p1
  | 0x07 => zext32 s.c1
  | 0x08 => zext32 s.p2
  | 0x09 => zext32 s.c2
  | 0x0A => match s.rf with
    | [] => 0
    | r :: _ => zext32 r.key1
  | 0x0B => match s.rf with
    | [] => 0
    | r :: _ => zext32 r.key2
  | n => if h : 0x10 ≤ n ∧ n ≤ 0x1A then zext32 (s.rk[n - 0x10]'(by omega)) else 0

/-- `RD(a)` (R220): a free value with bits 31..24 zero where R225 says so, else the stored word. -/
def hostRead (s : State) (x : Index) : HostWord :=
  if drawsFree s x then zext32 (busyRead s.draws) else storedWord s x

/-- The master key a key schedule takes (R145, R176). -/
def keyOperand (s : State) : KeySource → Block
  | .k1 => s.k1
  | .k2 => s.k2

/-- The block a function takes: `DIN`, or the intermediate value `t` of `DENC` (R176). -/
def blockOperand (s : State) : BlockSource → Block
  | .din => s.din
  | .inner => s.denc1.st

end Sys2Proof.Machine
end

