-- ==== Sys2Proof/Machine/Layer.lean ====
section
/-! DEFINITION. The micro-operations and functions of the cipher on a datapath's registers (40_layers.md R124 to R128;
41 R140 to R143; 42 R155 to R158; 43 R175). The spec gives each as a pure function; the registers it reads and writes
are those of the command that runs it (R145, R160, R161, R176; log 12). -/

namespace Sys2Proof.Machine

/-- `ADDKEY` (R124) of the cipher state with round key `i`. -/
def execAddkey (p : Datapath) (i : Fin 11) (s : State) : Result :=
  .next (setCipherState p (addKey (cipherRegs s p).st (cipherRegs s p).rk[i]) s)

/-- `SLAYER` (R125) of the cipher state. -/
def execSlayer (p : Datapath) (s : State) : Result :=
  .next (setCipherState p (sLayer s.params.tables (cipherRegs s p).st) s)

/-- `INVSLAYER` (R126) of the cipher state. -/
def execInvslayer (p : Datapath) (s : State) : Result :=
  .next (setCipherState p (invSLayer s.params.tables (cipherRegs s p).st) s)

/-- `PLAYER` (R127) of the cipher state. -/
def execPlayer (p : Datapath) (s : State) : Result :=
  .next (setCipherState p (pLayer s.params.tables (cipherRegs s p).st) s)

/-- `INVPLAYER` (R128) of the cipher state. -/
def execInvplayer (p : Datapath) (s : State) : Result :=
  .next (setCipherState p (invPLayer s.params.tables (cipherRegs s p).st) s)

/-- `KSLOAD` (R140): the key register takes the widened master key. -/
def execKsload (p : Datapath) (k : KeySource) (s : State) : Result := .next (setKeyReg p (ksLoad (keyOperand s k)) s)

/-- `KSUPDATE` (R141) of the key register with round counter `i`. -/
def execKsupdate (p : Datapath) (i : BitVec 5) (s : State) : Result :=
  .next (setKeyReg p (ksUpdate s.params.tables (cipherRegs s p).kreg i) s)

/-- `RKX` (R142): round key `i` takes bits 39..16 of the key register. -/
def execRkx (p : Datapath) (i : Fin 11) (s : State) : Result :=
  .next (setRoundKey p i (rkx (cipherRegs s p).kreg) s)

/-- `ENCROUND` (R155) of the cipher state with round key `i`. -/
def execEncround (p : Datapath) (i : Fin 11) (s : State) : Result :=
  .next (setCipherState p (encRound s.params.tables (cipherRegs s p).st (cipherRegs s p).rk[i]) s)

/-- `DECROUND` (R157) of the cipher state with round key `i`. -/
def execDecround (p : Datapath) (i : Fin 11) (s : State) : Result :=
  .next (setCipherState p (decRound s.params.tables (cipherRegs s p).st (cipherRegs s p).rk[i]) s)

/-- `key_schedule` (R143): the schedule of a master key, its last update left in the key register. -/
def execKeySchedule (p : Datapath) (k : KeySource) (s : State) : Result :=
  let T := s.params.tables
  .next (setCipherRegs p
    { cipherRegs s p with kreg := keyRegAfter T (keyOperand s k) 10, rk := keySchedule T (keyOperand s k) } s)

/-- `encrypt` (R156) under the datapath's schedule. -/
def execEncrypt (p : Datapath) (x : BlockSource) (s : State) : Result :=
  .next (setCipherState p (encrypt s.params.tables (cipherRegs s p).rk (blockOperand s x)) s)

/-- `decrypt` (R158) under the datapath's schedule. -/
def execDecrypt (p : Datapath) (x : BlockSource) (s : State) : Result :=
  .next (setCipherState p (decrypt s.params.tables (cipherRegs s p).rk (blockOperand s x)) s)

/-- The registers a computation under key `k` leaves: the last key register, the schedule, the resulting block. -/
def regsAfter (T : Config.Tables) (k : Block) (result : Block) : CipherRegs :=
  ⟨keyRegAfter T k 10, keySchedule T k, result⟩

/-- `double_encrypt` (R175) of `DIN` under `K1`, then `K2`, on the private registers of `DENC` (R176): the inner value
in `denc1`, the result in `denc2`. -/
def execDoubleEncrypt (s : State) : Result :=
  let T := s.params.tables
  .next { s with denc1 := regsAfter T s.k1 (encrypt T (keySchedule T s.k1) s.din),
                 denc2 := regsAfter T s.k2 (doubleEncrypt T s.k1 s.k2 s.din) }

end Sys2Proof.Machine
end

