-- ==== Sys2Proof/Machine/Search.lean ====
section
/-! DEFINITION. The MITM search at the functional level (44_mitm_engine.md R180): the tables, the merge-join as a
function of two sorted lists, and the result list. -/

namespace Sys2Proof.Machine

open Sys2Proof.Config

/-- `F(k)` (R180): the forward value of a key. -/
def forwardValue (T : Tables) (x k : Block) : Block := encrypt T (keySchedule T k) x

/-- `B(k)` (R180): the backward value of a key. -/
def backwardValue (T : Tables) (y k : Block) : Block := decrypt T (keySchedule T k) y

/-- The entry generation writes for key `k` in `TF` from `P1` (R182). -/
def forwardEntry (T : Tables) (x k : Block) : Entry := pack (forwardValue T x k) k

/-- The entry generation writes for key `k` in `TB` from `C1` (R182). -/
def backwardEntry (T : Tables) (y k : Block) : Entry := pack (backwardValue T y k) k

/-- The keys of the key space, ascending, as 24-bit master keys (R6, R95). -/
def keySpace (p : Params) : List Block := (List.range p.n).map (BitVec.ofNat 24)

/-- Ascending by (value, key), that is, by the unsigned 48-bit word (R96, R186). -/
def sortEntries (l : List Entry) : List Entry := l.insertionSort (· ≤ ·)

/-- Whether a list of entries ascends (R186). -/
def ascending : List Entry → Bool
  | [] => true
  | [_] => true
  | d :: e :: l => decide (d ≤ e) && ascending (e :: l)

/-- The cross product of two runs (R191), forward-major (R193). -/
def crossProduct (fs bs : List Entry) : List KeyPair :=
  fs.flatMap fun f => bs.map fun b => ⟨entryKey f, entryKey b⟩

/-- The merge-join (R188 to R192) of two sorted lists, with `n` bounding its transitions: advance the side whose value
is smaller; on equal values emit the cross product of the two runs and go past both; end when a list is used up. -/
def joinLoop : Nat → List Entry → List Entry → List KeyPair
  | 0, _, _ => []
  | _ + 1, [], _ => []
  | _ + 1, _, [] => []
  | n + 1, f :: fs, b :: bs =>
    let v := entryValue f
    let w := entryValue b
    if v < w then joinLoop n fs (b :: bs)
    else if w < v then joinLoop n (f :: fs) bs
    else
      crossProduct ((f :: fs).takeWhile fun e => entryValue e == v) ((b :: bs).takeWhile fun e => entryValue e == v) ++
        joinLoop n ((f :: fs).dropWhile fun e => entryValue e == v) ((b :: bs).dropWhile fun e => entryValue e == v)

/-- `join(TF, TB)` (R180): each transition uses up at least one entry (R192). -/
def join (fs bs : List Entry) : List KeyPair := joinLoop (fs.length + bs.length) fs bs

/-- `VERIFY(k1, k2) = pass` (R197). -/
def verifies (T : Tables) (x y : Block) (r : KeyPair) : Bool := doubleEncrypt T r.key1 r.key2 x == y

/-- The sorted forward table of a run (R180). -/
def forwardTable (p : Params) (x : Block) : List Entry := sortEntries ((keySpace p).map (forwardEntry p.tables x))

/-- The sorted backward table of a run (R180). -/
def backwardTable (p : Params) (y : Block) : List Entry := sortEntries ((keySpace p).map (backwardEntry p.tables y))

/-- `OUT` (R180) for the inputs `P1, C1, P2, C2`. -/
def searchResult (p : Params) (x1 y1 x2 y2 : Block) : List KeyPair :=
  (join (forwardTable p x1) (backwardTable p y1)).filter (verifies p.tables x2 y2)

end Sys2Proof.Machine
end

