-- ==== Sys2Proof/Machine/Engine.lean ====
section
/-! DEFINITION. The micro-operations of the MITM engine (44_mitm_engine.md R182 to R199). Each has an enabling condition
(its phase, R248, and the condition of its rule); where it does not hold the micro-operation takes no step and the state
is unchanged (log 3). -/

namespace Sys2Proof.Machine

open Sys2Proof.Config

/-! ### Generation (R182 to R185) -/

/-- Mark a key as generated, keeping the keys strictly rising. -/
def markKey : List Nat → Nat → List Nat
  | [], k => [k]
  | m :: ms, k => if k < m then k :: m :: ms else if k = m then m :: ms else m :: markKey ms k

/-- The least key, from `k` on, that a rising list of keys does not hold. -/
def nextKey : Nat → List Nat → Nat
  | k, [] => k
  | k, m :: ms => if m = k then nextKey (k + 1) ms else k

/-- Every key of `[0, N)` is marked generated (R183). -/
def allGenerated (s : State) : Bool := decide (s.params.n ≤ nextKey 0 s.gdone)

/-- Worker `w` may run `GEN(k)`: generation is on, the worker exists, and `k` is an untaken key of `[0, N)` (R182,
R184). -/
def genReady (s : State) (w : Nat) (k : Block) : Bool :=
  decide (s.phase = .gen) && decide (w < s.params.workers) && decide (k.toNat < s.params.n) &&
    !s.gdone.contains k.toNat

/-- `GEN(k)` (R182): both entries at index `k` (R185), the key marked, on worker `w`'s private registers. -/
def execGen (w : Nat) (k : Block) (s : State) : Result :=
  let T := s.params.tables
  if genReady s w k then
    let t := memWrite .bwd k.toNat (backwardEntry T s.c1 k) (memWrite .fwd k.toNat (forwardEntry T s.p1 k) s)
    .next { t with gdone := markKey s.gdone k.toNat,
                   workers := s.workers.set w (regsAfter T k (backwardValue T s.c1 k)) }
  else .next s

/-! ### Sorting (R186, R187) -/

/-- Both tables are sorted (R186). -/
def tablesSorted (s : State) : Bool := ascending (tableEntries s .fwd) && ascending (tableEntries s .bwd)

/-- `SORT` (R186), as one atomic step (R187): each table takes its ascending arrangement. -/
def execSort (s : State) : Result :=
  if s.phase = .sort then
    .next { s with tf := Memory.ofEntriesFrom 0 (sortEntries (tableEntries s .fwd)),
                   tb := Memory.ofEntriesFrom 0 (sortEntries (tableEntries s .bwd)) }
  else .next s

/-! ### Merge-join (R188 to R193) -/

/-- The join unit is inside an equal-run emission: `IE` and `JE` are past the cursors (R33, R191; log 17). -/
def emitting (s : State) : Bool := decide (s.i < s.ie) && decide (s.j < s.je)

/-- The join goes on (R188): phase JOIN, `JEND = 0`. -/
def joinOn (s : State) : Bool := decide (s.phase = .join) && !s.jend

/-- The join unit is about to compare (R188): not inside an emission, and both cursors below `N`. -/
def comparing (s : State) : Bool :=
  joinOn s && !emitting s && decide (s.i < s.params.n) && decide (s.j < s.params.n)

/-- `TF[I].value` (R188). -/
def valueF (s : State) : Block := entryValue (memRead s .fwd s.i)

/-- `TB[J].value` (R188). -/
def valueB (s : State) : Block := entryValue (memRead s .bwd s.j)

/-- `ADVF` is enabled (R189). -/
def advfReady (s : State) : Bool := comparing s && decide (valueF s < valueB s)

/-- `ADVB` is enabled (R190). -/
def advbReady (s : State) : Bool := comparing s && decide (valueB s < valueF s)

/-- `EMITX` is enabled (R191): on equal values, or to go on with an emission. -/
def emitxReady (s : State) : Bool := (joinOn s && emitting s) || (comparing s && decide (valueF s = valueB s))

/-- `ADVF` (R189): `I <- I + 1`, nothing else. -/
def execAdvf (s : State) : Result := if advfReady s then .next { s with i := s.i + 1 } else .next s

/-- `ADVB` (R190): `J <- J + 1`, nothing else. -/
def execAdvb (s : State) : Result := if advbReady s then .next { s with j := s.j + 1 } else .next s

/-- The least index, from `x` on, of a table whose value is not `v`, looking at `fuel` entries (R191: one past the
run). -/
def runEnd (read : Nat → Entry) (v : Block) : Nat → Nat → Nat
  | 0, x => x
  | fuel + 1, x => if entryValue (read x) = v then runEnd read v fuel (x + 1) else x

/-- The start of an equal-run emission (R191): `IE`, `JE` one past the runs, `A`, `B` at their first pair. An emission
already begun is left as it is. -/
def emitBegin (s : State) : State :=
  if emitting s then s
  else
    { s with ie := runEnd (memRead s .fwd) (valueF s) (s.params.n - s.i) s.i,
             je := runEnd (memRead s .bwd) (valueF s) (s.params.n - s.j) s.j,
             a := s.i, b := s.j }

/-- `emit ( TF[A].key , TB[B].key )` (R191): append to `VQ`, verdict pending (R34). -/
def emitPair (s : State) : State :=
  { s with vq := s.vq ++ [⟨⟨entryKey (memRead s .fwd s.a), entryKey (memRead s .bwd s.b)⟩, .pending⟩] }

/-- The next position of the two loops (R191, R193: the backward run is the inner one); after the last pair
`I <- IE; J <- JE`. -/
def emitAdvance (s : State) : State :=
  if s.b + 1 < s.je then { s with b := s.b + 1 }
  else if s.a + 1 < s.ie then { s with a := s.a + 1, b := s.j }
  else { s with i := s.ie, j := s.je }

/-- `EMITX` (R191), one emission a step (R248); it waits while `VQ` is full (R34, R191). -/
def execEmitx (s : State) : Result :=
  if emitxReady s && decide (s.vq.length < s.params.lanes) then .next (emitAdvance (emitPair (emitBegin s)))
  else .next s

/-! ### Verification and delivery (R197 to R199) -/

/-- The verdict of a pair (R197). -/
def verdictOf (s : State) (r : KeyPair) : Verdict :=
  if verifies s.params.tables s.p2 s.c2 r then .pass else .fail

/-- `VERIFY` (R197) by lane `v` of the `n`-th entry of `VQ`, if it is pending, on the lane's private registers. -/
def execVerify (v : Nat) (n : Nat) (s : State) : Result :=
  match s.vq[n]? with
  | some ⟨r, .pending⟩ =>
    if s.phase = .join ∧ v < s.params.lanes then
      let T := s.params.tables
      .next { s with vq := s.vq.set n ⟨r, verdictOf s r⟩,
                     lanes := s.lanes.set v (regsAfter T r.key2 (doubleEncrypt T r.key1 r.key2 s.p2)) }
    else .next s
  | _ => .next s

/-- `RETIRE` (R198, R199): the head of `VQ` only. A fail is dropped; a pass is pushed into `RF` if there is room, else
nothing happens; a pending head waits. -/
def execRetire (s : State) : Result :=
  match s.phase, s.vq with
  | .join, ⟨_, .fail⟩ :: q => .next { s with vq := q }
  | .join, ⟨r, .pass⟩ :: q =>
    if s.rf.length < s.params.fifoDepth then .next { s with vq := q, rf := s.rf ++ [r] } else .next s
  | _, _ => .next s

end Sys2Proof.Machine
end

