-- ==== Sys2Proof/Machine/Agents.lean ====
section
/-! DEFINITION. Who moves next (60_exceptions.md R248) and what instruction or sequencer move that is. -/

namespace Sys2Proof.Machine

/-! ### Short commands -/

/-- A micro-step of a short command: a micro-operation or function of the table, or one of the two register moves the
commands' pseudocode has beside them. -/
inductive MicroStep where
  | op (i : Instr)
  /-- `STATE <- DIN` (R160, R161). -/
  | loadState
  /-- `DOUT <-` the cipher state of a datapath (R160, R161, R176). -/
  | storeDout (p : Datapath)
  deriving DecidableEq, Repr

/-- The micro-steps of a command, in the order its rule gives (log 11): R145 `KSCHED`, R160 `ENC`, R161 `DEC`, R176
`DENC`. `NOP` has none (R223), `MITM` is the engine's. -/
def microProgram : Op → List MicroStep
  | .nop => []
  | .ksched =>
    [.op (.ksload .short .k1), .op (.rkx .short 0)] ++
      (List.finRange 10).flatMap fun n =>
        [.op (.ksupdate .short (BitVec.ofNat 5 (n.val + 1))), .op (.rkx .short n.succ)]
  | .enc =>
    [.loadState] ++ roundIndices.map (fun i => .op (.encround .short i)) ++ [.op (.addkey .short 10), .storeDout .short]
  | .dec =>
    [.loadState, .op (.addkey .short 10)] ++ roundIndices.reverse.map (fun i => .op (.decround .short i)) ++
      [.storeDout .short]
  | .denc =>
    [.op (.keySchedule .denc1 .k1), .op (.encrypt .denc1 .din), .op (.keySchedule .denc2 .k2),
      .op (.encrypt .denc2 .inner), .storeDout .denc2]
  | .mitm => []

/-- A turn: the instruction to execute, if any, and the state to execute it in (or to go to). -/
abbrev Turn := Option Instr × State

/-- A turn of the short-command datapath: the next micro-step of the running command. -/
def datapathTurn (s : State) : Turn :=
  if s.phase = .short then
    match (microProgram s.op)[s.upc]? with
    | some (.op i) => (some i, { s with upc := s.upc + 1 })
    | some .loadState => (none, { s with upc := s.upc + 1, cst := s.din })
    | some (.storeDout p) => (none, { s with upc := s.upc + 1, dout := (cipherRegs s p).st })
    | none => (none, s)
  else (none, s)

/-! ### The sequencer and the join unit -/

/-- The command in phase SHORT has done its last micro-step (R227). -/
def shortDone (s : State) : Bool := decide ((microProgram s.op).length ≤ s.upc)

/-- A turn of the sequencer: completion (R227, R200), `PHASE <- SORT` when every key is generated (R183), `PHASE <- JOIN`
when both tables are sorted (R186). -/
def sequencerTurn (s : State) : State :=
  match s.phase with
  | .idle => s
  | .short => if shortDone s then complete s else s
  | .gen => if allGenerated s then { s with phase := .sort } else s
  | .sort => if tablesSorted s then { s with phase := .join } else s
  | .join => if s.jend && s.vq.isEmpty then completeSearch s else s

/-- The end of the join (R192): `I = N` or `J = N`, outside an emission. -/
def joinAtEnd (s : State) : Bool :=
  joinOn s && !emitting s && (decide (s.params.n ≤ s.i) || decide (s.params.n ≤ s.j))

/-- A turn of the join unit (R188): the one enabled transition, or `JEND <- 1` (R192). -/
def joinTurn (s : State) : Turn :=
  if joinAtEnd s then (none, { s with jend := true })
  else if advfReady s then (some .advf, s)
  else if advbReady s then (some .advb, s)
  else (some .emitx, s)

/-- The turn of an agent (R248). -/
def turn (g : Agent) (s : State) : Turn :=
  match g with
  | .sequencer => (none, sequencerTurn s)
  | .datapath => datapathTurn s
  | .worker w k => (some (.gen w k), s)
  | .sorter => (some .sort, s)
  | .join => joinTurn s
  | .lane v n => (some (.verify v n), s)
  | .retirement => (some .retire, s)

/-! ### What comes next -/

/-- `RETIRE` can take a step (R198). -/
def retireReady (s : State) : Bool :=
  match s.vq with
  | ⟨_, .fail⟩ :: _ => true
  | ⟨_, .pass⟩ :: _ => decide (s.rf.length < s.params.fifoDepth)
  | _ => false

/-- The agent that moves when nothing is scheduled (the sequential reading of R8; log 2). -/
def defaultAgent (s : State) : Agent :=
  match s.phase with
  | .idle => .sequencer
  | .short => if shortDone s then .sequencer else .datapath
  | .gen => if allGenerated s then .sequencer else .worker 0 (BitVec.ofNat 24 (nextKey 0 s.gdone))
  | .sort => if tablesSorted s then .sequencer else .sorter
  | .join =>
    if retireReady s then .retirement
    else match s.vq.findIdx? fun e => decide (e.verdict = .pending) with
      | some n => .lane 0 n
      | none => if s.jend then .sequencer else .join

/-- What the next step runs: the first event of the agenda (a host access, decoded; reset; an agent's turn), or, when the
agenda is empty, the default agent's turn. -/
def fetch (s : State) : Turn :=
  match s.agenda with
  | [] => turn (defaultAgent s) s
  | .host t :: rest => (some (decode t), { s with agenda := rest })
  | .reset :: rest => (none, resetCore { s with agenda := rest })
  | .agent g :: rest => turn g { s with agenda := rest }

end Sys2Proof.Machine
end

