-- ==== Sys2Proof/Machine/Access.lean ====
section
/-! DEFINITION. The host accesses (45_host_interface.md R220, R221, R224; 60_exceptions.md R241; 30_encoding.md R98). -/

namespace Sys2Proof.Machine

/-- `RD a` (R220): the word goes to the host (`rdata`, log 4); no read changes any state of the core (R65). -/
def execRd (x : Index) (s : State) : Result :=
  .next { s with rdata := hostRead s x, draws := if drawsFree s x then s.draws + 1 else s.draws }

/-- An illegal command word (R98 a): refused ILLCMD whether or not `BUSY = 1` (R243). -/
def execIllcmd (_d : HostWord) (s : State) : Result := .next (refuse .illcmd s)

/-- `POP` (R224): the head of `RF` is removed, busy or not; on an empty `RF` nothing happens. -/
def execPop (s : State) : Result := .next { s with rf := s.rf.tail }

/-- A write to an unmapped or read-only index (R67): refused BADACC, whatever `BUSY` is (R241, R243). -/
def execBadwr (_x : Index) (s : State) : Result := .next (refuse .badacc s)

/-- `WR K1, d` (R221). -/
def execWrK1 (d : HostWord) (s : State) : Result := .next (writeOperand .k1 d s)

/-- `WR K2, d` (R221). -/
def execWrK2 (d : HostWord) (s : State) : Result := .next (writeOperand .k2 d s)

/-- `WR DIN, d` (R221). -/
def execWrDin (d : HostWord) (s : State) : Result := .next (writeOperand .din d s)

/-- `WR P1, d` (R221). -/
def execWrP1 (d : HostWord) (s : State) : Result := .next (writeOperand .p1 d s)

/-- `WR C1, d` (R221). -/
def execWrC1 (d : HostWord) (s : State) : Result := .next (writeOperand .c1 d s)

/-- `WR P2, d` (R221). -/
def execWrP2 (d : HostWord) (s : State) : Result := .next (writeOperand .p2 d s)

/-- `WR C2, d` (R221). -/
def execWrC2 (d : HostWord) (s : State) : Result := .next (writeOperand .c2 d s)

/-- `WR RK0, d` (R221, R25). -/
def execWrRk0 (d : HostWord) (s : State) : Result := .next (writeOperand (.rk 0) d s)

/-- `WR RK1, d` (R221, R25). -/
def execWrRk1 (d : HostWord) (s : State) : Result := .next (writeOperand (.rk 1) d s)

/-- `WR RK2, d` (R221, R25). -/
def execWrRk2 (d : HostWord) (s : State) : Result := .next (writeOperand (.rk 2) d s)

/-- `WR RK3, d` (R221, R25). -/
def execWrRk3 (d : HostWord) (s : State) : Result := .next (writeOperand (.rk 3) d s)

/-- `WR RK4, d` (R221, R25). -/
def execWrRk4 (d : HostWord) (s : State) : Result := .next (writeOperand (.rk 4) d s)

/-- `WR RK5, d` (R221, R25). -/
def execWrRk5 (d : HostWord) (s : State) : Result := .next (writeOperand (.rk 5) d s)

/-- `WR RK6, d` (R221, R25). -/
def execWrRk6 (d : HostWord) (s : State) : Result := .next (writeOperand (.rk 6) d s)

/-- `WR RK7, d` (R221, R25). -/
def execWrRk7 (d : HostWord) (s : State) : Result := .next (writeOperand (.rk 7) d s)

/-- `WR RK8, d` (R221, R25). -/
def execWrRk8 (d : HostWord) (s : State) : Result := .next (writeOperand (.rk 8) d s)

/-- `WR RK9, d` (R221, R25). -/
def execWrRk9 (d : HostWord) (s : State) : Result := .next (writeOperand (.rk 9) d s)

/-- `WR RK10, d` (R221, R25). -/
def execWrRk10 (d : HostWord) (s : State) : Result := .next (writeOperand (.rk 10) d s)

end Sys2Proof.Machine
end

