-- ==== Sys2Proof/Machine/Command.lean ====
section
/-! DEFINITION. The six commands at the host interface (45_host_interface.md R222, R223; 41 R145; 42 R160, R161; 43 R176;
44 R181): each is accepted or refused BUSYWR. What an accepted command then does is the work of the agents
(`Machine/Agents.lean`), ended by completion (R227). -/

namespace Sys2Proof.Machine

/-- `NOP` (R223): acceptance; its completion follows. -/
def execNop (s : State) : Result := .next (command .nop s)

/-- `KSCHED` (R145): acceptance; then `RK <- key_schedule(K1)`. -/
def execKsched (s : State) : Result := .next (command .ksched s)

/-- `ENC` (R160): acceptance; then `DOUT <- encrypt(RK, DIN)`. -/
def execEnc (s : State) : Result := .next (command .enc s)

/-- `DEC` (R161): acceptance; then `DOUT <- decrypt(RK, DIN)`. -/
def execDec (s : State) : Result := .next (command .dec s)

/-- `DENC` (R176): acceptance; then `DOUT <- double_encrypt(K1, K2, DIN)` on private registers. -/
def execDenc (s : State) : Result := .next (command .denc s)

/-- `MITM` (R181): acceptance with the flush; then the search delivers its list through `RF`. -/
def execMitm (s : State) : Result := .next (command .mitm s)

end Sys2Proof.Machine
end

