-- ==== Sys2Proof/Machine/Dispatch.lean ====
section
/-! DEFINITION. What each instruction does: one arm per constructor of Instr. -/

namespace Sys2Proof.Machine

def exec (i : Instr) (s : State) : Host.Outcome State Fault Refusal :=
  match i with
  | .rd a => Sys2Proof.Machine.execRd a s
  | .nop => Sys2Proof.Machine.execNop s
  | .ksched => Sys2Proof.Machine.execKsched s
  | .enc => Sys2Proof.Machine.execEnc s
  | .dec => Sys2Proof.Machine.execDec s
  | .denc => Sys2Proof.Machine.execDenc s
  | .mitm => Sys2Proof.Machine.execMitm s
  | .illcmd d => Sys2Proof.Machine.execIllcmd d s
  | .pop => Sys2Proof.Machine.execPop s
  | .wrK1 d => Sys2Proof.Machine.execWrK1 d s
  | .wrK2 d => Sys2Proof.Machine.execWrK2 d s
  | .wrDin d => Sys2Proof.Machine.execWrDin d s
  | .wrP1 d => Sys2Proof.Machine.execWrP1 d s
  | .wrC1 d => Sys2Proof.Machine.execWrC1 d s
  | .wrP2 d => Sys2Proof.Machine.execWrP2 d s
  | .wrC2 d => Sys2Proof.Machine.execWrC2 d s
  | .wrRk0 d => Sys2Proof.Machine.execWrRk0 d s
  | .wrRk1 d => Sys2Proof.Machine.execWrRk1 d s
  | .wrRk2 d => Sys2Proof.Machine.execWrRk2 d s
  | .wrRk3 d => Sys2Proof.Machine.execWrRk3 d s
  | .wrRk4 d => Sys2Proof.Machine.execWrRk4 d s
  | .wrRk5 d => Sys2Proof.Machine.execWrRk5 d s
  | .wrRk6 d => Sys2Proof.Machine.execWrRk6 d s
  | .wrRk7 d => Sys2Proof.Machine.execWrRk7 d s
  | .wrRk8 d => Sys2Proof.Machine.execWrRk8 d s
  | .wrRk9 d => Sys2Proof.Machine.execWrRk9 d s
  | .wrRk10 d => Sys2Proof.Machine.execWrRk10 d s
  | .badwr a => Sys2Proof.Machine.execBadwr a s
  | .addkey p n => Sys2Proof.Machine.execAddkey p n s
  | .slayer p => Sys2Proof.Machine.execSlayer p s
  | .invslayer p => Sys2Proof.Machine.execInvslayer p s
  | .player p => Sys2Proof.Machine.execPlayer p s
  | .invplayer p => Sys2Proof.Machine.execInvplayer p s
  | .ksload p k => Sys2Proof.Machine.execKsload p k s
  | .ksupdate p n => Sys2Proof.Machine.execKsupdate p n s
  | .rkx p n => Sys2Proof.Machine.execRkx p n s
  | .encround p n => Sys2Proof.Machine.execEncround p n s
  | .decround p n => Sys2Proof.Machine.execDecround p n s
  | .gen w k => Sys2Proof.Machine.execGen w k s
  | .sort => Sys2Proof.Machine.execSort s
  | .advf => Sys2Proof.Machine.execAdvf s
  | .advb => Sys2Proof.Machine.execAdvb s
  | .emitx => Sys2Proof.Machine.execEmitx s
  | .verify v n => Sys2Proof.Machine.execVerify v n s
  | .retire => Sys2Proof.Machine.execRetire s
  | .keySchedule p k => Sys2Proof.Machine.execKeySchedule p k s
  | .encrypt p x => Sys2Proof.Machine.execEncrypt p x s
  | .decrypt p x => Sys2Proof.Machine.execDecrypt p x s
  | .doubleEncrypt => Sys2Proof.Machine.execDoubleEncrypt s

end Sys2Proof.Machine
end

