-- ==== Sys2Proof/Machine/Step.lean ====
section
/-! DEFINITION. One step of the core. -/

namespace Sys2Proof.Machine

/-- One step: the instruction `fetch` finds is executed in the state `fetch` gives; where the turn is no instruction
(reset, a sequencer move), that state is the next one. -/
def step (s : State) : Host.Outcome State Fault Refusal :=
  match fetch s with
  | (some i, t) => exec i t
  | (none, t) => .next t

/-- The transaction of a table word is the next thing that happens to the core: the host issues it (R226; log 1). -/
def State.withFetchWord (s : State) (nbits w : Nat) : State :=
  { s with agenda := .host (BitVec.ofNat 39 (w % 2 ^ nbits)) :: s.agenda }

end Sys2Proof.Machine
end

