-- ==== Sys2Proof/Machine/Script.lean ====
section
/-! DEFINITION. The host's scripts (30_encoding.md R101, R102): the accesses a line of script stands for, the
pseudo-instructions `WAIT`, `NEXT`, `DRAIN`, `LOADSCHED` with their expansions, and the two composites the spec gives. The
host is outside the core; the core sees the accesses (log 27). -/

namespace Sys2Proof.Machine

/-! ### The accesses of a script (R101) -/

/-- The word index of an operand register (R66). -/
def OperandReg.index : OperandReg → Index
  | .k1 => 0x02
  | .k2 => 0x03
  | .din => 0x04
  | .p1 => 0x06
  | .c1 => 0x07
  | .p2 => 0x08
  | .c2 => 0x09
  | .rk i => BitVec.ofNat 6 (0x10 + i.val)

/-- The names of R66, any of which `RD` takes. -/
inductive RegName where
  | cmd
  | status
  | dout
  | resk1
  | resk2
  | respop
  | operand (r : OperandReg)
  deriving DecidableEq, Repr

/-- The word index of a name (R66). -/
def RegName.index : RegName → Index
  | .cmd => 0x00
  | .status => 0x01
  | .dout => 0x05
  | .resk1 => 0x0A
  | .resk2 => 0x0B
  | .respop => 0x0C
  | .operand r => r.index

/-- The lines of a script that write: `WR <reg>, <value>`, `CMD <op>`, `POP`. -/
inductive HostWrite where
  | wr (r : OperandReg) (v : HostWord)
  | cmd (o : Op)
  | pop
  deriving DecidableEq, Repr

/-- The transaction of a line that writes (R101). -/
def HostWrite.txn : HostWrite → Txn
  | .wr r v => Sys2Proof.txn true r.index v
  | .cmd o => Sys2Proof.txn true 0x00 (o.code.setWidth 32)
  | .pop => Sys2Proof.txn true 0x0C 0

/-- The transaction of `RD <reg>` (R101). -/
def readTxn (r : RegName) : Txn := txn false r.index 0

/-- What a host does: accesses, each chosen by what its reads have returned, and at its end a result. `outOfPolls` is a
`repeat` loop that has used up the reads it was given (log 27). -/
inductive Script (α : Type) where
  | done (a : α)
  | outOfPolls
  | read (r : RegName) (k : HostWord → Script α)
  | write (w : HostWrite) (k : Script α)

/-- One script, then another that takes its result. -/
def Script.bind {α β : Type} (f : α → Script β) : Script α → Script β
  | .done a => f a
  | .outOfPolls => .outOfPolls
  | .read r k => .read r fun w => (k w).bind f
  | .write w k => .write w (k.bind f)

/-- The transactions a script issues when its reads return the given words, one after the other, and its result if it
comes to its end. -/
def Script.trace {α : Type} : Script α → List HostWord → List Txn × Option α
  | .done a, _ => ([], some a)
  | .outOfPolls, _ => ([], none)
  | .read r _, [] => ([readTxn r], none)
  | .read r k, w :: ws =>
    let rest := (k w).trace ws
    (readTxn r :: rest.1, rest.2)
  | .write w k, ws =>
    let rest := k.trace ws
    (w.txn :: rest.1, rest.2)

/-! ### The pseudo-instructions (R102) -/

/-- `s[1]`: `DONE` of a `STATUS` word (R27). -/
def doneBit (w : HostWord) : Bool := w.getLsbD 1

/-- `s[2]`: `RVALID` of a `STATUS` word (R27). -/
def rvalidBit (w : HostWord) : Bool := w.getLsbD 2

/-- `repeat { s = RD STATUS } until ...`, with at most `n` reads. -/
def pollStatus (stop : HostWord → Bool) : Nat → Script HostWord
  | 0 => .outOfPolls
  | n + 1 => .read .status fun w => if stop w then .done w else pollStatus stop n

/-- `WAIT`: poll until `DONE`. -/
def waitDone (n : Nat) : Script HostWord := pollStatus doneBit n

/-- `k1 = RD RESK1; k2 = RD RESK2; POP`. -/
def takePair : Script (Option KeyPair) :=
  .read .resk1 fun x => .read .resk2 fun y => .write .pop (.done (some ⟨low24 x, low24 y⟩))

/-- `NEXT -> (k1, k2)`: poll until `RVALID` or `DONE`; without `RVALID`, read `STATUS` once more: the list has ended if
`RVALID` is still 0, and the pair is taken if it is not (log 27). -/
def nextPair (n : Nat) : Script (Option KeyPair) :=
  (pollStatus (fun w => rvalidBit w || doneBit w) n).bind fun w =>
    if rvalidBit w then takePair
    else .read .status fun v => if rvalidBit v then takePair else .done none

/-- `DRAIN -> list`: `NEXT` repeated until the list has ended, at most `m` times; the pairs in the order obtained. -/
def drain (n : Nat) : Nat → Script (List KeyPair)
  | 0 => .outOfPolls
  | m + 1 => (nextPair n).bind fun
    | none => .done []
    | some r => (drain n m).bind fun rs => .done (r :: rs)

/-- `LOADSCHED <k>`: `WR K1, <k>; CMD KSCHED; WAIT`. -/
def loadSched (n : Nat) (k : HostWord) : Script HostWord := .write (.wr .k1 k) (.write (.cmd .ksched) (waitDone n))

/-- `WR DIN, x; CMD ENC; WAIT; RD DOUT`. -/
def encryptBlock (n : Nat) (x : HostWord) : Script HostWord :=
  .write (.wr .din x) (.write (.cmd .enc) ((waitDone n).bind fun _ => .read .dout .done))

/-- The composite of R102 and R178 that `DENC` is equal to: encryption under `k1`, then of the result under `k2`. -/
def cascadeByParts (n : Nat) (k1 k2 p : HostWord) : Script HostWord :=
  (loadSched n k1).bind fun _ => (encryptBlock n p).bind fun t => (loadSched n k2).bind fun _ => encryptBlock n t

/-- DOC's call as a script (R228): the four operands, `CMD MITM`, `DRAIN`. -/
def attack (n m : Nat) (x1 y1 x2 y2 : HostWord) : Script (List KeyPair) :=
  .write (.wr .p1 x1) (.write (.wr .c1 y1) (.write (.wr .p2 x2) (.write (.wr .c2 y2) (.write (.cmd .mitm) (drain n m)))))

end Sys2Proof.Machine
end

