-- ==== Sys2Proof/Safety.lean ====
section
/-! DEFINITION. What claims about runs of the core are stated in: the invariants of its state, the result a short command
is heading for, the list of pairs the host is still owed, whose turn it is, and the runs of a host's script. -/

namespace Sys2Proof.Machine

open Sys2Proof.Config

/-! ### Invariants -/

/-- The invariants R27 states of the flags, and R33's place of `OP`: `MITM` is the command of phases GEN, SORT, JOIN and
of no other. -/
structure StatusInv (s : State) : Prop where
  busy_iff : s.busy = true ↔ s.phase ≠ .idle
  not_both : ¬(s.busy = true ∧ s.done = true)
  err_iff : s.err = true ↔ s.cause ≠ .noCause
  short_op : s.phase = .short → s.op ≠ .mitm
  search_op : s.phase = .gen ∨ s.phase = .sort ∨ s.phase = .join → s.op = .mitm

/-- The capacities of R28 and R34, and one register set per worker and per lane (R31). -/
structure CapacityInv (s : State) : Prop where
  rf_le : s.rf.length ≤ s.params.fifoDepth
  vq_le : s.vq.length ≤ s.params.lanes
  workers_eq : s.workers.length = s.params.workers
  lanes_eq : s.lanes.length = s.params.lanes

/-- The canonical forms: both table memories, and the marked keys strictly rising and below `N`. -/
structure CanonInv (s : State) : Prop where
  tf_wf : Memory.wf s.tf
  tb_wf : Memory.wf s.tb
  gdone_rising : s.gdone.Pairwise (· < ·)
  gdone_lt : ∀ k ∈ s.gdone, k < s.params.n

/-- The ranges of R33 and R36: the cursors run from 0 to `N` and never pass it, and inside an emission `A` and `B` are in
their runs. -/
structure CursorInv (s : State) : Prop where
  i_le : s.i ≤ s.params.n
  j_le : s.j ≤ s.params.n
  ie_le : s.ie ≤ s.params.n
  je_le : s.je ≤ s.params.n
  inside : emitting s = true → s.i ≤ s.a ∧ s.a < s.ie ∧ s.j ≤ s.b ∧ s.b < s.je

/-! ### Words claims are stated in -/

/-- The values R39 and R270 give after reset. -/
structure ResetValues (s : State) : Prop where
  k1 : s.k1 = 0
  k2 : s.k2 = 0
  din : s.din = 0
  dout : s.dout = 0
  p1 : s.p1 = 0
  c1 : s.c1 = 0
  p2 : s.p2 = 0
  c2 : s.c2 = 0
  rk : ∀ n : Fin 11, s.rk[n] = 0
  busy : s.busy = false
  done : s.done = false
  err : s.err = false
  cause : s.cause = .noCause
  phase : s.phase = .idle
  status : statusWord s = 0
  rf : s.rf = []
  vq : s.vq = []
  op : s.op = .nop
  gdone : s.gdone = []
  cursors : s.i = 0 ∧ s.j = 0 ∧ s.ie = 0 ∧ s.je = 0 ∧ s.a = 0 ∧ s.b = 0
  jend : s.jend = false
  scratch : s.kreg = 0 ∧ s.cst = 0 ∧ s.denc1 = CipherRegs.zero ∧ s.denc2 = CipherRegs.zero
  workers : s.workers = List.replicate s.params.workers CipherRegs.zero
  lanes : s.lanes = List.replicate s.params.lanes CipherRegs.zero

/-- Two states differ at most in the cipher registers of one datapath. -/
def OnlyRegs (p : Datapath) (s t : State) : Prop :=
  t = { s with kreg := t.kreg, rk := t.rk, cst := t.cst, denc1 := t.denc1, denc2 := t.denc2 } ∧
    ∀ q, q ≠ p → cipherRegs t q = cipherRegs s q

/-- `y` is one past the run of equal values that stands at index `x` of a table (R191). -/
structure IsRunEnd (s : State) (t : Side) (x y : Nat) : Prop where
  lt : x < y
  le : y ≤ s.params.n
  same : ∀ z, x ≤ z → z < y → entryValue (memRead s t z) = entryValue (memRead s t x)
  stop : y < s.params.n → entryValue (memRead s t y) ≠ entryValue (memRead s t x)

/-! ### What a short command is heading for -/

/-- A micro-step done at once, on the registers it names. -/
def runMicro (s : State) : MicroStep → State
  | .op i => match exec i s with
    | .next t => t
    | .fault _ => s
    | .refused _ => s
  | .loadState => { s with cst := s.din }
  | .storeDout p => { s with dout := (cipherRegs s p).st }

/-- `RK` and `DOUT` as the running short command will leave them: its remaining micro-steps done. -/
def shortResult (s : State) : Schedule × Block :=
  let t := ((microProgram s.op).drop s.upc).foldl runMicro s
  (t.rk, t.dout)

/-- The functional level of R145, R160, R161, R176, R223: what a short command accepted in `s` leaves in `RK` and
`DOUT`. -/
def shortEffect (o : Op) (s : State) : Schedule × Block :=
  let T := s.params.tables
  match o with
  | .ksched => (keySchedule T s.k1, s.dout)
  | .enc => (s.rk, encrypt T s.rk s.din)
  | .dec => (s.rk, decrypt T s.rk s.din)
  | .denc => (s.rk, doubleEncrypt T s.k1 s.k2 s.din)
  | .nop => (s.rk, s.dout)
  | .mitm => (s.rk, s.dout)

/-! ### What a search still owes the host -/

/-- A table memory holds the entries of a list at indices 0, 1, .... -/
def holds (m : Memory) (l : List Entry) : Prop := ∀ x, x < l.length → Memory.lookup m x = l[x]?

/-- Entries `x` to `y - 1` of a list. -/
def slice (l : List Entry) (x y : Nat) : List Entry := (l.drop x).take (y - x)

/-- The join candidates the join unit has still to emit (R188 to R193): inside an emission, the rest of the cross product
and then the join of what lies past the two runs. -/
def joinRest (s : State) : List KeyPair :=
  let F := tableEntries s .fwd
  let B := tableEntries s .bwd
  if s.jend then []
  else if emitting s then
    crossProduct (slice F s.a (s.a + 1)) (slice B s.b s.je) ++ crossProduct (slice F (s.a + 1) s.ie) (slice B s.j s.je) ++
      join (F.drop s.ie) (B.drop s.je)
  else join (F.drop s.i) (B.drop s.j)

/-- The pairs of a search that the host has still to get, in order (R180, R199): what is in `RF`, then what is on the way
through `VQ` and the join, or the whole list while the tables are being made. -/
def owed (s : State) : List KeyPair :=
  let pass := verifies s.params.tables s.p2 s.c2
  s.rf ++
    match s.phase with
    | .gen => searchResult s.params s.p1 s.c1 s.p2 s.c2
    | .sort => searchResult s.params s.p1 s.c1 s.p2 s.c2
    | .join => ((s.vq.map QueueEntry.pair).filter pass) ++ (joinRest s).filter pass
    | .idle => []
    | .short => []

/-- The join has not begun: what acceptance of `MITM` leaves (R181) and R188 finds. -/
structure NotBegun (s : State) : Prop where
  rf_nil : s.rf = []
  vq_nil : s.vq = []
  i_zero : s.i = 0
  j_zero : s.j = 0
  ie_zero : s.ie = 0
  je_zero : s.je = 0
  jend_false : s.jend = false

/-- Phase GEN: every marked key has its two entries (R182, R185). -/
structure GenInv (s : State) : Prop where
  begun : NotBegun s
  rising : s.gdone.Pairwise (· < ·)
  written : ∀ k ∈ s.gdone, k < s.params.n ∧
    Memory.lookup s.tf k = some (forwardEntry s.params.tables s.p1 (BitVec.ofNat 24 k)) ∧
    Memory.lookup s.tb k = some (backwardEntry s.params.tables s.c1 (BitVec.ofNat 24 k))

/-- Phase SORT: each table holds the generated entries, in some arrangement (R183, R187). -/
structure SortInv (s : State) : Prop where
  begun : NotBegun s
  fwd : ∃ l, l.Perm ((keySpace s.params).map (forwardEntry s.params.tables s.p1)) ∧ holds s.tf l
  bwd : ∃ l, l.Perm ((keySpace s.params).map (backwardEntry s.params.tables s.c1)) ∧ holds s.tb l

/-- Phase JOIN: the tables are the sorted ones (R186), an emission is on two equal runs (R191), the verdicts are those
of R197, and `JEND` means that a table is used up (R192). -/
structure JoinInv (s : State) : Prop where
  fwd : holds s.tf (forwardTable s.params s.p1)
  bwd : holds s.tb (backwardTable s.params s.c1)
  cursors : CursorInv s
  run : emitting s = true → valueF s = valueB s ∧
    s.ie = runEnd (memRead s .fwd) (valueF s) (s.params.n - s.i) s.i ∧
    s.je = runEnd (memRead s .bwd) (valueF s) (s.params.n - s.j) s.j
  verdicts : ∀ e ∈ s.vq, e.verdict ≠ .pending → e.verdict = verdictOf s e.pair
  ended : s.jend = true → emitting s = false ∧ (s.params.n ≤ s.i ∨ s.params.n ≤ s.j)

/-- What a search has done so far, phase by phase. -/
def SearchInv (s : State) : Prop :=
  match s.phase with
  | .idle => True
  | .short => True
  | .gen => GenInv s
  | .sort => SortInv s
  | .join => JoinInv s

/-- What is left to do for a running command when nothing is scheduled and `RF` has room (R205, R290): it goes down with
every turn. -/
def workLeft (s : State) : Nat :=
  let p := s.params
  let start := 2 * p.n + 3 * (join (forwardTable p s.p1) (backwardTable p s.c1)).length + 2
  match s.phase with
  | .idle => 0
  | .short => (microProgram s.op).length - s.upc + 1
  | .gen => start + 3 + (p.n - nextKey 0 s.gdone)
  | .sort => start + (if tablesSorted s then 1 else 2)
  | .join =>
    (s.vq.map fun e => if e.verdict = .pending then 2 else 1).sum +
      (if s.jend then 1 else 2 + (p.n - s.i) + (p.n - s.j) + 3 * (joinRest s).length)

/-! ### Whose turn it is, and the runs of a script -/

/-- The next step is the turn of agent `g`: it is scheduled, or nothing is and it is the default agent (log 1, 2). -/
def moves (s : State) (g : Agent) : Prop :=
  (∃ rest, s.agenda = .agent g :: rest) ∨ (s.agenda = [] ∧ defaultAgent s = g)

/-- The host's access takes effect (R72). -/
def issue (w : Txn) (s : State) : Result := step { s with agenda := [.host w] }

/-- Some turns of the core's own agents, in any order (R248), none at all among them. -/
inductive Turns (s : State) : State → Prop where
  | none : Turns s s
  | more (g : Agent) {t u : State} (h : Turns s t) (hu : step { t with agenda := [.agent g] } = .next u) : Turns s u

/-- The host runs a script from `s`, gets the result `a`, and leaves the core in `t`: before each access the core's agents
move as they will, and nothing else reaches the core (R226; log 27). -/
def Runs {α : Type} : Script α → State → α → State → Prop
  | .done x, s, a, t => a = x ∧ t = s
  | .outOfPolls, _, _, _ => False
  | .read r k, s, a, t => ∃ m u, Turns s m ∧ issue (readTxn r) m = .next u ∧ Runs (k u.rdata) u a t
  | .write w k, s, a, t => ∃ m u, Turns s m ∧ issue w.txn m = .next u ∧ Runs k u a t

end Sys2Proof.Machine
end

