-- ==== Sys2Proof/Certificates/Slice0/Obligations.lean ====
section
/-! DEFINITION. The statements for the provers, from the numbered rules of spec/. Listed in OBLIGATIONS.json. -/

open Sys2Proof Sys2Proof.Machine Sys2Proof.Config

/-! ### Encoding (30_encoding.md) -/

/-- Every instruction with a word: decoding the word gives the instruction, every operand at every value (R90 to R92,
R100). -/
def Obligations.DecodingAnEncodedInstructionGivesItBack : Prop :=
  ∀ (i : Instr) (t : Txn), i.wellFormed = true → encode i = some t → decode t = i

/-- R98 c, R100, R103: decoding is total, its result is well-formed, and it is never a micro-operation or a function. -/
def Obligations.EveryTransactionDecodesToAHostAccess : Prop :=
  ∀ t : Txn, (decode t).wellFormed = true ∧ (encode (decode t)).isSome = true ∧
    (txnRw t = false → decode t = .rd (txnIndex t))

/-- R100: the decoder gives the first row of the opcode table that matches, on all 2^39 transactions. -/
def Obligations.DecodingTakesTheFirstMatchingRow : Prop := ∀ t : Txn, firstMatch t = some (mnemonic (decode t))

/-- Words of 95_test_vectors.md sections 7 and 8, written out there, decode to what their lines say. -/
def Obligations.WordsOfTheSpecDecodeAsItsLinesSay : Prop :=
  decode 0x0100000000 = .rd 0x01 ∧ decode 0x44ABF955B9 = .wrDin 0xABF955B9 ∧ decode 0x4000000007 = .illcmd 7 ∧
    decode 0x4000000012 = .illcmd 0x12 ∧ decode 0x4100000000 = .badwr 0x01 ∧ decode 0x6000000005 = .badwr 0x20 ∧
    decode 0x4000000000 = .nop ∧ decode 0x4C00000000 = .pop ∧ decode 0x4000000002 = .enc ∧
    decode 0x4200000001 = .wrK1 1 ∧ decode 0x4000000005 = .mitm ∧ decode 0x5A00BBBBBB = .wrRk10 0xBBBBBB

/-! ### Steps (20_memory.md R72; 60_exceptions.md R248; 70_reset_and_hazards.md R270) -/

/-- A host access at the head of the agenda is decoded, is well-formed, and the step is its execution (R72, R226). The
agenda is the model's (log 1). -/
def Obligations.AStepRunsTheDecodedTransaction : Prop :=
  ∀ (s : State) (w : Txn) (rest : List Event), s.agenda = .host w :: rest →
    (decode w).wellFormed = true ∧ step s = exec (decode w) { s with agenda := rest }

/-- The turns of the core's agents (R248): each runs its own micro-operation, the datapath the next micro-step of the
running command; with nothing scheduled the default agent moves (model's choice, log 1, 2, 11). -/
def Obligations.AnAgentsTurnRunsItsMicroOperation : Prop :=
  ∀ (s : State) (rest : List Event),
    (∀ w k, s.agenda = .agent (.worker w k) :: rest → step s = exec (.gen w k) { s with agenda := rest }) ∧
    (s.agenda = .agent .sorter :: rest → step s = exec .sort { s with agenda := rest }) ∧
    (∀ v n, s.agenda = .agent (.lane v n) :: rest → step s = exec (.verify v n) { s with agenda := rest }) ∧
    (s.agenda = .agent .retirement :: rest → step s = exec .retire { s with agenda := rest }) ∧
    (∀ m, s.agenda = .agent .datapath :: rest → s.phase = .short → (microProgram s.op)[s.upc]? = some m →
      step s = .next (runMicro { s with agenda := rest, upc := s.upc + 1 } m)) ∧
    (s.agenda = [] → step s = step { s with agenda := [.agent (defaultAgent s)] })

/-- What the join unit's turn is. R188: outside an emission, with both cursors below `N`, it takes `ADVF`, `ADVB` or
`EMITX` as the value at `I` is less than, greater than or equal to the one at `J`; R192: with a cursor at `N` it sets
`JEND`; R191: inside an emission it is `EMITX`, whatever the cursors' values, and nothing else. -/
def Obligations.TheJoinUnitComparesValuesOnly : Prop :=
  ∀ (s : State) (rest : List Event), s.agenda = .agent .join :: rest → s.phase = .join → s.jend = false →
    let u := { s with agenda := rest }
    let vf := entryValue (memRead s .fwd s.i)
    let vb := entryValue (memRead s .bwd s.j)
    (emitting s = true → step s = exec .emitx u) ∧
    (emitting s = false →
      (s.params.n ≤ s.i ∨ s.params.n ≤ s.j → step s = .next { u with jend := true }) ∧
      (s.i < s.params.n → s.j < s.params.n →
        (vf < vb → step s = .next { u with i := s.i + 1 }) ∧
        (vb < vf → step s = .next { u with j := s.j + 1 }) ∧
        (vf = vb → step s = exec .emitx u)))

/-- R270, R271: reset at any time gives every piece of state its value of R39, whatever ran before. -/
def Obligations.ResetAtAnyTimeGivesTheResetValues : Prop :=
  ∀ (s : State) (rest : List Event), s.agenda = .reset :: rest →
    ∃ t, step s = .next t ∧ ResetValues t ∧ t.params = s.params ∧ t.agenda = rest

/-- R39: the machine right after reset, with `KBITS = 24` (R6). -/
def Obligations.TheResetStateHoldsTheResetValues : Prop :=
  ResetValues State.reset ∧ State.reset.params.kbits = 24 ∧ State.reset.params.Ok

/-- The invariants below hold right after reset. -/
def Obligations.TheInvariantsHoldAfterReset : Prop :=
  StatusInv State.reset ∧ CapacityInv State.reset ∧ CanonInv State.reset ∧ CursorInv State.reset ∧
    SearchInv State.reset

/-- R240: no step of the core faults or is refused; an accepted command cannot fail. -/
def Obligations.NoStepFails : Prop := ∀ s : State, ∃ t, step s = .next t

/-! ### The cipher (40_layers.md to 43_cascade.md), for any tables that meet R20 and R21 -/

/-- R20, R21, R121, R123: the literal tables are mutual inverses and bit 23 is a fixed point, both ways. -/
def Obligations.TheLiteralTablesAreMutualInverses : Prop :=
  present24.Ok ∧ (∀ j : Fin 24, present24.perm[present24.invperm[j]] = j) ∧ present24.invperm[23] = 23

/-- R129: the layers undo each other, and the permutation layers keep bit 23. -/
def Obligations.TheLayersUndoEachOther : Prop :=
  ∀ (T : Tables) (s : Block), T.Ok →
    invSLayer T (sLayer T s) = s ∧ sLayer T (invSLayer T s) = s ∧ invPLayer T (pLayer T s) = s ∧
      pLayer T (invPLayer T s) = s ∧ (pLayer T s).getLsbD 23 = s.getLsbD 23 ∧
      (invPLayer T s).getLsbD 23 = s.getLsbD 23

/-- R125 to R128: each nibble goes through the table on its own; bit `i` goes to bit `PERM[i]`, and back. -/
def Obligations.LayersWorkNibbleByNibbleAndBitByBit : Prop :=
  ∀ (T : Tables) (s : Block), T.Ok →
    (∀ j : Fin 6, (sLayer T s).extractLsb' (4 * j.val) 4 = T.sbox[(s.extractLsb' (4 * j.val) 4).toFin] ∧
      (invSLayer T s).extractLsb' (4 * j.val) 4 = T.invsbox[(s.extractLsb' (4 * j.val) 4).toFin]) ∧
    (∀ n : Fin 24, (pLayer T s).getLsbD T.perm[n].val = s.getLsbD n.val ∧
      (invPLayer T s).getLsbD n.val = s.getLsbD T.perm[n].val)

/-- Round key 0 is zero for every master key; so the first round of encryption and the last of decryption are unkeyed.
This is the reading R144 itself chooses (decision D10) of an ambiguous sentence, and log 10 names it (DEDUCED). -/
def Obligations.RoundKeyZeroIsZero : Prop :=
  ∀ (T : Tables) (k s : Block),
    (keySchedule T k)[0] = 0 ∧ rkx (ksLoad k) = 0 ∧ addKey s (keySchedule T k)[0] = s ∧
      encRound T s (keySchedule T k)[0] = pLayer T (sLayer T s) ∧
      decRound T s (keySchedule T k)[0] = invSLayer T (invPLayer T s)

/-- R148: where the master key sits in the register after updates 1, 2 and 3 (the counters of updates 2 and 3 are at bits
16 and 15), and the first round keys in terms of it; two keys never have the same whole schedule; the register after
the first update where `SBOX[0] = 0xC`. -/
def Obligations.TheFirstRoundKeysDetermineTheKey : Prop :=
  ∀ T : Tables,
    (∀ k : Block,
      (keyRegAfter T k 1).extractLsb' 37 24 = k ∧ ((ksLoad k).rotateLeft 61).extractLsb' 76 4 = 0 ∧
      (keyRegAfter T k 2).extractLsb' 18 24 = k ∧
      (keyRegAfter T k 3).extractLsb' 0 23 = k.extractLsb' 1 23 ^^^ 0x18000 ∧
      (keySchedule T k)[1] = (k &&& 7) <<< 21 ∧
      (keySchedule T k)[2].extractLsb' 2 22 = k.extractLsb' 0 22 ∧ (keySchedule T k)[2].extractLsb' 0 2 = 1 ∧
      (keySchedule T k)[3].extractLsb' 0 7 = k.extractLsb' 17 7 ^^^ 1) ∧
    (∀ k k' : Block, keySchedule T k = keySchedule T k' → k = k') ∧
    (sbox T 0 = 0xC → ∀ k : Block,
      keyRegAfter T k 1 = (0xC : KeyReg) <<< 76 ||| k.setWidth 80 <<< 37 ||| 0x8000)

/-- R159, R163: for any schedule, decryption and encryption undo each other, both ways. -/
def Obligations.EncryptAndDecryptUndoEachOther : Prop :=
  ∀ (T : Tables) (rk : Schedule) (x : Block), T.Ok →
    decrypt T rk (encrypt T rk x) = x ∧ encrypt T rk (decrypt T rk x) = x

/-- R177: the meet-in-the-middle identity, both directions. -/
def Obligations.TheCascadeMeetsInTheMiddle : Prop :=
  ∀ (T : Tables) (k1 k2 x y : Block), T.Ok →
    (doubleEncrypt T k1 k2 x = y ↔ encrypt T (keySchedule T k1) x = decrypt T (keySchedule T k2) y)

/-! ### Host accesses (45_host_interface.md, 60_exceptions.md) -/

/-- R220, R65, R67: what a read returns, index by index, where R225 leaves nothing open; nothing but the word on the bus
(`rdata`, the model's, log 4) changes. -/
def Obligations.AReadReturnsTheWordOfItsIndex : Prop :=
  ∀ s : State, ∃ word : Index → HostWord,
    (∀ x, ¬(s.busy = true ∧ (x = 0x05 ∨ (0x10 ≤ x ∧ x ≤ 0x1A))) → exec (.rd x) s = .next { s with rdata := word x }) ∧
    word 0x01 = statusWord s ∧ word 0x02 = s.k1.setWidth 32 ∧ word 0x03 = s.k2.setWidth 32 ∧
    word 0x04 = s.din.setWidth 32 ∧ word 0x05 = s.dout.setWidth 32 ∧ word 0x06 = s.p1.setWidth 32 ∧
    word 0x07 = s.c1.setWidth 32 ∧ word 0x08 = s.p2.setWidth 32 ∧ word 0x09 = s.c2.setWidth 32 ∧
    (s.rf = [] → word 0x0A = 0 ∧ word 0x0B = 0) ∧
    (∀ r q, s.rf = r :: q → word 0x0A = r.key1.setWidth 32 ∧ word 0x0B = r.key2.setWidth 32) ∧
    (∀ n : Fin 11, word (BitVec.ofNat 6 (0x10 + n.val)) = s.rk[n].setWidth 32) ∧
    (∀ x, x = 0x00 ∨ x = 0x0C ∨ (0x0D ≤ x ∧ x ≤ 0x0F) ∨ 0x1B ≤ x → word x = 0)

/-- R225: while a command runs, a read of `DOUT` or `RK[i]` returns some word with bits 31..24 zero, and changes nothing
but the word on the bus and the count of free values (the model's, log 4, 5). -/
def Obligations.AReadOfAResultWhileBusyIsAnyBlock : Prop :=
  ∀ (s : State) (x : Index), s.busy = true → x = 0x05 ∨ (0x10 ≤ x ∧ x ≤ 0x1A) →
    ∃ v : Block, exec (.rd x) s = .next { s with rdata := v.setWidth 32, draws := s.draws + 1 } ∧
      (v.setWidth 32 : HostWord).extractLsb' 24 8 = 0

/-- R221, R37: with no command running, a write stores bits 23..0 in the register and changes nothing else. -/
def Obligations.AnOperandWriteStoresTheLow24Bits : Prop :=
  ∀ (s : State) (d : HostWord), s.busy = false →
    exec (.wrK1 d) s = .next { s with k1 := d.extractLsb' 0 24 } ∧
    exec (.wrK2 d) s = .next { s with k2 := d.extractLsb' 0 24 } ∧
    exec (.wrDin d) s = .next { s with din := d.extractLsb' 0 24 } ∧
    exec (.wrP1 d) s = .next { s with p1 := d.extractLsb' 0 24 } ∧
    exec (.wrC1 d) s = .next { s with c1 := d.extractLsb' 0 24 } ∧
    exec (.wrP2 d) s = .next { s with p2 := d.extractLsb' 0 24 } ∧
    exec (.wrC2 d) s = .next { s with c2 := d.extractLsb' 0 24 } ∧
    exec (.wrRk0 d) s = .next { s with rk := s.rk.set 0 (d.extractLsb' 0 24) } ∧
    exec (.wrRk1 d) s = .next { s with rk := s.rk.set 1 (d.extractLsb' 0 24) } ∧
    exec (.wrRk2 d) s = .next { s with rk := s.rk.set 2 (d.extractLsb' 0 24) } ∧
    exec (.wrRk3 d) s = .next { s with rk := s.rk.set 3 (d.extractLsb' 0 24) } ∧
    exec (.wrRk4 d) s = .next { s with rk := s.rk.set 4 (d.extractLsb' 0 24) } ∧
    exec (.wrRk5 d) s = .next { s with rk := s.rk.set 5 (d.extractLsb' 0 24) } ∧
    exec (.wrRk6 d) s = .next { s with rk := s.rk.set 6 (d.extractLsb' 0 24) } ∧
    exec (.wrRk7 d) s = .next { s with rk := s.rk.set 7 (d.extractLsb' 0 24) } ∧
    exec (.wrRk8 d) s = .next { s with rk := s.rk.set 8 (d.extractLsb' 0 24) } ∧
    exec (.wrRk9 d) s = .next { s with rk := s.rk.set 9 (d.extractLsb' 0 24) } ∧
    exec (.wrRk10 d) s = .next { s with rk := s.rk.set 10 (d.extractLsb' 0 24) }

/-- R241, R221, R222, R244: while a command runs, a command word or an operand write changes nothing but `ERR <- 1` and
`CAUSE <- 2`. -/
def Obligations.WritesWhileBusyAreRefused : Prop :=
  ∀ (s : State) (d : HostWord), s.busy = true →
    ∀ i ∈ [Instr.nop, .ksched, .enc, .dec, .denc, .mitm, .wrK1 d, .wrK2 d, .wrDin d, .wrP1 d, .wrC1 d, .wrP2 d, .wrC2 d,
      .wrRk0 d, .wrRk1 d, .wrRk2 d, .wrRk3 d, .wrRk4 d, .wrRk5 d, .wrRk6 d, .wrRk7 d, .wrRk8 d, .wrRk9 d, .wrRk10 d],
      exec i s = .next { s with err := true, cause := .busywr }

/-- R241, R243, R98, R67: an illegal command word is refused with cause 1 and a write to an unmapped or read-only index
with cause 3, whether or not a command runs; nothing else changes (R244). -/
def Obligations.MalformedWritesAreRefusedBusyOrNot : Prop :=
  ∀ (s : State) (d : HostWord) (x : Index),
    exec (.illcmd d) s = .next { s with err := true, cause := .illcmd } ∧
    exec (.badwr x) s = .next { s with err := true, cause := .badacc }

/-- R222: a command is accepted if and only if `BUSY = 0`, with these assignments (for `MITM` with the flush of R181); else
it is refused BUSYWR and nothing else changes. The place in the short command's micro-steps is the model's (log 11) and
is left open. -/
def Obligations.CommandsAreAcceptedExactlyWhenReady : Prop :=
  ∀ s : State,
    (s.busy = false →
      (∀ io ∈ [(Instr.nop, Op.nop), (.ksched, .ksched), (.enc, .enc), (.dec, .dec), (.denc, .denc)],
        ∃ n, exec io.1 s = .next { s with op := io.2, busy := true, done := false, err := false, cause := .noCause,
                                          phase := .short, upc := n }) ∧
      ∃ n, exec .mitm s =
        .next { flush s with op := .mitm, busy := true, done := false, err := false, cause := .noCause, phase := .gen,
                             upc := n }) ∧
    (s.busy = true → ∀ i ∈ [Instr.nop, .ksched, .enc, .dec, .denc, .mitm],
      exec i s = .next { s with err := true, cause := .busywr })

/-- R181: acceptance of `MITM` discards old results, the verification queue and the sequencing state, and starts
generation; no other register changes. The word `0x00000005` at index 0x00 is `MITM`. -/
def Obligations.MitmIsAcceptedWithAFlush : Prop :=
  decode (txn true 0x00 0x00000005) = .mitm ∧
  ∀ s : State, s.busy = false →
    ∃ n, exec .mitm s =
      .next { s with op := .mitm, busy := true, done := false, err := false, cause := .noCause, phase := .gen, upc := n,
                     rf := [], vq := [], gdone := [], i := 0, j := 0, ie := 0, je := 0, a := 0, b := 0, jend := false }

/-- R224: a write of any word to index 0x0C drops the head of `RF`, busy or not, and nothing else changes; on an empty `RF`
nothing happens. `RVALID` says whether `RF` is not empty. -/
def Obligations.PopRemovesTheHead : Prop :=
  (∀ d : HostWord, decode (txn true 0x0C d) = .pop) ∧
  ∀ s : State, ((statusWord s).getLsbD 2 = true ↔ 0 < s.rf.length) ∧
    (∀ r q, s.rf = r :: q → exec .pop s = .next { s with rf := q }) ∧ (s.rf = [] → exec .pop s = .next s)

/-- R27: the fields of `STATUS`. -/
def Obligations.StatusHasTheFieldsOfItsTable : Prop :=
  ∀ s : State,
    let w := statusWord s
    w.getLsbD 0 = s.busy ∧ w.getLsbD 1 = s.done ∧ (w.getLsbD 2 = true ↔ s.rf ≠ []) ∧ w.getLsbD 3 = s.err ∧
    w.extractLsb' 4 3 = (match s.phase with
      | .idle => 0
      | .short => 1
      | .gen => 2
      | .sort => 3
      | .join => 4) ∧
    w.getLsbD 7 = false ∧
    w.extractLsb' 8 2 = (match s.cause with
      | .noCause => 0
      | .illcmd => 1
      | .busywr => 2
      | .badacc => 3) ∧
    w.extractLsb' 10 22 = 0

/-! ### Whole-machine rules -/

/-- R27: `BUSY` and `DONE` are never both 1, `BUSY = 1` exactly when `PHASE != 0`, `ERR = 1` exactly when `CAUSE != 0`;
kept by every step. -/
def Obligations.EveryStepKeepsTheStatusInvariants : Prop :=
  ∀ s t : State, StatusInv s → step s = .next t → StatusInv t

/-- R28, R34, R199: `RF` and `VQ` never exceed their capacities; kept by every step. -/
def Obligations.EveryStepKeepsTheCapacities : Prop :=
  ∀ s t : State, CapacityInv s → step s = .next t → CapacityInv t ∧ t.params = s.params

/-- The table memories stay in canonical form and the marked keys rising and below `N` (log 7, 15); kept by every
step. -/
def Obligations.EveryStepKeepsTheCanonicalForms : Prop :=
  ∀ s t : State, CanonInv s → step s = .next t → CanonInv t

/-- R33, R36, R278: the cursors run from 0 to `N` and never pass it; kept by every step. -/
def Obligations.EveryStepKeepsTheCursorsInRange : Prop :=
  ∀ s t : State, CursorInv s → step s = .next t → CursorInv t

/-- R72, R25, R23, R31: while a command runs, no step but reset changes the operand registers; only `KSCHED` changes
`RK`, only `ENC`, `DEC` and `DENC` change `DOUT`. -/
def Obligations.ARunningCommandKeepsItsOperands : Prop :=
  ∀ s t : State, s.busy = true → step s = .next t → (∀ rest, s.agenda ≠ .reset :: rest) →
    (t.k1 = s.k1 ∧ t.k2 = s.k2 ∧ t.din = s.din ∧ t.p1 = s.p1 ∧ t.c1 = s.c1 ∧ t.p2 = s.p2 ∧ t.c2 = s.c2) ∧
    (s.op ≠ .ksched → t.rk = s.rk) ∧
    (s.op = .nop ∨ s.op = .ksched ∨ s.op = .mitm → t.dout = s.dout)

/-- R64, R280, R199: the head of `RF` changes only by a pop, an accepted `MITM` or reset; every other step leaves what is
in `RF` in its order and adds at the back. -/
def Obligations.TheHeadOfTheResultFifoIsStable : Prop :=
  ∀ s t : State, step s = .next t → (∀ rest, s.agenda ≠ .reset :: rest) →
    (∀ w rest, s.agenda = .host w :: rest → decode w ≠ .pop ∧ (decode w = .mitm → s.busy = true)) →
    ∃ q, t.rf = s.rf ++ q

/-- R68, R70: a step leaves both table memories as they are unless it is an enabled `GEN`, an enabled `SORT`, the
completion of `MITM` (from when on R68 leaves the contents open, log 6), or reset. So no host access writes one, in
whatever phase, and none changes in the join phase while the search goes on. -/
def Obligations.OnlyGenerationAndSortingWriteTheTables : Prop :=
  ∀ s t : State, step s = .next t → (∀ rest, s.agenda ≠ .reset :: rest) →
    (∀ w k, moves s (.worker w k) →
      ¬(s.phase = .gen ∧ w < s.params.workers ∧ k.toNat < s.params.n ∧ k.toNat ∉ s.gdone)) →
    ¬(moves s .sorter ∧ s.phase = .sort) →
    ¬(moves s .sequencer ∧ s.phase = .join ∧ s.jend = true ∧ s.vq = []) →
    t.tf = s.tf ∧ t.tb = s.tb

/-- R241, R245: a step other than reset leaves `ERR` and `CAUSE` as they are, unless it is a host write that is an accepted
command, which clears both, or a refused one, which sets both: a word that is no command, a write to an unmapped or
read-only index, or, while a command runs, any write but a pop. So no read, pop, accepted operand write or agent's turn
changes them, and once set `ERR` stays until a command is accepted or reset. -/
def Obligations.ErrIsStickyAndOnlyHostWritesSetIt : Prop :=
  ∀ s t : State, step s = .next t → (∀ rest, s.agenda ≠ .reset :: rest) →
    (t.err = s.err ∧ t.cause = s.cause) ∨
    ∃ w rest, s.agenda = .host w :: rest ∧ txnRw w = true ∧ decode w ≠ .pop ∧
      ((s.busy = false ∧ decode w ∈ [Instr.nop, .ksched, .enc, .dec, .denc, .mitm] ∧
          t.err = false ∧ t.cause = .noCause) ∨
        ((s.busy = true ∨ (∃ d, decode w = .illcmd d) ∨ ∃ x, decode w = .badwr x) ∧
          t.err = true ∧ t.cause ≠ .noCause))

/-! ### The short commands, from acceptance to completion -/

/-- R145: `KSCHED` leaves `RK = key_schedule(K1)`, completes, and changes no other host-visible register (23 turns of the
default agent; log 2, 11). -/
def Obligations.KschedLoadsTheSchedule : Prop :=
  ∀ s : State, s.busy = false → s.agenda = [] →
    ∃ t u, exec .ksched s = .next t ∧ Host.Core.run core 23 t = .next u ∧
      u.rk = keySchedule s.params.tables s.k1 ∧
      u = { s with rk := u.rk, kreg := u.kreg, cst := u.cst, denc1 := u.denc1, denc2 := u.denc2, op := .ksched,
                   upc := u.upc, busy := false, done := true, err := false, cause := .noCause, phase := .idle }

/-- R160, R161: `ENC` leaves `DOUT = encrypt(RK, DIN)` and `DEC` leaves `DOUT = decrypt(RK, DIN)`; they complete and
change no other host-visible register (14 turns of the default agent; log 2, 11). -/
def Obligations.EncAndDecWriteDout : Prop :=
  ∀ s : State, s.busy = false → s.agenda = [] →
    (∃ t u, exec .enc s = .next t ∧ Host.Core.run core 14 t = .next u ∧
      u.dout = encrypt s.params.tables s.rk s.din ∧
      u = { s with dout := u.dout, kreg := u.kreg, cst := u.cst, denc1 := u.denc1, denc2 := u.denc2, op := .enc,
                   upc := u.upc, busy := false, done := true, err := false, cause := .noCause, phase := .idle }) ∧
    (∃ t u, exec .dec s = .next t ∧ Host.Core.run core 14 t = .next u ∧
      u.dout = decrypt s.params.tables s.rk s.din ∧
      u = { s with dout := u.dout, kreg := u.kreg, cst := u.cst, denc1 := u.denc1, denc2 := u.denc2, op := .dec,
                   upc := u.upc, busy := false, done := true, err := false, cause := .noCause, phase := .idle })

/-- R176: `DENC` leaves `DOUT = double_encrypt(K1, K2, DIN)`, completes, and leaves `RK` and every other host-visible
register as it was (6 turns of the default agent; log 2, 11). -/
def Obligations.DencWritesDoutAndLeavesTheSchedule : Prop :=
  ∀ s : State, s.busy = false → s.agenda = [] →
    ∃ t u, exec .denc s = .next t ∧ Host.Core.run core 6 t = .next u ∧
      u.dout = doubleEncrypt s.params.tables s.k1 s.k2 s.din ∧
      u = { s with dout := u.dout, kreg := u.kreg, cst := u.cst, denc1 := u.denc1, denc2 := u.denc2, op := .denc,
                   upc := u.upc, busy := false, done := true, err := false, cause := .noCause, phase := .idle }

/-- R223: `NOP` clears `ERR` and `CAUSE`, completes, and changes no register, table or FIFO (1 turn of the default
agent; log 2). -/
def Obligations.NopOnlyClearsTheError : Prop :=
  ∀ s : State, s.busy = false → s.agenda = [] →
    ∃ t, exec .nop s = .next t ∧
      Host.Core.run core 1 t = .next { s with op := .nop, upc := 0, busy := false, done := true, err := false,
                                              cause := .noCause, phase := .idle }

/-- R12, R227, R75: whatever the order in which the host and the agents move, each step of a running short command keeps
what it is heading for, and completion leaves it in `RK` and `DOUT`. -/
def Obligations.AShortCommandKeepsItsResultUnderEverySchedule : Prop :=
  ∀ s t : State, StatusInv s → s.phase = .short → step s = .next t → (∀ rest, s.agenda ≠ .reset :: rest) →
    (t.phase = .short ∧ shortResult t = shortResult s) ∨
      (t.phase = .idle ∧ t.done = true ∧ t.busy = false ∧ (t.rk, t.dout) = shortResult s)

/-- R12, R145, R160, R161, R176, R223: what an accepted short command is heading for is the functional level. -/
def Obligations.AShortCommandIsHeadingForItsFunction : Prop :=
  ∀ (s : State) (o : Op), o ≠ .mitm → s.busy = false →
    (command o s).phase = .short ∧ shortResult (command o s) = shortEffect o s

/-! ### Micro-operations and functions -/

/-- R124 to R128, R155, R157: the layers and rounds on the cipher state of a datapath; no other register changes
(log 12). -/
def Obligations.LayersAndRoundsTransformTheCipherState : Prop :=
  ∀ (s : State) (p : Datapath) (n : Fin 11),
    let T := s.params.tables
    let c := cipherRegs s p
    (∃ t, exec (.addkey p n) s = .next t ∧ OnlyRegs p s t ∧ cipherRegs t p = { c with st := c.st ^^^ c.rk[n] }) ∧
    (∃ t, exec (.slayer p) s = .next t ∧ OnlyRegs p s t ∧ cipherRegs t p = { c with st := sLayer T c.st }) ∧
    (∃ t, exec (.invslayer p) s = .next t ∧ OnlyRegs p s t ∧ cipherRegs t p = { c with st := invSLayer T c.st }) ∧
    (∃ t, exec (.player p) s = .next t ∧ OnlyRegs p s t ∧ cipherRegs t p = { c with st := pLayer T c.st }) ∧
    (∃ t, exec (.invplayer p) s = .next t ∧ OnlyRegs p s t ∧ cipherRegs t p = { c with st := invPLayer T c.st }) ∧
    (∃ t, exec (.encround p n) s = .next t ∧ OnlyRegs p s t ∧
      cipherRegs t p = { c with st := pLayer T (sLayer T (c.st ^^^ c.rk[n])) }) ∧
    (∃ t, exec (.decround p n) s = .next t ∧ OnlyRegs p s t ∧
      cipherRegs t p = { c with st := invSLayer T (invPLayer T c.st) ^^^ c.rk[n] })

/-- R140 to R142, R147: the key-register micro-operations, as the spec's shifts and masks write them; no other register
changes (log 12). -/
def Obligations.KeyMicroOperationsTransformTheKeyRegister : Prop :=
  ∀ (s : State) (p : Datapath) (k : KeySource) (n : BitVec 5) (x : Fin 11),
    let T := s.params.tables
    let c := cipherRegs s p
    let key : KeyReg := BitVec.setWidth 80 (keyOperand s k)
    let r := c.kreg
    let a := r <<< 61 ||| r >>> 19
    let top : KeyReg := BitVec.setWidth 80 (sbox T (a.extractLsb' 76 4))
    let counter : KeyReg := BitVec.setWidth 80 n
    (∃ t, exec (.ksload p k) s = .next t ∧ OnlyRegs p s t ∧ cipherRegs t p = { c with kreg := key <<< 56 }) ∧
    (∃ t, exec (.ksupdate p n) s = .next t ∧ OnlyRegs p s t ∧
      cipherRegs t p = { c with kreg := (top <<< 76 ||| (a <<< 4) >>> 4) ^^^ counter <<< 15 }) ∧
    (∃ t, exec (.rkx p x) s = .next t ∧ OnlyRegs p s t ∧
      cipherRegs t p = { c with rk := c.rk.set x.val ((r >>> 16).setWidth 24) })

/-- R143, R156, R158, R175: the four functions, as the loops of their rules (log 12). -/
def Obligations.TheFunctionsRunTheirLoops : Prop :=
  ∀ (s : State) (p : Datapath) (k : KeySource) (x : BlockSource),
    let T := s.params.tables
    let rk := (cipherRegs s p).rk
    (∃ t, exec (.keySchedule p k) s = .next t ∧ OnlyRegs p s t ∧ (cipherRegs t p).st = (cipherRegs s p).st ∧
      ∃ r : Nat → KeyReg, r 0 = ksLoad (keyOperand s k) ∧
        (∀ n, n < 10 → r (n + 1) = ksUpdate T (r n) (BitVec.ofNat 5 (n + 1))) ∧
        ∀ n : Fin 11, (cipherRegs t p).rk[n] = rkx (r n.val)) ∧
    (∃ t, exec (.encrypt p x) s = .next t ∧ OnlyRegs p s t ∧ (cipherRegs t p).rk = rk ∧
      ∃ st : Nat → Block, st 0 = blockOperand s x ∧
        (∀ n : Fin 10, st (n.val + 1) = encRound T (st n.val) rk[n.val]) ∧
        (cipherRegs t p).st = addKey (st 10) rk[10]) ∧
    (∃ t, exec (.decrypt p x) s = .next t ∧ OnlyRegs p s t ∧ (cipherRegs t p).rk = rk ∧
      ∃ st : Nat → Block, st 10 = addKey (blockOperand s x) rk[10] ∧
        (∀ n : Fin 10, st n.val = decRound T (st (n.val + 1)) rk[n.val]) ∧ (cipherRegs t p).st = st 0) ∧
    (∃ t, exec .doubleEncrypt s = .next t ∧ t = { s with denc1 := t.denc1, denc2 := t.denc2 } ∧
      t.denc2.st = encrypt T (keySchedule T s.k2) (encrypt T (keySchedule T s.k1) s.din))

/-! ### The search engine (44_mitm_engine.md) -/

/-- R182, R185: `GEN(k)` writes entry `k` of both tables, marks the key, and changes nothing else but its worker's private
registers. -/
def Obligations.GenWritesBothEntriesOfItsKey : Prop :=
  ∀ (s : State) (w : Nat) (k : Block), s.phase = .gen → w < s.params.workers → k.toNat < s.params.n →
    k.toNat ∉ s.gdone →
    let T := s.params.tables
    ∃ t, exec (.gen w k) s = .next t ∧
      t = { s with tf := t.tf, tb := t.tb, gdone := t.gdone, workers := t.workers } ∧
      (∀ x, Memory.lookup t.tf x =
        if x = k.toNat then some (pack (encrypt T (keySchedule T k) s.p1) k) else Memory.lookup s.tf x) ∧
      (∀ x, Memory.lookup t.tb x =
        if x = k.toNat then some (pack (decrypt T (keySchedule T k) s.c1) k) else Memory.lookup s.tb x) ∧
      (∀ m, m ∈ t.gdone ↔ m = k.toNat ∨ m ∈ s.gdone) ∧
      (∀ v, v ≠ w → t.workers[v]? = s.workers[v]?)

/-- R186: `SORT` leaves in each table the same entries in ascending order of the 48-bit word, and changes nothing else. -/
def Obligations.SortArrangesBothTablesAscending : Prop :=
  ∀ s : State, s.phase = .sort →
    ∃ t, exec .sort s = .next t ∧ t = { s with tf := t.tf, tb := t.tb } ∧
      ∀ side : Side, (tableEntries t side).Perm (tableEntries s side) ∧ (tableEntries t side).Pairwise (· ≤ ·)

/-- R189, R190: `ADVF` moves `I` by one and nothing else, `ADVB` moves `J`. -/
def Obligations.AdvancesMoveOneCursor : Prop :=
  ∀ s : State, s.phase = .join → s.jend = false → emitting s = false → s.i < s.params.n → s.j < s.params.n →
    (entryValue (memRead s .fwd s.i) < entryValue (memRead s .bwd s.j) →
      exec .advf s = .next { s with i := s.i + 1 }) ∧
    (entryValue (memRead s .bwd s.j) < entryValue (memRead s .fwd s.i) →
      exec .advb s = .next { s with j := s.j + 1 })

/-- R191, R193 (the order is decision D17, log 16): on equal values `EMITX` emits, one pair a step, the cross product of the two runs, forward-major, and
after the last pair moves both cursors past their runs. `a`, `b` is the pair emitted, `ie`, `je` one past the runs: where
an emission begins, the cursors and the ends of their runs; inside one, the registers `A`, `B`, `IE`, `JE`. -/
def Obligations.EmitxEmitsTheCrossProductPairByPair : Prop :=
  ∀ (s : State) (ie je a b : Nat), s.phase = .join → s.jend = false → s.vq.length < s.params.lanes →
    ((emitting s = true ∧ ie = s.ie ∧ je = s.je ∧ a = s.a ∧ b = s.b) ∨
      (emitting s = false ∧ s.i < s.params.n ∧ s.j < s.params.n ∧
        entryValue (memRead s .fwd s.i) = entryValue (memRead s .bwd s.j) ∧
        IsRunEnd s .fwd s.i ie ∧ IsRunEnd s .bwd s.j je ∧ a = s.i ∧ b = s.j)) →
    exec .emitx s = .next
      { s with
        vq := s.vq ++ [⟨⟨entryKey (memRead s .fwd a), entryKey (memRead s .bwd b)⟩, .pending⟩]
        ie := ie
        je := je
        a := if b + 1 < je then a else if a + 1 < ie then a + 1 else a
        b := if b + 1 < je then b + 1 else if a + 1 < ie then s.j else b
        i := if b + 1 < je ∨ a + 1 < ie then s.i else ie
        j := if b + 1 < je ∨ a + 1 < ie then s.j else je }

/-- R197: a lane sets the verdict of a pending entry by the second pair alone, and changes nothing else but its own
private registers. -/
def Obligations.VerifyJudgesByTheSecondPair : Prop :=
  ∀ (s : State) (v n : Nat) (r : KeyPair), s.phase = .join → v < s.params.lanes → s.vq[n]? = some ⟨r, .pending⟩ →
    ∃ ls : List CipherRegs, (∀ u, u ≠ v → ls[u]? = s.lanes[u]?) ∧
      exec (.verify v n) s = .next
        { s with
          vq := s.vq.set n
            ⟨r, if doubleEncrypt s.params.tables r.key1 r.key2 s.p2 = s.c2 then .pass else .fail⟩
          lanes := ls }

/-- R198: retirement from the head of `VQ`: a fail is dropped, a pass goes to the back of `RF` if there is room, and
while `RF` is full nothing happens to a pass. -/
def Obligations.RetireDeliversInOrder : Prop :=
  ∀ (s : State) (r : KeyPair) (q : List QueueEntry), s.phase = .join →
    (s.vq = ⟨r, .fail⟩ :: q → exec .retire s = .next { s with vq := q }) ∧
    (s.vq = ⟨r, .pass⟩ :: q → s.rf.length < s.params.fifoDepth →
      exec .retire s = .next { s with vq := q, rf := s.rf ++ [r] }) ∧
    (s.vq = ⟨r, .pass⟩ :: q → s.params.fifoDepth ≤ s.rf.length → exec .retire s = .next s)

/-- R183, R186, R192, R200, R227: the sequencer leaves GEN exactly when every key of `[0, N)` is marked, SORT exactly
when both tables ascend, JOIN exactly when `JEND = 1` and `VQ` is empty, SHORT when the micro-steps are done. -/
def Obligations.TheSequencerMovesOnExactlyWhenThePhaseIsDone : Prop :=
  ∀ (s : State) (rest : List Event), s.agenda = .agent .sequencer :: rest →
    let u := { s with agenda := rest }
    let finished := { u with busy := false, done := true, phase := .idle }
    (s.phase = .idle → step s = .next u) ∧
    (s.phase = .short → step s = .next (if (microProgram s.op).length ≤ s.upc then finished else u)) ∧
    (s.phase = .gen → s.gdone.Pairwise (· < ·) →
      ((∀ k, k < s.params.n → k ∈ s.gdone) → step s = .next { u with phase := .sort }) ∧
      (¬(∀ k, k < s.params.n → k ∈ s.gdone) → step s = .next u)) ∧
    (s.phase = .sort →
      ((tableEntries s .fwd).Pairwise (· ≤ ·) ∧ (tableEntries s .bwd).Pairwise (· ≤ ·) →
        step s = .next { u with phase := .join }) ∧
      (¬((tableEntries s .fwd).Pairwise (· ≤ ·) ∧ (tableEntries s .bwd).Pairwise (· ≤ ·)) → step s = .next u)) ∧
    (s.phase = .join →
      (s.jend = true ∧ s.vq = [] →
        ∃ t, step s = .next t ∧ t = { finished with tf := t.tf, tb := t.tb, draws := t.draws }) ∧
      (¬(s.jend = true ∧ s.vq = []) → step s = .next u))

/-- The model's choice for a micro-operation whose enabling condition does not hold (log 3): it takes no step. The
conditions are those of the phases (R248) and of R182, R184, R186, R188 to R192, R197 and R198. `EMITX` also waits while
`VQ` is full (R191). -/
def Obligations.AMicroOperationThatIsNotEnabledWaits : Prop :=
  ∀ (s : State) (w v n : Nat) (k : Block),
    let vf := entryValue (memRead s .fwd s.i)
    let vb := entryValue (memRead s .bwd s.j)
    ((s.phase ≠ .gen ∨ s.params.workers ≤ w ∨ s.params.n ≤ k.toNat ∨ k.toNat ∈ s.gdone) →
      exec (.gen w k) s = .next s) ∧
    (s.phase ≠ .sort → exec .sort s = .next s) ∧
    ((s.phase ≠ .join ∨ s.jend = true) →
      exec .advf s = .next s ∧ exec .advb s = .next s ∧ exec .emitx s = .next s) ∧
    ((emitting s = true ∨ s.params.n ≤ s.i ∨ s.params.n ≤ s.j) →
      exec .advf s = .next s ∧ exec .advb s = .next s) ∧
    (vb ≤ vf → exec .advf s = .next s) ∧
    (vf ≤ vb → exec .advb s = .next s) ∧
    (emitting s = false → (s.params.n ≤ s.i ∨ s.params.n ≤ s.j ∨ vf ≠ vb) → exec .emitx s = .next s) ∧
    (s.params.lanes ≤ s.vq.length → exec .emitx s = .next s) ∧
    ((s.phase ≠ .join ∨ s.params.lanes ≤ v ∨ (∀ r, s.vq[n]? ≠ some ⟨r, .pending⟩)) →
      exec (.verify v n) s = .next s) ∧
    ((s.phase ≠ .join ∨ s.vq = [] ∨ (∃ r q, s.vq = ⟨r, .pending⟩ :: q)) → exec .retire s = .next s)

/-- R60, R64: a table memory reads back the entry written, other entries are unchanged, and the canonical form stays
(log 7). -/
def Obligations.ATableReadsBackWhatWasWritten : Prop :=
  ∀ (m : Memory) (x y : Nat) (e : Entry),
    Memory.lookup (Memory.write m x e) x = some e ∧
    (y ≠ x → Memory.lookup (Memory.write m x e) y = Memory.lookup m y) ∧
    (Memory.wf m → Memory.wf (Memory.write m x e))

/-- R96: the unsigned order of the packed words is the order of (value, key). -/
def Obligations.EntryOrderIsValueThenKey : Prop :=
  ∀ v k v' k' : Block, (pack v k < pack v' k' ↔ v < v' ∨ (v = v' ∧ k < k')) ∧
    entryValue (pack v k) = v ∧ entryKey (pack v k) = k

/-- R194, R193, R195: on two tables ascending by value, the join emits exactly the pairs of entries with equal values,
each once, in the order of the forward table and, within one forward entry, of the backward table (decision D17,
log 16). -/
def Obligations.TheJoinEmitsEveryMatchingPairOnce : Prop :=
  ∀ fs bs : List Entry, fs.Pairwise (fun e d => entryValue e ≤ entryValue d) →
    bs.Pairwise (fun e d => entryValue e ≤ entryValue d) →
    join fs bs = fs.flatMap fun f =>
      (bs.filter fun b => entryValue b == entryValue f).map fun b => ⟨entryKey f, entryKey b⟩

/-- The result list holds exactly the key pairs of the key space that map the first pair and the second pair, each once
(R201 to R203), ascending by `(F(k1), k1, k2)`. The order of the pairs with one value of `F` is R193's own decision (D17),
with which R201 opens, and log 16 names it (DEDUCED). -/
def Obligations.TheResultListIsAllConsistentKeyPairs : Prop :=
  ∀ (p : Params) (x1 y1 x2 y2 : Block), p.Ok →
    let T := p.tables
    let F := fun k => encrypt T (keySchedule T k) x1
    let out := searchResult p x1 y1 x2 y2
    (∀ r : KeyPair, r ∈ out ↔ r.key1.toNat < p.n ∧ r.key2.toNat < p.n ∧
      doubleEncrypt T r.key1 r.key2 x1 = y1 ∧ doubleEncrypt T r.key1 r.key2 x2 = y2) ∧
    out.Pairwise fun r q => F r.key1 < F q.key1 ∨
      (F r.key1 = F q.key1 ∧ (r.key1 < q.key1 ∨ (r.key1 = q.key1 ∧ r.key2 < q.key2)))

/-- R183, R186, R188 to R192, R197, phase by phase: kept by every step, under every schedule of workers, lanes and
host. -/
def Obligations.EveryStepKeepsTheSearchInvariant : Prop :=
  ∀ s t : State, s.params.Ok → StatusInv s → SearchInv s → step s = .next t → SearchInv t

/-- R199, R75, R206, R180: no step of the engine loses, doubles or reorders a result. What the host is still owed stays the
same under every step, but for the pop that takes its head, the `MITM` that starts a new list, and reset. -/
def Obligations.NoResultIsLostDoubledOrReordered : Prop :=
  ∀ s t : State, s.params.Ok → StatusInv s → SearchInv s → step s = .next t →
    owed t = match s.agenda with
      | .reset :: _ => []
      | .host w :: _ =>
        (match decode w with
          | .pop => if s.rf = [] then owed s else (owed s).tail
          | .mitm => if s.busy = true then owed s else searchResult s.params s.p1 s.c1 s.p2 s.c2
          | _ => owed s)
      | _ => owed s

/-- R205, R277, R290: while a command runs, nothing is scheduled and `RF` has room, every step brings the command nearer
to its completion (the default agent's turns; log 2). -/
def Obligations.EveryTurnBringsARunningCommandNearerToItsEnd : Prop :=
  ∀ s t : State, s.params.Ok → StatusInv s → SearchInv s → s.agenda = [] → s.busy = true →
    s.rf.length < s.params.fifoDepth → step s = .next t → workLeft t < workLeft s

/-! ### The host's scripts (30_encoding.md R102; 43_cascade.md R178; 45_host_interface.md R228) -/

/-- What R102 says of its pseudo-instructions. The last push and the setting of `DONE` are two events, and after `DONE = 1`
nothing is pushed (R200). So `DRAIN`, if it comes to its end, returns exactly the pairs still owed, in order, with none
left, and the call script of R228 the result list of its four operands; and the composite of `LOADSCHED` and `ENC` returns
`double_encrypt` (R178). Each under every schedule of the core's agents and with any number of polls (log 27). -/
def Obligations.TheScriptsReturnWhatTheyStandFor : Prop :=
  (∀ s t : State, StatusInv s → step s = .next t →
    (s.done = false → t.done = true → t.rf = s.rf) ∧ (s.done = true → ∃ n, t.rf = s.rf.drop n)) ∧
  (∀ (s t : State) (n m : Nat) (out : List KeyPair), s.params.Ok → StatusInv s → SearchInv s →
    Runs (drain n m) s out t → out = owed s ∧ owed t = []) ∧
  (∀ (s t : State) (n m : Nat) (x1 y1 x2 y2 : HostWord) (out : List KeyPair), s.params.Ok → StatusInv s →
    s.busy = false → Runs (attack n m x1 y1 x2 y2) s out t →
    out = searchResult s.params (x1.extractLsb' 0 24) (y1.extractLsb' 0 24) (x2.extractLsb' 0 24)
      (y2.extractLsb' 0 24)) ∧
  (∀ (s t : State) (n : Nat) (k1 k2 p word : HostWord), StatusInv s → s.busy = false →
    Runs (cascadeByParts n k1 k2 p) s word t →
    word = (doubleEncrypt s.params.tables (k1.extractLsb' 0 24) (k2.extractLsb' 0 24)
      (p.extractLsb' 0 24)).setWidth 32)
end

