-- ==== Sys2Proof/Laws/Cipher.lean ====
section
/-! SUPPORT. What the bit-field helpers, the layers and the key-schedule operations do, bit by bit, for any constant
tables that meet R20 and R21. -/

namespace Sys2Proof.Machine

open Sys2Proof.Config

/-! ### Nibbles and bits -/

@[simp] theorem nibble_ofNibbles (f : Fin 6 → Nibble) (j : Fin 6) : nibble (ofNibbles f) j = f j := by
  refine BitVec.eq_of_getLsbD_eq fun i hi => ?_
  simp only [nibble, ofNibbles, BitVec.getLsbD_extractLsb', BitVec.getLsbD_cast, BitVec.getLsbD_append, hi, decide_true,
    Bool.true_and]
  fin_cases j <;> interval_cases i <;> rfl

/-- A Block is its six nibbles. -/
theorem eq_of_nibble {a b : Block} (h : ∀ j, nibble a j = nibble b j) : a = b := by
  refine BitVec.eq_of_getLsbD_eq fun i hi => ?_
  have := congrArg (fun x => x.getLsbD (i % 4)) (h ⟨i / 4, by omega⟩)
  simpa [nibble, Nat.mod_lt, Nat.div_add_mod] using this

theorem getLsbD_putBit (t : Block) (j : Fin 24) (b : Bool) (n : Nat) (hn : n < 24) :
    (putBit t j b).getLsbD n = if n = j.val then b else t.getLsbD n := by
  unfold putBit
  cases b <;> simp [BitVec.getLsbD_twoPow] <;> grind

/-- The loop of R127 and R128 along a map without collisions: bit `m[i]` of the result is bit `i`. -/
theorem getLsbD_scatter {m : Vector (Fin 24) 24} (hm : ∀ i j : Fin 24, m[i] = m[j] → i = j) (s : Block) (i : Fin 24) :
    (scatter m s).getLsbD m[i].val = s.getLsbD i.val := by
  have key : ∀ (l : List (Fin 24)) (t : Block),
      (l.foldl (fun t i => putBit t m[i] (s.getLsbD i.val)) t).getLsbD m[i].val =
        if i ∈ l then s.getLsbD i.val else t.getLsbD m[i].val := by
    intro l
    induction l with
    | nil => intro t; simp
    | cons a l ih =>
      intro t
      rw [List.foldl_cons, ih, getLsbD_putBit _ _ _ _ (m[i].isLt)]
      by_cases h1 : i = a
      · subst h1; simp
      · have : m[i].val ≠ m[a].val := fun h => h1 (hm _ _ (Fin.ext h))
        simp only [List.mem_cons, h1, false_or, this, if_false]
  unfold scatter
  rw [key]
  simp

/-! ### The constant tables (R20, R21) -/

theorem perm_injective {T : Tables} (h : T.Ok) (i j : Fin 24) (e : T.perm[i] = T.perm[j]) : i = j := by
  rw [← h.invperm_perm i, ← h.invperm_perm j]
  exact congrArg (fun a : Fin 24 => T.invperm[a]) e

theorem perm_invperm {T : Tables} (h : T.Ok) (j : Fin 24) : T.perm[T.invperm[j]] = j := by
  obtain ⟨i, hi⟩ := (Finite.injective_iff_surjective.mp fun i j => perm_injective h i j) j
  have hi : T.perm[i] = j := hi
  have h2 : T.invperm[j] = i := (congrArg (fun a : Fin 24 => T.invperm[a]) hi.symm).trans (h.invperm_perm i)
  exact (congrArg (fun a : Fin 24 => T.perm[a]) h2).trans hi

theorem invperm_injective {T : Tables} (h : T.Ok) (i j : Fin 24) (e : T.invperm[i] = T.invperm[j]) : i = j := by
  rw [← perm_invperm h i, ← perm_invperm h j]
  exact congrArg (fun a : Fin 24 => T.perm[a]) e

theorem invSbox_sbox {T : Tables} (h : T.Ok) (n : Nibble) : invSbox T (sbox T n) = n := by
  simpa [invSbox, sbox] using h.invsbox_sbox n.toFin

theorem sbox_invSbox {T : Tables} (h : T.Ok) (n : Nibble) : sbox T (invSbox T n) = n := by
  simpa [invSbox, sbox] using h.sbox_invsbox n.toFin

/-! ### The key-schedule register (R140 to R143) -/

theorem getLsbD_ksLoad (k : Block) (n : Nat) : (ksLoad k).getLsbD n = (decide (56 ≤ n) && k.getLsbD (n - 56)) := by
  simp only [ksLoad, BitVec.getLsbD_cast, BitVec.getLsbD_append]
  split_ifs <;> simp <;> omega

/-- Below the substituted nibble, an update is the rotation and the round counter. -/
theorem getLsbD_ksUpdate (T : Tables) (r : KeyReg) (i : BitVec 5) (n : Nat) (hn : n < 76) :
    (ksUpdate T r i).getLsbD n =
      ((if n < 61 then r.getLsbD (n + 19) else r.getLsbD (n - 61)) ^^ (decide (15 ≤ n) && i.getLsbD (n - 15))) := by
  simp only [ksUpdate, subTop, BitVec.getLsbD_xor, BitVec.getLsbD_cast, BitVec.getLsbD_append, hn, if_true,
    BitVec.getLsbD_extractLsb', BitVec.getLsbD_rotateLeft, BitVec.getLsbD_shiftLeft, BitVec.getLsbD_setWidth]
  simp only [show n < 80 by omega, decide_true, Bool.true_and]
  congr 1
  · by_cases h : n < 61 <;> simp [h, show n < 80 by omega, Nat.add_comm]
  · by_cases h : 15 ≤ n
    · simp [h, show ¬ n < 15 by omega, show n - 15 < 80 by omega]
    · simp [h, show n < 15 by omega]

theorem getLsbD_rkx (r : KeyReg) (n : Nat) (hn : n < 24) : (rkx r).getLsbD n = r.getLsbD (16 + n) := by
  simp [rkx, hn]

theorem keySchedule_getElem (T : Tables) (k : Block) (i : Fin 11) :
    (keySchedule T k)[i] = rkx (keyRegAfter T k i.val) := by simp [keySchedule]

end Sys2Proof.Machine
end

