-- ==== Sys2Proof/Laws/Decode.lean ====
section
/-! SUPPORT. Fields and masks of a transaction word (30_encoding.md R90), and how the opcode table's rows see them. -/

namespace Sys2Proof

/-- Bit by bit: data below 32, index from 32, direction at 38 (R90). -/
theorem getLsbD_txn (rw : Bool) (a : Index) (d : HostWord) (i : Nat) :
    (txn rw a d).getLsbD i = if i < 32 then d.getLsbD i else if i < 38 then a.getLsbD (i - 32) else decide (i = 38) && rw := by
  simp only [txn, BitVec.getLsbD_cast, BitVec.getLsbD_append, BitVec.getLsbD_ofBool]
  split_ifs <;> first | rfl | omega | skip
  have : (i - 32 - 6 = 0) ↔ i = 38 := by omega
  simp [this]

@[simp] theorem txnRw_txn (rw : Bool) (a : Index) (d : HostWord) : txnRw (txn rw a d) = rw := by
  rw [txnRw, getLsbD_txn]
  simp

@[simp] theorem txnIndex_txn (rw : Bool) (a : Index) (d : HostWord) : txnIndex (txn rw a d) = a := by
  refine BitVec.eq_of_getLsbD_eq fun i hi => ?_
  simp [txnIndex, getLsbD_txn, hi, show 32 + i < 38 by omega]

@[simp] theorem txnData_txn (rw : Bool) (a : Index) (d : HostWord) : txnData (txn rw a d) = d := by
  refine BitVec.eq_of_getLsbD_eq fun i hi => ?_
  simp [txnData, getLsbD_txn, hi]

/-- A transaction is its three fields (R90). -/
theorem txn_fields (t : Txn) : txn (txnRw t) (txnIndex t) (txnData t) = t := by
  refine BitVec.eq_of_getLsbD_eq fun i hi => ?_
  simp only [getLsbD_txn, txnRw, txnIndex, txnData, BitVec.getLsbD_extractLsb']
  split_ifs with h1 h2
  · simp [h1]
  · simp [show i - 32 < 6 by omega, show 32 + (i - 32) = i by omega]
  · obtain rfl : i = 38 := by omega
    simp

/-- Transactions are equal when their fields are. -/
theorem txn_inj {r r' : Bool} {a a' : Index} {d d' : HostWord} :
    txn r a d = txn r' a' d' ↔ r = r' ∧ a = a' ∧ d = d' := by
  constructor
  · intro h
    exact ⟨by simpa using congrArg txnRw h, by simpa using congrArg txnIndex h, by simpa using congrArg txnData h⟩
  · rintro ⟨rfl, rfl, rfl⟩; rfl

/-- The conjunction of two transactions is that of their fields. -/
theorem txn_and (r r' : Bool) (a a' : Index) (d d' : HostWord) :
    txn r a d &&& txn r' a' d' = txn (r && r') (a &&& a') (d &&& d') := by
  refine BitVec.eq_of_getLsbD_eq fun i hi => ?_
  simp only [BitVec.getLsbD_and, getLsbD_txn]
  split_ifs
  · rfl
  · rfl
  · cases decide (i = 38) <;> rfl

/-- The mask of rows that look at direction and index. -/
theorem txn_and_indexMask (r : Bool) (a : Index) (d : HostWord) : txn r a d &&& (0x7F00000000 : Txn) = txn r a 0 := by
  rw [show (0x7F00000000 : Txn) = txn true (BitVec.allOnes 6) 0 by decide, txn_and, BitVec.and_allOnes, Bool.and_true]
  exact congrArg _ BitVec.and_zero

/-- The mask of rows that look at the direction only. -/
theorem txn_and_rwMask (r : Bool) (a : Index) (d : HostWord) : txn r a d &&& (0x4000000000 : Txn) = txn r 0 0 := by
  rw [show (0x4000000000 : Txn) = txn true 0 0 by decide, txn_and]
  simp

/-- The mask of the six command rows. -/
theorem txn_and_fullMask (t : Txn) : t &&& (0x7FFFFFFFFF : Txn) = t := by
  rw [show (0x7FFFFFFFFF : Txn) = BitVec.allOnes 39 by decide, BitVec.and_allOnes]

/-- A row sees a transaction through its mask: all bits, direction and index, or direction only. -/
theorem opcodeRows_mask : ∀ r ∈ opcodeRows,
    (r.mask = 0x7FFFFFFFFF ∧ txnIndex r.pat = 0) ∨ r.mask = 0x7F00000000 ∨ r.mask = 0x4000000000 := by
  decide

/-- Away from index 0x00 no row looks at the data. -/
theorem firstMatch_data {a : Index} (h : a ≠ 0) (rw : Bool) (d : HostWord) :
    firstMatch (txn rw a d) = firstMatch (txn rw a 0) := by
  unfold firstMatch
  congr 1
  refine List.find?_congr fun r hr => ?_
  rcases opcodeRows_mask r hr with ⟨hm, hi⟩ | hm | hm
  · have key : ∀ e : HostWord, (txn rw a e == r.pat) = false := fun e => by
      rw [beq_eq_false_iff_ne]
      intro he
      rw [← he, txnIndex_txn] at hi
      exact h hi
    simp only [hm, txn_and_fullMask, key]
  · simp only [hm, txn_and_indexMask]
  · simp only [hm, txn_and_rwMask]

/-- A read is the first row, whatever its index. -/
theorem firstMatch_read (a : Index) (d : HostWord) : firstMatch (txn false a d) = some "RD" := by
  unfold firstMatch opcodeRows
  rw [List.find?_cons_of_pos (by rw [txn_and_rwMask]; decide)]
  rfl

/-- At index 0x00 a data word above 5 is taken by the row ILLCMD. -/
theorem firstMatch_illcmd {d : HostWord} (h : 5 < d.toNat) : firstMatch (txn true 0 d) = some "ILLCMD" := by
  unfold firstMatch
  generalize hp : (fun r : OpcodeRow => txn true 0 d &&& r.mask == r.pat) = p
  have hr : ∀ r, p r = (txn true 0 d &&& r.mask == r.pat) := fun r => by rw [← hp]
  have key : ∀ (c : HostWord) (r : OpcodeRow), c.toNat ≤ 5 → r.mask = 0x7FFFFFFFFF → r.pat = txn true 0 c →
      ¬ p r = true := fun c r hc hm hq he => by
    rw [hr, hm, hq, txn_and_fullMask, beq_iff_eq] at he
    have : d = c := (txn_inj.mp he).2.2
    subst this
    omega
  unfold opcodeRows
  rw [List.find?_cons_of_neg (by rw [hr, txn_and_rwMask]; decide),
    List.find?_cons_of_neg (key 0 _ (by decide) rfl (by decide)),
    List.find?_cons_of_neg (key 1 _ (by decide) rfl (by decide)),
    List.find?_cons_of_neg (key 2 _ (by decide) rfl (by decide)),
    List.find?_cons_of_neg (key 3 _ (by decide) rfl (by decide)),
    List.find?_cons_of_neg (key 4 _ (by decide) rfl (by decide)),
    List.find?_cons_of_neg (key 5 _ (by decide) rfl (by decide)),
    List.find?_cons_of_pos (by rw [hr, txn_and_indexMask]; decide)]
  rfl

end Sys2Proof
end

