-- ==== Sys2Proof/Laws/State.lean ====
section
/-! SUPPORT. One lemma per field per named update of the state, so that no later proof unfolds a record update. -/

namespace Sys2Proof.Machine

open Sys2Proof.Config

/-! ### refuse (R244) -/

@[simp] theorem refuse_params (c : Cause) (s : State) : (refuse c s).params = s.params := rfl
@[simp] theorem refuse_k1 (c : Cause) (s : State) : (refuse c s).k1 = s.k1 := rfl
@[simp] theorem refuse_k2 (c : Cause) (s : State) : (refuse c s).k2 = s.k2 := rfl
@[simp] theorem refuse_din (c : Cause) (s : State) : (refuse c s).din = s.din := rfl
@[simp] theorem refuse_dout (c : Cause) (s : State) : (refuse c s).dout = s.dout := rfl
@[simp] theorem refuse_p1 (c : Cause) (s : State) : (refuse c s).p1 = s.p1 := rfl
@[simp] theorem refuse_c1 (c : Cause) (s : State) : (refuse c s).c1 = s.c1 := rfl
@[simp] theorem refuse_p2 (c : Cause) (s : State) : (refuse c s).p2 = s.p2 := rfl
@[simp] theorem refuse_c2 (c : Cause) (s : State) : (refuse c s).c2 = s.c2 := rfl
@[simp] theorem refuse_rk (c : Cause) (s : State) : (refuse c s).rk = s.rk := rfl
@[simp] theorem refuse_busy (c : Cause) (s : State) : (refuse c s).busy = s.busy := rfl
@[simp] theorem refuse_done (c : Cause) (s : State) : (refuse c s).done = s.done := rfl
@[simp] theorem refuse_err (c : Cause) (s : State) : (refuse c s).err = true := rfl
@[simp] theorem refuse_cause (c : Cause) (s : State) : (refuse c s).cause = c := rfl
@[simp] theorem refuse_phase (c : Cause) (s : State) : (refuse c s).phase = s.phase := rfl
@[simp] theorem refuse_rf (c : Cause) (s : State) : (refuse c s).rf = s.rf := rfl
@[simp] theorem refuse_kreg (c : Cause) (s : State) : (refuse c s).kreg = s.kreg := rfl
@[simp] theorem refuse_cst (c : Cause) (s : State) : (refuse c s).cst = s.cst := rfl
@[simp] theorem refuse_denc1 (c : Cause) (s : State) : (refuse c s).denc1 = s.denc1 := rfl
@[simp] theorem refuse_denc2 (c : Cause) (s : State) : (refuse c s).denc2 = s.denc2 := rfl
@[simp] theorem refuse_workers (c : Cause) (s : State) : (refuse c s).workers = s.workers := rfl
@[simp] theorem refuse_lanes (c : Cause) (s : State) : (refuse c s).lanes = s.lanes := rfl
@[simp] theorem refuse_tf (c : Cause) (s : State) : (refuse c s).tf = s.tf := rfl
@[simp] theorem refuse_tb (c : Cause) (s : State) : (refuse c s).tb = s.tb := rfl
@[simp] theorem refuse_op (c : Cause) (s : State) : (refuse c s).op = s.op := rfl
@[simp] theorem refuse_upc (c : Cause) (s : State) : (refuse c s).upc = s.upc := rfl
@[simp] theorem refuse_gdone (c : Cause) (s : State) : (refuse c s).gdone = s.gdone := rfl
@[simp] theorem refuse_i (c : Cause) (s : State) : (refuse c s).i = s.i := rfl
@[simp] theorem refuse_j (c : Cause) (s : State) : (refuse c s).j = s.j := rfl
@[simp] theorem refuse_ie (c : Cause) (s : State) : (refuse c s).ie = s.ie := rfl
@[simp] theorem refuse_je (c : Cause) (s : State) : (refuse c s).je = s.je := rfl
@[simp] theorem refuse_a (c : Cause) (s : State) : (refuse c s).a = s.a := rfl
@[simp] theorem refuse_b (c : Cause) (s : State) : (refuse c s).b = s.b := rfl
@[simp] theorem refuse_jend (c : Cause) (s : State) : (refuse c s).jend = s.jend := rfl
@[simp] theorem refuse_vq (c : Cause) (s : State) : (refuse c s).vq = s.vq := rfl
@[simp] theorem refuse_rdata (c : Cause) (s : State) : (refuse c s).rdata = s.rdata := rfl
@[simp] theorem refuse_draws (c : Cause) (s : State) : (refuse c s).draws = s.draws := rfl
@[simp] theorem refuse_agenda (c : Cause) (s : State) : (refuse c s).agenda = s.agenda := rfl

/-! ### flush (R181) -/

@[simp] theorem flush_params (s : State) : (flush s).params = s.params := rfl
@[simp] theorem flush_k1 (s : State) : (flush s).k1 = s.k1 := rfl
@[simp] theorem flush_k2 (s : State) : (flush s).k2 = s.k2 := rfl
@[simp] theorem flush_din (s : State) : (flush s).din = s.din := rfl
@[simp] theorem flush_dout (s : State) : (flush s).dout = s.dout := rfl
@[simp] theorem flush_p1 (s : State) : (flush s).p1 = s.p1 := rfl
@[simp] theorem flush_c1 (s : State) : (flush s).c1 = s.c1 := rfl
@[simp] theorem flush_p2 (s : State) : (flush s).p2 = s.p2 := rfl
@[simp] theorem flush_c2 (s : State) : (flush s).c2 = s.c2 := rfl
@[simp] theorem flush_rk (s : State) : (flush s).rk = s.rk := rfl
@[simp] theorem flush_busy (s : State) : (flush s).busy = s.busy := rfl
@[simp] theorem flush_done (s : State) : (flush s).done = s.done := rfl
@[simp] theorem flush_err (s : State) : (flush s).err = s.err := rfl
@[simp] theorem flush_cause (s : State) : (flush s).cause = s.cause := rfl
@[simp] theorem flush_phase (s : State) : (flush s).phase = s.phase := rfl
@[simp] theorem flush_rf (s : State) : (flush s).rf = [] := rfl
@[simp] theorem flush_kreg (s : State) : (flush s).kreg = s.kreg := rfl
@[simp] theorem flush_cst (s : State) : (flush s).cst = s.cst := rfl
@[simp] theorem flush_denc1 (s : State) : (flush s).denc1 = s.denc1 := rfl
@[simp] theorem flush_denc2 (s : State) : (flush s).denc2 = s.denc2 := rfl
@[simp] theorem flush_workers (s : State) : (flush s).workers = s.workers := rfl
@[simp] theorem flush_lanes (s : State) : (flush s).lanes = s.lanes := rfl
@[simp] theorem flush_tf (s : State) : (flush s).tf = s.tf := rfl
@[simp] theorem flush_tb (s : State) : (flush s).tb = s.tb := rfl
@[simp] theorem flush_op (s : State) : (flush s).op = s.op := rfl
@[simp] theorem flush_upc (s : State) : (flush s).upc = s.upc := rfl
@[simp] theorem flush_gdone (s : State) : (flush s).gdone = [] := rfl
@[simp] theorem flush_i (s : State) : (flush s).i = 0 := rfl
@[simp] theorem flush_j (s : State) : (flush s).j = 0 := rfl
@[simp] theorem flush_ie (s : State) : (flush s).ie = 0 := rfl
@[simp] theorem flush_je (s : State) : (flush s).je = 0 := rfl
@[simp] theorem flush_a (s : State) : (flush s).a = 0 := rfl
@[simp] theorem flush_b (s : State) : (flush s).b = 0 := rfl
@[simp] theorem flush_jend (s : State) : (flush s).jend = false := rfl
@[simp] theorem flush_vq (s : State) : (flush s).vq = [] := rfl
@[simp] theorem flush_rdata (s : State) : (flush s).rdata = s.rdata := rfl
@[simp] theorem flush_draws (s : State) : (flush s).draws = s.draws := rfl
@[simp] theorem flush_agenda (s : State) : (flush s).agenda = s.agenda := rfl

/-! ### beginCommand (R222) -/

@[simp] theorem beginCommand_params (o : Op) (ph : Phase) (s : State) : (beginCommand o ph s).params = s.params := rfl
@[simp] theorem beginCommand_k1 (o : Op) (ph : Phase) (s : State) : (beginCommand o ph s).k1 = s.k1 := rfl
@[simp] theorem beginCommand_k2 (o : Op) (ph : Phase) (s : State) : (beginCommand o ph s).k2 = s.k2 := rfl
@[simp] theorem beginCommand_din (o : Op) (ph : Phase) (s : State) : (beginCommand o ph s).din = s.din := rfl
@[simp] theorem beginCommand_dout (o : Op) (ph : Phase) (s : State) : (beginCommand o ph s).dout = s.dout := rfl
@[simp] theorem beginCommand_p1 (o : Op) (ph : Phase) (s : State) : (beginCommand o ph s).p1 = s.p1 := rfl
@[simp] theorem beginCommand_c1 (o : Op) (ph : Phase) (s : State) : (beginCommand o ph s).c1 = s.c1 := rfl
@[simp] theorem beginCommand_p2 (o : Op) (ph : Phase) (s : State) : (beginCommand o ph s).p2 = s.p2 := rfl
@[simp] theorem beginCommand_c2 (o : Op) (ph : Phase) (s : State) : (beginCommand o ph s).c2 = s.c2 := rfl
@[simp] theorem beginCommand_rk (o : Op) (ph : Phase) (s : State) : (beginCommand o ph s).rk = s.rk := rfl
@[simp] theorem beginCommand_busy (o : Op) (ph : Phase) (s : State) : (beginCommand o ph s).busy = true := rfl
@[simp] theorem beginCommand_done (o : Op) (ph : Phase) (s : State) : (beginCommand o ph s).done = false := rfl
@[simp] theorem beginCommand_err (o : Op) (ph : Phase) (s : State) : (beginCommand o ph s).err = false := rfl
@[simp] theorem beginCommand_cause (o : Op) (ph : Phase) (s : State) : (beginCommand o ph s).cause = .noCause := rfl
@[simp] theorem beginCommand_phase (o : Op) (ph : Phase) (s : State) : (beginCommand o ph s).phase = ph := rfl
@[simp] theorem beginCommand_rf (o : Op) (ph : Phase) (s : State) : (beginCommand o ph s).rf = s.rf := rfl
@[simp] theorem beginCommand_kreg (o : Op) (ph : Phase) (s : State) : (beginCommand o ph s).kreg = s.kreg := rfl
@[simp] theorem beginCommand_cst (o : Op) (ph : Phase) (s : State) : (beginCommand o ph s).cst = s.cst := rfl
@[simp] theorem beginCommand_denc1 (o : Op) (ph : Phase) (s : State) : (beginCommand o ph s).denc1 = s.denc1 := rfl
@[simp] theorem beginCommand_denc2 (o : Op) (ph : Phase) (s : State) : (beginCommand o ph s).denc2 = s.denc2 := rfl
@[simp] theorem beginCommand_workers (o : Op) (ph : Phase) (s : State) : (beginCommand o ph s).workers = s.workers := rfl
@[simp] theorem beginCommand_lanes (o : Op) (ph : Phase) (s : State) : (beginCommand o ph s).lanes = s.lanes := rfl
@[simp] theorem beginCommand_tf (o : Op) (ph : Phase) (s : State) : (beginCommand o ph s).tf = s.tf := rfl
@[simp] theorem beginCommand_tb (o : Op) (ph : Phase) (s : State) : (beginCommand o ph s).tb = s.tb := rfl
@[simp] theorem beginCommand_op (o : Op) (ph : Phase) (s : State) : (beginCommand o ph s).op = o := rfl
@[simp] theorem beginCommand_upc (o : Op) (ph : Phase) (s : State) : (beginCommand o ph s).upc = 0 := rfl
@[simp] theorem beginCommand_gdone (o : Op) (ph : Phase) (s : State) : (beginCommand o ph s).gdone = s.gdone := rfl
@[simp] theorem beginCommand_i (o : Op) (ph : Phase) (s : State) : (beginCommand o ph s).i = s.i := rfl
@[simp] theorem beginCommand_j (o : Op) (ph : Phase) (s : State) : (beginCommand o ph s).j = s.j := rfl
@[simp] theorem beginCommand_ie (o : Op) (ph : Phase) (s : State) : (beginCommand o ph s).ie = s.ie := rfl
@[simp] theorem beginCommand_je (o : Op) (ph : Phase) (s : State) : (beginCommand o ph s).je = s.je := rfl
@[simp] theorem beginCommand_a (o : Op) (ph : Phase) (s : State) : (beginCommand o ph s).a = s.a := rfl
@[simp] theorem beginCommand_b (o : Op) (ph : Phase) (s : State) : (beginCommand o ph s).b = s.b := rfl
@[simp] theorem beginCommand_jend (o : Op) (ph : Phase) (s : State) : (beginCommand o ph s).jend = s.jend := rfl
@[simp] theorem beginCommand_vq (o : Op) (ph : Phase) (s : State) : (beginCommand o ph s).vq = s.vq := rfl
@[simp] theorem beginCommand_rdata (o : Op) (ph : Phase) (s : State) : (beginCommand o ph s).rdata = s.rdata := rfl
@[simp] theorem beginCommand_draws (o : Op) (ph : Phase) (s : State) : (beginCommand o ph s).draws = s.draws := rfl
@[simp] theorem beginCommand_agenda (o : Op) (ph : Phase) (s : State) : (beginCommand o ph s).agenda = s.agenda := rfl

/-! ### complete (R227) -/

@[simp] theorem complete_params (s : State) : (complete s).params = s.params := rfl
@[simp] theorem complete_k1 (s : State) : (complete s).k1 = s.k1 := rfl
@[simp] theorem complete_k2 (s : State) : (complete s).k2 = s.k2 := rfl
@[simp] theorem complete_din (s : State) : (complete s).din = s.din := rfl
@[simp] theorem complete_dout (s : State) : (complete s).dout = s.dout := rfl
@[simp] theorem complete_p1 (s : State) : (complete s).p1 = s.p1 := rfl
@[simp] theorem complete_c1 (s : State) : (complete s).c1 = s.c1 := rfl
@[simp] theorem complete_p2 (s : State) : (complete s).p2 = s.p2 := rfl
@[simp] theorem complete_c2 (s : State) : (complete s).c2 = s.c2 := rfl
@[simp] theorem complete_rk (s : State) : (complete s).rk = s.rk := rfl
@[simp] theorem complete_busy (s : State) : (complete s).busy = false := rfl
@[simp] theorem complete_done (s : State) : (complete s).done = true := rfl
@[simp] theorem complete_err (s : State) : (complete s).err = s.err := rfl
@[simp] theorem complete_cause (s : State) : (complete s).cause = s.cause := rfl
@[simp] theorem complete_phase (s : State) : (complete s).phase = .idle := rfl
@[simp] theorem complete_rf (s : State) : (complete s).rf = s.rf := rfl
@[simp] theorem complete_kreg (s : State) : (complete s).kreg = s.kreg := rfl
@[simp] theorem complete_cst (s : State) : (complete s).cst = s.cst := rfl
@[simp] theorem complete_denc1 (s : State) : (complete s).denc1 = s.denc1 := rfl
@[simp] theorem complete_denc2 (s : State) : (complete s).denc2 = s.denc2 := rfl
@[simp] theorem complete_workers (s : State) : (complete s).workers = s.workers := rfl
@[simp] theorem complete_lanes (s : State) : (complete s).lanes = s.lanes := rfl
@[simp] theorem complete_tf (s : State) : (complete s).tf = s.tf := rfl
@[simp] theorem complete_tb (s : State) : (complete s).tb = s.tb := rfl
@[simp] theorem complete_op (s : State) : (complete s).op = s.op := rfl
@[simp] theorem complete_upc (s : State) : (complete s).upc = s.upc := rfl
@[simp] theorem complete_gdone (s : State) : (complete s).gdone = s.gdone := rfl
@[simp] theorem complete_i (s : State) : (complete s).i = s.i := rfl
@[simp] theorem complete_j (s : State) : (complete s).j = s.j := rfl
@[simp] theorem complete_ie (s : State) : (complete s).ie = s.ie := rfl
@[simp] theorem complete_je (s : State) : (complete s).je = s.je := rfl
@[simp] theorem complete_a (s : State) : (complete s).a = s.a := rfl
@[simp] theorem complete_b (s : State) : (complete s).b = s.b := rfl
@[simp] theorem complete_jend (s : State) : (complete s).jend = s.jend := rfl
@[simp] theorem complete_vq (s : State) : (complete s).vq = s.vq := rfl
@[simp] theorem complete_rdata (s : State) : (complete s).rdata = s.rdata := rfl
@[simp] theorem complete_draws (s : State) : (complete s).draws = s.draws := rfl
@[simp] theorem complete_agenda (s : State) : (complete s).agenda = s.agenda := rfl

/-! ### discardTables (R68) -/

@[simp] theorem discardTables_params (s : State) : (discardTables s).params = s.params := rfl
@[simp] theorem discardTables_k1 (s : State) : (discardTables s).k1 = s.k1 := rfl
@[simp] theorem discardTables_k2 (s : State) : (discardTables s).k2 = s.k2 := rfl
@[simp] theorem discardTables_din (s : State) : (discardTables s).din = s.din := rfl
@[simp] theorem discardTables_dout (s : State) : (discardTables s).dout = s.dout := rfl
@[simp] theorem discardTables_p1 (s : State) : (discardTables s).p1 = s.p1 := rfl
@[simp] theorem discardTables_c1 (s : State) : (discardTables s).c1 = s.c1 := rfl
@[simp] theorem discardTables_p2 (s : State) : (discardTables s).p2 = s.p2 := rfl
@[simp] theorem discardTables_c2 (s : State) : (discardTables s).c2 = s.c2 := rfl
@[simp] theorem discardTables_rk (s : State) : (discardTables s).rk = s.rk := rfl
@[simp] theorem discardTables_busy (s : State) : (discardTables s).busy = s.busy := rfl
@[simp] theorem discardTables_done (s : State) : (discardTables s).done = s.done := rfl
@[simp] theorem discardTables_err (s : State) : (discardTables s).err = s.err := rfl
@[simp] theorem discardTables_cause (s : State) : (discardTables s).cause = s.cause := rfl
@[simp] theorem discardTables_phase (s : State) : (discardTables s).phase = s.phase := rfl
@[simp] theorem discardTables_rf (s : State) : (discardTables s).rf = s.rf := rfl
@[simp] theorem discardTables_kreg (s : State) : (discardTables s).kreg = s.kreg := rfl
@[simp] theorem discardTables_cst (s : State) : (discardTables s).cst = s.cst := rfl
@[simp] theorem discardTables_denc1 (s : State) : (discardTables s).denc1 = s.denc1 := rfl
@[simp] theorem discardTables_denc2 (s : State) : (discardTables s).denc2 = s.denc2 := rfl
@[simp] theorem discardTables_workers (s : State) : (discardTables s).workers = s.workers := rfl
@[simp] theorem discardTables_lanes (s : State) : (discardTables s).lanes = s.lanes := rfl
@[simp] theorem discardTables_tf (s : State) : (discardTables s).tf = [] := rfl
@[simp] theorem discardTables_tb (s : State) : (discardTables s).tb = [] := rfl
@[simp] theorem discardTables_op (s : State) : (discardTables s).op = s.op := rfl
@[simp] theorem discardTables_upc (s : State) : (discardTables s).upc = s.upc := rfl
@[simp] theorem discardTables_gdone (s : State) : (discardTables s).gdone = s.gdone := rfl
@[simp] theorem discardTables_i (s : State) : (discardTables s).i = s.i := rfl
@[simp] theorem discardTables_j (s : State) : (discardTables s).j = s.j := rfl
@[simp] theorem discardTables_ie (s : State) : (discardTables s).ie = s.ie := rfl
@[simp] theorem discardTables_je (s : State) : (discardTables s).je = s.je := rfl
@[simp] theorem discardTables_a (s : State) : (discardTables s).a = s.a := rfl
@[simp] theorem discardTables_b (s : State) : (discardTables s).b = s.b := rfl
@[simp] theorem discardTables_jend (s : State) : (discardTables s).jend = s.jend := rfl
@[simp] theorem discardTables_vq (s : State) : (discardTables s).vq = s.vq := rfl
@[simp] theorem discardTables_rdata (s : State) : (discardTables s).rdata = s.rdata := rfl
@[simp] theorem discardTables_draws (s : State) : (discardTables s).draws = s.draws + 1 := rfl
@[simp] theorem discardTables_agenda (s : State) : (discardTables s).agenda = s.agenda := rfl

/-! ### resetCore (R270) -/

@[simp] theorem resetCore_params (s : State) : (resetCore s).params = s.params := rfl
@[simp] theorem resetCore_k1 (s : State) : (resetCore s).k1 = 0 := rfl
@[simp] theorem resetCore_k2 (s : State) : (resetCore s).k2 = 0 := rfl
@[simp] theorem resetCore_din (s : State) : (resetCore s).din = 0 := rfl
@[simp] theorem resetCore_dout (s : State) : (resetCore s).dout = 0 := rfl
@[simp] theorem resetCore_p1 (s : State) : (resetCore s).p1 = 0 := rfl
@[simp] theorem resetCore_c1 (s : State) : (resetCore s).c1 = 0 := rfl
@[simp] theorem resetCore_p2 (s : State) : (resetCore s).p2 = 0 := rfl
@[simp] theorem resetCore_c2 (s : State) : (resetCore s).c2 = 0 := rfl
@[simp] theorem resetCore_rk (s : State) : (resetCore s).rk = Vector.replicate 11 0 := rfl
@[simp] theorem resetCore_busy (s : State) : (resetCore s).busy = false := rfl
@[simp] theorem resetCore_done (s : State) : (resetCore s).done = false := rfl
@[simp] theorem resetCore_err (s : State) : (resetCore s).err = false := rfl
@[simp] theorem resetCore_cause (s : State) : (resetCore s).cause = .noCause := rfl
@[simp] theorem resetCore_phase (s : State) : (resetCore s).phase = .idle := rfl
@[simp] theorem resetCore_rf (s : State) : (resetCore s).rf = [] := rfl
@[simp] theorem resetCore_kreg (s : State) : (resetCore s).kreg = 0 := rfl
@[simp] theorem resetCore_cst (s : State) : (resetCore s).cst = 0 := rfl
@[simp] theorem resetCore_denc1 (s : State) : (resetCore s).denc1 = CipherRegs.zero := rfl
@[simp] theorem resetCore_denc2 (s : State) : (resetCore s).denc2 = CipherRegs.zero := rfl
@[simp] theorem resetCore_workers (s : State) : (resetCore s).workers = List.replicate s.params.workers CipherRegs.zero := rfl
@[simp] theorem resetCore_lanes (s : State) : (resetCore s).lanes = List.replicate s.params.lanes CipherRegs.zero := rfl
@[simp] theorem resetCore_tf (s : State) : (resetCore s).tf = [] := rfl
@[simp] theorem resetCore_tb (s : State) : (resetCore s).tb = [] := rfl
@[simp] theorem resetCore_op (s : State) : (resetCore s).op = .nop := rfl
@[simp] theorem resetCore_upc (s : State) : (resetCore s).upc = 0 := rfl
@[simp] theorem resetCore_gdone (s : State) : (resetCore s).gdone = [] := rfl
@[simp] theorem resetCore_i (s : State) : (resetCore s).i = 0 := rfl
@[simp] theorem resetCore_j (s : State) : (resetCore s).j = 0 := rfl
@[simp] theorem resetCore_ie (s : State) : (resetCore s).ie = 0 := rfl
@[simp] theorem resetCore_je (s : State) : (resetCore s).je = 0 := rfl
@[simp] theorem resetCore_a (s : State) : (resetCore s).a = 0 := rfl
@[simp] theorem resetCore_b (s : State) : (resetCore s).b = 0 := rfl
@[simp] theorem resetCore_jend (s : State) : (resetCore s).jend = false := rfl
@[simp] theorem resetCore_vq (s : State) : (resetCore s).vq = [] := rfl
@[simp] theorem resetCore_rdata (s : State) : (resetCore s).rdata = s.rdata := rfl
@[simp] theorem resetCore_draws (s : State) : (resetCore s).draws = s.draws + 1 := rfl
@[simp] theorem resetCore_agenda (s : State) : (resetCore s).agenda = s.agenda := rfl

/-! ### setOperand (R221) -/

@[simp] theorem setOperand_params (r : OperandReg) (x : Block) (s : State) : (setOperand r x s).params = s.params := by cases r <;> rfl
@[simp] theorem setOperand_dout (r : OperandReg) (x : Block) (s : State) : (setOperand r x s).dout = s.dout := by cases r <;> rfl
@[simp] theorem setOperand_busy (r : OperandReg) (x : Block) (s : State) : (setOperand r x s).busy = s.busy := by cases r <;> rfl
@[simp] theorem setOperand_done (r : OperandReg) (x : Block) (s : State) : (setOperand r x s).done = s.done := by cases r <;> rfl
@[simp] theorem setOperand_err (r : OperandReg) (x : Block) (s : State) : (setOperand r x s).err = s.err := by cases r <;> rfl
@[simp] theorem setOperand_cause (r : OperandReg) (x : Block) (s : State) : (setOperand r x s).cause = s.cause := by cases r <;> rfl
@[simp] theorem setOperand_phase (r : OperandReg) (x : Block) (s : State) : (setOperand r x s).phase = s.phase := by cases r <;> rfl
@[simp] theorem setOperand_rf (r : OperandReg) (x : Block) (s : State) : (setOperand r x s).rf = s.rf := by cases r <;> rfl
@[simp] theorem setOperand_kreg (r : OperandReg) (x : Block) (s : State) : (setOperand r x s).kreg = s.kreg := by cases r <;> rfl
@[simp] theorem setOperand_cst (r : OperandReg) (x : Block) (s : State) : (setOperand r x s).cst = s.cst := by cases r <;> rfl
@[simp] theorem setOperand_denc1 (r : OperandReg) (x : Block) (s : State) : (setOperand r x s).denc1 = s.denc1 := by cases r <;> rfl
@[simp] theorem setOperand_denc2 (r : OperandReg) (x : Block) (s : State) : (setOperand r x s).denc2 = s.denc2 := by cases r <;> rfl
@[simp] theorem setOperand_workers (r : OperandReg) (x : Block) (s : State) : (setOperand r x s).workers = s.workers := by cases r <;> rfl
@[simp] theorem setOperand_lanes (r : OperandReg) (x : Block) (s : State) : (setOperand r x s).lanes = s.lanes := by cases r <;> rfl
@[simp] theorem setOperand_tf (r : OperandReg) (x : Block) (s : State) : (setOperand r x s).tf = s.tf := by cases r <;> rfl
@[simp] theorem setOperand_tb (r : OperandReg) (x : Block) (s : State) : (setOperand r x s).tb = s.tb := by cases r <;> rfl
@[simp] theorem setOperand_op (r : OperandReg) (x : Block) (s : State) : (setOperand r x s).op = s.op := by cases r <;> rfl
@[simp] theorem setOperand_upc (r : OperandReg) (x : Block) (s : State) : (setOperand r x s).upc = s.upc := by cases r <;> rfl
@[simp] theorem setOperand_gdone (r : OperandReg) (x : Block) (s : State) : (setOperand r x s).gdone = s.gdone := by cases r <;> rfl
@[simp] theorem setOperand_i (r : OperandReg) (x : Block) (s : State) : (setOperand r x s).i = s.i := by cases r <;> rfl
@[simp] theorem setOperand_j (r : OperandReg) (x : Block) (s : State) : (setOperand r x s).j = s.j := by cases r <;> rfl
@[simp] theorem setOperand_ie (r : OperandReg) (x : Block) (s : State) : (setOperand r x s).ie = s.ie := by cases r <;> rfl
@[simp] theorem setOperand_je (r : OperandReg) (x : Block) (s : State) : (setOperand r x s).je = s.je := by cases r <;> rfl
@[simp] theorem setOperand_a (r : OperandReg) (x : Block) (s : State) : (setOperand r x s).a = s.a := by cases r <;> rfl
@[simp] theorem setOperand_b (r : OperandReg) (x : Block) (s : State) : (setOperand r x s).b = s.b := by cases r <;> rfl
@[simp] theorem setOperand_jend (r : OperandReg) (x : Block) (s : State) : (setOperand r x s).jend = s.jend := by cases r <;> rfl
@[simp] theorem setOperand_vq (r : OperandReg) (x : Block) (s : State) : (setOperand r x s).vq = s.vq := by cases r <;> rfl
@[simp] theorem setOperand_rdata (r : OperandReg) (x : Block) (s : State) : (setOperand r x s).rdata = s.rdata := by cases r <;> rfl
@[simp] theorem setOperand_draws (r : OperandReg) (x : Block) (s : State) : (setOperand r x s).draws = s.draws := by cases r <;> rfl
@[simp] theorem setOperand_agenda (r : OperandReg) (x : Block) (s : State) : (setOperand r x s).agenda = s.agenda := by cases r <;> rfl

/-! ### memWrite (00_scope.md 6.2) -/

@[simp] theorem memWrite_params (t : Side) (x : Nat) (e : Entry) (s : State) : (memWrite t x e s).params = s.params := by cases t <;> rfl
@[simp] theorem memWrite_k1 (t : Side) (x : Nat) (e : Entry) (s : State) : (memWrite t x e s).k1 = s.k1 := by cases t <;> rfl
@[simp] theorem memWrite_k2 (t : Side) (x : Nat) (e : Entry) (s : State) : (memWrite t x e s).k2 = s.k2 := by cases t <;> rfl
@[simp] theorem memWrite_din (t : Side) (x : Nat) (e : Entry) (s : State) : (memWrite t x e s).din = s.din := by cases t <;> rfl
@[simp] theorem memWrite_dout (t : Side) (x : Nat) (e : Entry) (s : State) : (memWrite t x e s).dout = s.dout := by cases t <;> rfl
@[simp] theorem memWrite_p1 (t : Side) (x : Nat) (e : Entry) (s : State) : (memWrite t x e s).p1 = s.p1 := by cases t <;> rfl
@[simp] theorem memWrite_c1 (t : Side) (x : Nat) (e : Entry) (s : State) : (memWrite t x e s).c1 = s.c1 := by cases t <;> rfl
@[simp] theorem memWrite_p2 (t : Side) (x : Nat) (e : Entry) (s : State) : (memWrite t x e s).p2 = s.p2 := by cases t <;> rfl
@[simp] theorem memWrite_c2 (t : Side) (x : Nat) (e : Entry) (s : State) : (memWrite t x e s).c2 = s.c2 := by cases t <;> rfl
@[simp] theorem memWrite_rk (t : Side) (x : Nat) (e : Entry) (s : State) : (memWrite t x e s).rk = s.rk := by cases t <;> rfl
@[simp] theorem memWrite_busy (t : Side) (x : Nat) (e : Entry) (s : State) : (memWrite t x e s).busy = s.busy := by cases t <;> rfl
@[simp] theorem memWrite_done (t : Side) (x : Nat) (e : Entry) (s : State) : (memWrite t x e s).done = s.done := by cases t <;> rfl
@[simp] theorem memWrite_err (t : Side) (x : Nat) (e : Entry) (s : State) : (memWrite t x e s).err = s.err := by cases t <;> rfl
@[simp] theorem memWrite_cause (t : Side) (x : Nat) (e : Entry) (s : State) : (memWrite t x e s).cause = s.cause := by cases t <;> rfl
@[simp] theorem memWrite_phase (t : Side) (x : Nat) (e : Entry) (s : State) : (memWrite t x e s).phase = s.phase := by cases t <;> rfl
@[simp] theorem memWrite_rf (t : Side) (x : Nat) (e : Entry) (s : State) : (memWrite t x e s).rf = s.rf := by cases t <;> rfl
@[simp] theorem memWrite_kreg (t : Side) (x : Nat) (e : Entry) (s : State) : (memWrite t x e s).kreg = s.kreg := by cases t <;> rfl
@[simp] theorem memWrite_cst (t : Side) (x : Nat) (e : Entry) (s : State) : (memWrite t x e s).cst = s.cst := by cases t <;> rfl
@[simp] theorem memWrite_denc1 (t : Side) (x : Nat) (e : Entry) (s : State) : (memWrite t x e s).denc1 = s.denc1 := by cases t <;> rfl
@[simp] theorem memWrite_denc2 (t : Side) (x : Nat) (e : Entry) (s : State) : (memWrite t x e s).denc2 = s.denc2 := by cases t <;> rfl
@[simp] theorem memWrite_workers (t : Side) (x : Nat) (e : Entry) (s : State) : (memWrite t x e s).workers = s.workers := by cases t <;> rfl
@[simp] theorem memWrite_lanes (t : Side) (x : Nat) (e : Entry) (s : State) : (memWrite t x e s).lanes = s.lanes := by cases t <;> rfl
@[simp] theorem memWrite_op (t : Side) (x : Nat) (e : Entry) (s : State) : (memWrite t x e s).op = s.op := by cases t <;> rfl
@[simp] theorem memWrite_upc (t : Side) (x : Nat) (e : Entry) (s : State) : (memWrite t x e s).upc = s.upc := by cases t <;> rfl
@[simp] theorem memWrite_gdone (t : Side) (x : Nat) (e : Entry) (s : State) : (memWrite t x e s).gdone = s.gdone := by cases t <;> rfl
@[simp] theorem memWrite_i (t : Side) (x : Nat) (e : Entry) (s : State) : (memWrite t x e s).i = s.i := by cases t <;> rfl
@[simp] theorem memWrite_j (t : Side) (x : Nat) (e : Entry) (s : State) : (memWrite t x e s).j = s.j := by cases t <;> rfl
@[simp] theorem memWrite_ie (t : Side) (x : Nat) (e : Entry) (s : State) : (memWrite t x e s).ie = s.ie := by cases t <;> rfl
@[simp] theorem memWrite_je (t : Side) (x : Nat) (e : Entry) (s : State) : (memWrite t x e s).je = s.je := by cases t <;> rfl
@[simp] theorem memWrite_a (t : Side) (x : Nat) (e : Entry) (s : State) : (memWrite t x e s).a = s.a := by cases t <;> rfl
@[simp] theorem memWrite_b (t : Side) (x : Nat) (e : Entry) (s : State) : (memWrite t x e s).b = s.b := by cases t <;> rfl
@[simp] theorem memWrite_jend (t : Side) (x : Nat) (e : Entry) (s : State) : (memWrite t x e s).jend = s.jend := by cases t <;> rfl
@[simp] theorem memWrite_vq (t : Side) (x : Nat) (e : Entry) (s : State) : (memWrite t x e s).vq = s.vq := by cases t <;> rfl
@[simp] theorem memWrite_rdata (t : Side) (x : Nat) (e : Entry) (s : State) : (memWrite t x e s).rdata = s.rdata := by cases t <;> rfl
@[simp] theorem memWrite_draws (t : Side) (x : Nat) (e : Entry) (s : State) : (memWrite t x e s).draws = s.draws := by cases t <;> rfl
@[simp] theorem memWrite_agenda (t : Side) (x : Nat) (e : Entry) (s : State) : (memWrite t x e s).agenda = s.agenda := by cases t <;> rfl

/-! ### setCipherRegs (R29 to R31) -/

@[simp] theorem setCipherRegs_params (p : Datapath) (c : CipherRegs) (s : State) : (setCipherRegs p c s).params = s.params := by cases p <;> rfl
@[simp] theorem setCipherRegs_k1 (p : Datapath) (c : CipherRegs) (s : State) : (setCipherRegs p c s).k1 = s.k1 := by cases p <;> rfl
@[simp] theorem setCipherRegs_k2 (p : Datapath) (c : CipherRegs) (s : State) : (setCipherRegs p c s).k2 = s.k2 := by cases p <;> rfl
@[simp] theorem setCipherRegs_din (p : Datapath) (c : CipherRegs) (s : State) : (setCipherRegs p c s).din = s.din := by cases p <;> rfl
@[simp] theorem setCipherRegs_dout (p : Datapath) (c : CipherRegs) (s : State) : (setCipherRegs p c s).dout = s.dout := by cases p <;> rfl
@[simp] theorem setCipherRegs_p1 (p : Datapath) (c : CipherRegs) (s : State) : (setCipherRegs p c s).p1 = s.p1 := by cases p <;> rfl
@[simp] theorem setCipherRegs_c1 (p : Datapath) (c : CipherRegs) (s : State) : (setCipherRegs p c s).c1 = s.c1 := by cases p <;> rfl
@[simp] theorem setCipherRegs_p2 (p : Datapath) (c : CipherRegs) (s : State) : (setCipherRegs p c s).p2 = s.p2 := by cases p <;> rfl
@[simp] theorem setCipherRegs_c2 (p : Datapath) (c : CipherRegs) (s : State) : (setCipherRegs p c s).c2 = s.c2 := by cases p <;> rfl
@[simp] theorem setCipherRegs_busy (p : Datapath) (c : CipherRegs) (s : State) : (setCipherRegs p c s).busy = s.busy := by cases p <;> rfl
@[simp] theorem setCipherRegs_done (p : Datapath) (c : CipherRegs) (s : State) : (setCipherRegs p c s).done = s.done := by cases p <;> rfl
@[simp] theorem setCipherRegs_err (p : Datapath) (c : CipherRegs) (s : State) : (setCipherRegs p c s).err = s.err := by cases p <;> rfl
@[simp] theorem setCipherRegs_cause (p : Datapath) (c : CipherRegs) (s : State) : (setCipherRegs p c s).cause = s.cause := by cases p <;> rfl
@[simp] theorem setCipherRegs_phase (p : Datapath) (c : CipherRegs) (s : State) : (setCipherRegs p c s).phase = s.phase := by cases p <;> rfl
@[simp] theorem setCipherRegs_rf (p : Datapath) (c : CipherRegs) (s : State) : (setCipherRegs p c s).rf = s.rf := by cases p <;> rfl
@[simp] theorem setCipherRegs_workers (p : Datapath) (c : CipherRegs) (s : State) : (setCipherRegs p c s).workers = s.workers := by cases p <;> rfl
@[simp] theorem setCipherRegs_lanes (p : Datapath) (c : CipherRegs) (s : State) : (setCipherRegs p c s).lanes = s.lanes := by cases p <;> rfl
@[simp] theorem setCipherRegs_tf (p : Datapath) (c : CipherRegs) (s : State) : (setCipherRegs p c s).tf = s.tf := by cases p <;> rfl
@[simp] theorem setCipherRegs_tb (p : Datapath) (c : CipherRegs) (s : State) : (setCipherRegs p c s).tb = s.tb := by cases p <;> rfl
@[simp] theorem setCipherRegs_op (p : Datapath) (c : CipherRegs) (s : State) : (setCipherRegs p c s).op = s.op := by cases p <;> rfl
@[simp] theorem setCipherRegs_upc (p : Datapath) (c : CipherRegs) (s : State) : (setCipherRegs p c s).upc = s.upc := by cases p <;> rfl
@[simp] theorem setCipherRegs_gdone (p : Datapath) (c : CipherRegs) (s : State) : (setCipherRegs p c s).gdone = s.gdone := by cases p <;> rfl
@[simp] theorem setCipherRegs_i (p : Datapath) (c : CipherRegs) (s : State) : (setCipherRegs p c s).i = s.i := by cases p <;> rfl
@[simp] theorem setCipherRegs_j (p : Datapath) (c : CipherRegs) (s : State) : (setCipherRegs p c s).j = s.j := by cases p <;> rfl
@[simp] theorem setCipherRegs_ie (p : Datapath) (c : CipherRegs) (s : State) : (setCipherRegs p c s).ie = s.ie := by cases p <;> rfl
@[simp] theorem setCipherRegs_je (p : Datapath) (c : CipherRegs) (s : State) : (setCipherRegs p c s).je = s.je := by cases p <;> rfl
@[simp] theorem setCipherRegs_a (p : Datapath) (c : CipherRegs) (s : State) : (setCipherRegs p c s).a = s.a := by cases p <;> rfl
@[simp] theorem setCipherRegs_b (p : Datapath) (c : CipherRegs) (s : State) : (setCipherRegs p c s).b = s.b := by cases p <;> rfl
@[simp] theorem setCipherRegs_jend (p : Datapath) (c : CipherRegs) (s : State) : (setCipherRegs p c s).jend = s.jend := by cases p <;> rfl
@[simp] theorem setCipherRegs_vq (p : Datapath) (c : CipherRegs) (s : State) : (setCipherRegs p c s).vq = s.vq := by cases p <;> rfl
@[simp] theorem setCipherRegs_rdata (p : Datapath) (c : CipherRegs) (s : State) : (setCipherRegs p c s).rdata = s.rdata := by cases p <;> rfl
@[simp] theorem setCipherRegs_draws (p : Datapath) (c : CipherRegs) (s : State) : (setCipherRegs p c s).draws = s.draws := by cases p <;> rfl
@[simp] theorem setCipherRegs_agenda (p : Datapath) (c : CipherRegs) (s : State) : (setCipherRegs p c s).agenda = s.agenda := by cases p <;> rfl

@[simp] theorem memWrite_fwd_tf (x : Nat) (e : Entry) (s : State) :
    (memWrite .fwd x e s).tf = Memory.write s.tf x e := rfl
@[simp] theorem memWrite_bwd_tb (x : Nat) (e : Entry) (s : State) :
    (memWrite .bwd x e s).tb = Memory.write s.tb x e := rfl
@[simp] theorem memWrite_fwd_tb (x : Nat) (e : Entry) (s : State) : (memWrite .fwd x e s).tb = s.tb := rfl
@[simp] theorem memWrite_bwd_tf (x : Nat) (e : Entry) (s : State) : (memWrite .bwd x e s).tf = s.tf := rfl

end Sys2Proof.Machine
end

