-- ==== Sys2Proof/Laws/Ops.lean ====
section
/-! SUPPORT. What the shared operations of Machine/Ops.lean and Machine/Operands.lean do: the table memories keep their
canonical form and read back what was written, and the cipher registers likewise. -/

namespace Sys2Proof.Machine

open Sys2Proof.Config

/-! ### Table memories -/

@[simp] theorem Memory.lookup_nil (x : Nat) : Memory.lookup [] x = none := rfl

@[simp] theorem Memory.lookup_cons (k : Nat) (e : Entry) (m : Memory) (x : Nat) :
    Memory.lookup ((k, e) :: m) x = if k = x then some e else Memory.lookup m x := rfl

/-- Reading after a write: the entry written at its index, the old one elsewhere. -/
theorem Memory.lookup_write (m : Memory) (x : Nat) (e : Entry) (y : Nat) :
    Memory.lookup (Memory.write m x e) y = if y = x then some e else Memory.lookup m y := by
  induction m with
  | nil => simp [Memory.write, eq_comm]
  | cons hd m ih =>
    obtain ⟨k, d⟩ := hd
    simp only [Memory.write]
    split_ifs <;> simp_all [eq_comm]

/-- A write adds no index but its own. -/
theorem Memory.mem_write {m : Memory} {x : Nat} {e : Entry} {c : Nat × Entry} (h : c ∈ Memory.write m x e) :
    c = (x, e) ∨ c ∈ m := by
  induction m with
  | nil => simpa [Memory.write] using h
  | cons hd m ih =>
    obtain ⟨k, d⟩ := hd
    simp only [Memory.write] at h
    split_ifs at h <;> grind

theorem Memory.wf_nil : Memory.wf [] := List.Pairwise.nil

/-- A write keeps the canonical form. -/
theorem Memory.wf_write {m : Memory} (h : Memory.wf m) (x : Nat) (e : Entry) : Memory.wf (Memory.write m x e) := by
  induction m with
  | nil => simp [Memory.wf, Memory.write]
  | cons hd m ih =>
    obtain ⟨k, d⟩ := hd
    obtain ⟨hk, hm⟩ := List.pairwise_cons.mp h
    simp only [Memory.write]
    split_ifs with h1 h2
    · refine List.pairwise_cons.mpr ⟨?_, h⟩
      rintro c (_ | ⟨_, hc⟩)
      · exact h1
      · exact h1.trans (hk c hc)
    · exact List.pairwise_cons.mpr ⟨fun c hc => h2 ▸ hk c hc, hm⟩
    · refine List.pairwise_cons.mpr ⟨fun c hc => ?_, ih hm⟩
      rcases Memory.mem_write hc with rfl | hc
      · simp only; omega
      · exact hk c hc

theorem Memory.lt_of_mem_ofEntriesFrom {l : List Entry} {x : Nat} {c : Nat × Entry}
    (h : c ∈ Memory.ofEntriesFrom x l) : x ≤ c.1 := by
  induction l generalizing x with
  | nil => simp [Memory.ofEntriesFrom] at h
  | cons e l ih =>
    rcases List.mem_cons.mp h with rfl | h
    · exact le_rfl
    · exact (Nat.le_succ x).trans (ih h)

/-- A table written as a whole is in canonical form. -/
theorem Memory.wf_ofEntriesFrom (l : List Entry) (x : Nat) : Memory.wf (Memory.ofEntriesFrom x l) := by
  induction l generalizing x with
  | nil => exact List.Pairwise.nil
  | cons e l ih => exact List.pairwise_cons.mpr ⟨fun c hc => Memory.lt_of_mem_ofEntriesFrom hc, ih (x + 1)⟩

/-- A table written as a whole reads back entry by entry. -/
theorem Memory.lookup_ofEntriesFrom (l : List Entry) (x y : Nat) :
    Memory.lookup (Memory.ofEntriesFrom x l) (x + y) = l[y]? := by
  induction l generalizing x y with
  | nil => rfl
  | cons e l ih =>
    cases y with
    | zero => simp [Memory.ofEntriesFrom]
    | succ y =>
      have : x + (y + 1) = (x + 1) + y := by omega
      rw [this]
      simpa [Memory.ofEntriesFrom, show x ≠ x + 1 + y by omega] using ih (x + 1) y

@[simp] theorem Memory.lookup_ofEntries (l : List Entry) (y : Nat) :
    Memory.lookup (Memory.ofEntriesFrom 0 l) y = l[y]? := by simpa using Memory.lookup_ofEntriesFrom l 0 y

/-- The memories of the reset state are in canonical form. -/
theorem State.reset_memories_wf : Memory.wf State.reset.tf ∧ Memory.wf State.reset.tb := ⟨Memory.wf_nil, Memory.wf_nil⟩

/-- Both memories keep their canonical form through `MemWrite`. -/
theorem memWrite_wf {s : State} (h : Memory.wf s.tf ∧ Memory.wf s.tb) (t : Side) (x : Nat) (e : Entry) :
    Memory.wf (memWrite t x e s).tf ∧ Memory.wf (memWrite t x e s).tb := by
  cases t
  · exact ⟨Memory.wf_write h.1 x e, h.2⟩
  · exact ⟨h.1, Memory.wf_write h.2 x e⟩

/-- `MemWrite` changes nothing but the two memories. -/
theorem memWrite_frame (t : Side) (x : Nat) (e : Entry) (s : State) :
    memWrite t x e s = { s with tf := (memWrite t x e s).tf, tb := (memWrite t x e s).tb } := by cases t <;> rfl

/-- `MemRead` where an entry is listed. -/
theorem memRead_of_lookup {s : State} {t : Side} {x : Nat} {e : Entry} (h : Memory.lookup (s.table t) x = some e) :
    memRead s t x = e := by simp [memRead, h]

@[simp] theorem tableEntries_length (s : State) (t : Side) : (tableEntries s t).length = s.params.n := by
  simp [tableEntries]

/-- A table that holds `N` entries is the list of them. -/
theorem tableEntries_eq {s : State} {t : Side} {l : List Entry} (hl : l.length = s.params.n)
    (h : ∀ x, x < l.length → Memory.lookup (s.table t) x = l[x]?) : tableEntries s t = l := by
  apply List.ext_getElem
  · simp [hl]
  · intro x _ hx
    simp only [tableEntries, List.getElem_map, List.getElem_range]
    apply memRead_of_lookup
    rw [h x hx, List.getElem?_eq_getElem hx]

/-! ### Cipher registers -/

@[simp] theorem cipherRegs_setCipherRegs (p : Datapath) (c : CipherRegs) (s : State) :
    cipherRegs (setCipherRegs p c s) p = c := by cases p <;> rfl

theorem cipherRegs_setCipherRegs_of_ne {p q : Datapath} (h : q ≠ p) (c : CipherRegs) (s : State) :
    cipherRegs (setCipherRegs p c s) q = cipherRegs s q := by cases p <;> cases q <;> first | rfl | exact absurd rfl h

@[simp] theorem cipherRegs_setCipherState (p : Datapath) (b : Block) (s : State) :
    cipherRegs (setCipherState p b s) p = { cipherRegs s p with st := b } := by simp [setCipherState]

@[simp] theorem cipherRegs_setKeyReg (p : Datapath) (r : KeyReg) (s : State) :
    cipherRegs (setKeyReg p r s) p = { cipherRegs s p with kreg := r } := by simp [setKeyReg]

@[simp] theorem cipherRegs_setRoundKey (p : Datapath) (i : Fin 11) (b : Block) (s : State) :
    cipherRegs (setRoundKey p i b s) p = { cipherRegs s p with rk := (cipherRegs s p).rk.set i.val b } := by
  simp [setRoundKey]

/-! ### The command protocol -/

theorem accept_mitm (s : State) : accept .mitm s = beginCommand .mitm .gen (flush s) := rfl

theorem accept_short {o : Op} (h : o ≠ .mitm) (s : State) : accept o s = beginCommand o .short s := by simp [accept, h]

theorem command_of_busy {s : State} (h : s.busy = true) (o : Op) : command o s = refuse .busywr s := by
  simp [command, h]

theorem command_of_ready {s : State} (h : s.busy = false) (o : Op) : command o s = accept o s := by simp [command, h]

theorem writeOperand_of_busy {s : State} (h : s.busy = true) (r : OperandReg) (d : HostWord) :
    writeOperand r d s = refuse .busywr s := by simp [writeOperand, h]

theorem writeOperand_of_ready {s : State} (h : s.busy = false) (r : OperandReg) (d : HostWord) :
    writeOperand r d s = setOperand r (low24 d) s := by simp [writeOperand, h]

/-- An operand register reads back what was stored, and no other operand register changes (R221). -/
theorem operand_setOperand (r q : OperandReg) (x : Block) (s : State) :
    operand (setOperand r x s) q = if q = r then x else operand s q := by
  cases r <;> cases q <;> simp [operand, setOperand]
  rename_i i j
  by_cases h : j = i
  · simp [h]
  · simp [h, Vector.getElem_set_ne (h := fun e => h (Fin.ext e.symm))]

end Sys2Proof.Machine
end

