-- ==== Sys2Proof/Laws/Engine.lean ====
section
/-! SUPPORT. What the operations of the search engine do: marked keys, sorting, the runs of the merge-join, an emission,
and when each micro-operation is enabled. -/

namespace Sys2Proof.Machine

open Sys2Proof.Config

/-! ### Marked keys (R33, R182, R183) -/

@[simp] theorem mem_markKey {l : List Nat} {k m : Nat} : m ∈ markKey l k ↔ m = k ∨ m ∈ l := by
  induction l with
  | nil => simp [markKey]
  | cons a l ih => simp only [markKey]; split_ifs <;> simp_all; grind

theorem markKey_rising {l : List Nat} (h : l.Pairwise (· < ·)) (k : Nat) : (markKey l k).Pairwise (· < ·) := by
  induction l with
  | nil => simp [markKey]
  | cons a l ih =>
    obtain ⟨h1, h2⟩ := List.pairwise_cons.mp h
    simp only [markKey]
    split_ifs with c d
    · exact List.pairwise_cons.mpr ⟨by grind, h⟩
    · exact h
    · simp only [List.pairwise_cons, mem_markKey]
      exact ⟨by grind, ih h2⟩

/-- The least key a rising list does not hold, from `k` on: it is not held, and every key from `k` to it is. -/
theorem nextKey_spec {l : List Nat} (h : l.Pairwise (· < ·)) (k : Nat) (hk : ∀ m ∈ l, k ≤ m) :
    k ≤ nextKey k l ∧ nextKey k l ∉ l ∧ ∀ m, k ≤ m → m < nextKey k l → m ∈ l := by
  induction l generalizing k with
  | nil => simp [nextKey]
  | cons a l ih =>
    obtain ⟨h1, h2⟩ := List.pairwise_cons.mp h
    simp only [nextKey]
    split_ifs with c
    · subst c
      obtain ⟨a1, a2, a3⟩ := ih h2 (a + 1) fun m hm => h1 m hm
      refine ⟨by omega, ?_, fun m hm hl => ?_⟩
      · simp only [List.mem_cons, not_or]
        exact ⟨by omega, a2⟩
      · rcases Nat.eq_or_lt_of_le hm with rfl | hm
        · exact List.mem_cons_self
        · exact List.mem_cons_of_mem _ (a3 m hm hl)
    · refine ⟨le_rfl, fun hm => ?_, fun m _ _ => by omega⟩
      rcases List.mem_cons.mp hm with e | hm
      · exact c e.symm
      · have := h1 k hm
        have := hk a List.mem_cons_self
        omega

/-- Generation is over exactly when every key of `[0, N)` is marked (R183). -/
theorem allGenerated_iff {s : State} (h : s.gdone.Pairwise (· < ·)) :
    allGenerated s = true ↔ ∀ k, k < s.params.n → k ∈ s.gdone := by
  obtain ⟨-, h2, h3⟩ := nextKey_spec h 0 fun m _ => Nat.zero_le m
  simp only [allGenerated, decide_eq_true_eq]
  constructor
  · intro hn k hk
    exact h3 k (Nat.zero_le k) (by omega)
  · intro hall
    by_contra hc
    exact h2 (hall _ (by omega))

theorem genReady_iff {s : State} {w : Nat} {k : Block} :
    genReady s w k = true ↔
      s.phase = .gen ∧ w < s.params.workers ∧ k.toNat < s.params.n ∧ k.toNat ∉ s.gdone := by
  simp [genReady, and_assoc]

/-! ### Sorting (R186) -/

theorem ascending_iff {l : List Entry} : ascending l = true ↔ l.Pairwise (· ≤ ·) := by
  induction l with
  | nil => simp [ascending]
  | cons d l ih =>
    cases l with
    | nil => simp [ascending]
    | cons e l =>
      simp only [ascending, Bool.and_eq_true, decide_eq_true_eq, ih, List.pairwise_cons, List.mem_cons]
      constructor
      · rintro ⟨h, h1, h2⟩
        refine ⟨?_, h1, h2⟩
        rintro a (rfl | ha)
        · exact h
        · exact BitVec.le_trans h (h1 a ha)
      · rintro ⟨h, h1, h2⟩
        exact ⟨h e (.inl rfl), h1, h2⟩

theorem sortEntries_perm (l : List Entry) : (sortEntries l).Perm l := List.perm_insertionSort _ l

theorem sortEntries_ascending (l : List Entry) : (sortEntries l).Pairwise (· ≤ ·) :=
  List.pairwise_insertionSort (· ≤ ·) l

/-! ### The merge-join (R188 to R192) -/

theorem emitting_iff {s : State} : emitting s = true ↔ s.i < s.ie ∧ s.j < s.je := by simp [emitting]

theorem comparing_iff {s : State} :
    comparing s = true ↔ s.phase = .join ∧ s.jend = false ∧ emitting s = false ∧ s.i < s.params.n ∧ s.j < s.params.n := by
  simp [comparing, joinOn, and_assoc]

theorem advfReady_iff {s : State} : advfReady s = true ↔ comparing s = true ∧ valueF s < valueB s := by
  simp [advfReady]

theorem advbReady_iff {s : State} : advbReady s = true ↔ comparing s = true ∧ valueB s < valueF s := by
  simp [advbReady]

theorem emitxReady_iff {s : State} :
    emitxReady s = true ↔ s.phase = .join ∧ s.jend = false ∧
      (emitting s = true ∨
        (emitting s = false ∧ s.i < s.params.n ∧ s.j < s.params.n ∧ valueF s = valueB s)) := by
  unfold emitxReady comparing joinOn
  generalize emitting s = e
  cases e <;> simp; tauto

theorem joinAtEnd_iff {s : State} :
    joinAtEnd s = true ↔
      s.phase = .join ∧ s.jend = false ∧ emitting s = false ∧ (s.params.n ≤ s.i ∨ s.params.n ≤ s.j) := by
  simp [joinAtEnd, joinOn, and_assoc]

/-- One past the run of value `v` that stands at `x`: every entry before it has the value, the entry there has not. -/
theorem runEnd_spec (read : Nat → Entry) (v : Block) (fuel x : Nat) :
    x ≤ runEnd read v fuel x ∧ runEnd read v fuel x ≤ x + fuel ∧
      (∀ z, x ≤ z → z < runEnd read v fuel x → entryValue (read z) = v) ∧
      (runEnd read v fuel x < x + fuel → entryValue (read (runEnd read v fuel x)) ≠ v) := by
  induction fuel generalizing x with
  | zero => simp [runEnd]; omega
  | succ f ih =>
    simp only [runEnd]
    split_ifs with h
    · obtain ⟨a, b, c, d⟩ := ih (x + 1)
      refine ⟨by omega, by omega, ?_, fun hh => d (by omega)⟩
      intro z h1 h2
      rcases Nat.eq_or_lt_of_le h1 with rfl | h1
      · exact h
      · exact c z h1 h2
    · exact ⟨by omega, by omega, fun z h1 h2 => by omega, fun _ => h⟩

/-- A run that starts at `x` is not empty. -/
theorem lt_runEnd {read : Nat → Entry} {v : Block} {fuel x : Nat} (hf : 0 < fuel) (h : entryValue (read x) = v) :
    x < runEnd read v fuel x := by
  obtain ⟨f, rfl⟩ := Nat.exists_eq_add_of_le' hf
  simp only [runEnd, h, if_true]
  exact (runEnd_spec read v f (x + 1)).1

/-- The end of a run is the one index with the properties of `runEnd_spec`. -/
theorem runEnd_unique {read : Nat → Entry} {v : Block} {fuel x y : Nat} (h1 : x ≤ y) (h2 : y ≤ x + fuel)
    (h3 : ∀ z, x ≤ z → z < y → entryValue (read z) = v) (h4 : y < x + fuel → entryValue (read y) ≠ v) :
    runEnd read v fuel x = y := by
  obtain ⟨a, b, c, d⟩ := runEnd_spec read v fuel x
  rcases Nat.lt_trichotomy (runEnd read v fuel x) y with h | h | h
  · exact absurd (h3 _ a h) (d (by omega))
  · exact h
  · exact absurd (c y h1 h) (h4 (by omega))

theorem emitBegin_frame (s : State) :
    emitBegin s = { s with ie := (emitBegin s).ie, je := (emitBegin s).je, a := (emitBegin s).a, b := (emitBegin s).b } := by
  unfold emitBegin
  split_ifs <;> rfl

theorem emitAdvance_frame (s : State) :
    emitAdvance s =
      { s with a := (emitAdvance s).a, b := (emitAdvance s).b, i := (emitAdvance s).i, j := (emitAdvance s).j } := by
  unfold emitAdvance
  split_ifs <;> rfl

/-- What one emission changes: the cursors, the run ends, the position inside the runs, and the queue. -/
theorem emit_frame (s : State) :
    emitAdvance (emitPair (emitBegin s)) =
      { s with
        a := (emitAdvance (emitPair (emitBegin s))).a
        b := (emitAdvance (emitPair (emitBegin s))).b
        i := (emitAdvance (emitPair (emitBegin s))).i
        j := (emitAdvance (emitPair (emitBegin s))).j
        ie := (emitBegin s).ie
        je := (emitBegin s).je
        vq := (emitPair (emitBegin s)).vq } := by
  rw [emitAdvance_frame (emitPair (emitBegin s))]
  unfold emitPair
  simp only
  rw [emitBegin_frame s]

end Sys2Proof.Machine
end

