-- ==== Sys2Proof/Laws/PerInstr.lean ====
section
/-! SUPPORT. The family Encoding, one lemma per constructor of Instr: the word of a well-formed instruction is taken by
the instruction's own row of spec/opcode_table.json, read in priority order (30_encoding.md R100). Micro-operations and
functions have no word (R103). -/

namespace Sys2Proof.Laws.Encoding

/-- The first row of the opcode table that matches an instruction's word is the instruction's own. -/
def Statement (i : Instr) : Prop :=
  i.wellFormed = true → ∀ t, encode i = some t → firstMatch t = some (mnemonic i)

/-- An instruction without a word meets the statement. -/
theorem of_none {i : Instr} (h : encode i = none) : Statement i := fun _ t ht => by simp [h] at ht

/-- A data word that is no command is above 5. -/
theorem five_lt {d : HostWord} (h : isCommandWord d = false) : 5 < d.toNat := by
  by_contra hc
  have : d = 0 ∨ d = 1 ∨ d = 2 ∨ d = 3 ∨ d = 4 ∨ d = 5 := by
    have : d.toNat ≤ 5 := by omega
    simp only [← BitVec.toNat_inj]
    simp
    omega
  rcases this with rfl | rfl | rfl | rfl | rfl | rfl <;> revert h <;> decide

theorem rd (a : Index) : Statement (.rd a) := fun _ t ht => by
  cases ht
  exact firstMatch_read a 0

theorem nop : Statement .nop := fun _ t ht => by
  cases ht
  decide

theorem ksched : Statement .ksched := fun _ t ht => by
  cases ht
  decide

theorem enc : Statement .enc := fun _ t ht => by
  cases ht
  decide

theorem dec : Statement .dec := fun _ t ht => by
  cases ht
  decide

theorem denc : Statement .denc := fun _ t ht => by
  cases ht
  decide

theorem mitm : Statement .mitm := fun _ t ht => by
  cases ht
  decide

theorem illcmd (d : HostWord) : Statement (.illcmd d) := fun hw t ht => by
  cases ht
  exact firstMatch_illcmd (five_lt (by simpa [Instr.wellFormed] using hw))

theorem pop : Statement .pop := fun _ t ht => by
  cases ht
  decide

theorem wrK1 (d : HostWord) : Statement (.wrK1 d) := fun _ t ht => by
  cases ht
  exact (firstMatch_data (by decide) true d).trans (show firstMatch (txn true 0x02 0) = some "WR_K1" by decide)

theorem wrK2 (d : HostWord) : Statement (.wrK2 d) := fun _ t ht => by
  cases ht
  exact (firstMatch_data (by decide) true d).trans (show firstMatch (txn true 0x03 0) = some "WR_K2" by decide)

theorem wrDin (d : HostWord) : Statement (.wrDin d) := fun _ t ht => by
  cases ht
  exact (firstMatch_data (by decide) true d).trans (show firstMatch (txn true 0x04 0) = some "WR_DIN" by decide)

theorem wrP1 (d : HostWord) : Statement (.wrP1 d) := fun _ t ht => by
  cases ht
  exact (firstMatch_data (by decide) true d).trans (show firstMatch (txn true 0x06 0) = some "WR_P1" by decide)

theorem wrC1 (d : HostWord) : Statement (.wrC1 d) := fun _ t ht => by
  cases ht
  exact (firstMatch_data (by decide) true d).trans (show firstMatch (txn true 0x07 0) = some "WR_C1" by decide)

theorem wrP2 (d : HostWord) : Statement (.wrP2 d) := fun _ t ht => by
  cases ht
  exact (firstMatch_data (by decide) true d).trans (show firstMatch (txn true 0x08 0) = some "WR_P2" by decide)

theorem wrC2 (d : HostWord) : Statement (.wrC2 d) := fun _ t ht => by
  cases ht
  exact (firstMatch_data (by decide) true d).trans (show firstMatch (txn true 0x09 0) = some "WR_C2" by decide)

theorem wrRk0 (d : HostWord) : Statement (.wrRk0 d) := fun _ t ht => by
  cases ht
  exact (firstMatch_data (by decide) true d).trans (show firstMatch (txn true 0x10 0) = some "WR_RK0" by decide)

theorem wrRk1 (d : HostWord) : Statement (.wrRk1 d) := fun _ t ht => by
  cases ht
  exact (firstMatch_data (by decide) true d).trans (show firstMatch (txn true 0x11 0) = some "WR_RK1" by decide)

theorem wrRk2 (d : HostWord) : Statement (.wrRk2 d) := fun _ t ht => by
  cases ht
  exact (firstMatch_data (by decide) true d).trans (show firstMatch (txn true 0x12 0) = some "WR_RK2" by decide)

theorem wrRk3 (d : HostWord) : Statement (.wrRk3 d) := fun _ t ht => by
  cases ht
  exact (firstMatch_data (by decide) true d).trans (show firstMatch (txn true 0x13 0) = some "WR_RK3" by decide)

theorem wrRk4 (d : HostWord) : Statement (.wrRk4 d) := fun _ t ht => by
  cases ht
  exact (firstMatch_data (by decide) true d).trans (show firstMatch (txn true 0x14 0) = some "WR_RK4" by decide)

theorem wrRk5 (d : HostWord) : Statement (.wrRk5 d) := fun _ t ht => by
  cases ht
  exact (firstMatch_data (by decide) true d).trans (show firstMatch (txn true 0x15 0) = some "WR_RK5" by decide)

theorem wrRk6 (d : HostWord) : Statement (.wrRk6 d) := fun _ t ht => by
  cases ht
  exact (firstMatch_data (by decide) true d).trans (show firstMatch (txn true 0x16 0) = some "WR_RK6" by decide)

theorem wrRk7 (d : HostWord) : Statement (.wrRk7 d) := fun _ t ht => by
  cases ht
  exact (firstMatch_data (by decide) true d).trans (show firstMatch (txn true 0x17 0) = some "WR_RK7" by decide)

theorem wrRk8 (d : HostWord) : Statement (.wrRk8 d) := fun _ t ht => by
  cases ht
  exact (firstMatch_data (by decide) true d).trans (show firstMatch (txn true 0x18 0) = some "WR_RK8" by decide)

theorem wrRk9 (d : HostWord) : Statement (.wrRk9 d) := fun _ t ht => by
  cases ht
  exact (firstMatch_data (by decide) true d).trans (show firstMatch (txn true 0x19 0) = some "WR_RK9" by decide)

theorem wrRk10 (d : HostWord) : Statement (.wrRk10 d) := fun _ t ht => by
  cases ht
  exact (firstMatch_data (by decide) true d).trans (show firstMatch (txn true 0x1A 0) = some "WR_RK10" by decide)

theorem badwr (a : Index) : Statement (.badwr a) := fun hw t ht => by
  cases ht
  revert a
  decide

theorem addkey (p : Datapath) (i : Fin 11) : Statement (.addkey p i) := of_none rfl

theorem slayer (p : Datapath) : Statement (.slayer p) := of_none rfl

theorem invslayer (p : Datapath) : Statement (.invslayer p) := of_none rfl

theorem player (p : Datapath) : Statement (.player p) := of_none rfl

theorem invplayer (p : Datapath) : Statement (.invplayer p) := of_none rfl

theorem ksload (p : Datapath) (k : KeySource) : Statement (.ksload p k) := of_none rfl

theorem ksupdate (p : Datapath) (i : BitVec 5) : Statement (.ksupdate p i) := of_none rfl

theorem rkx (p : Datapath) (i : Fin 11) : Statement (.rkx p i) := of_none rfl

theorem encround (p : Datapath) (i : Fin 11) : Statement (.encround p i) := of_none rfl

theorem decround (p : Datapath) (i : Fin 11) : Statement (.decround p i) := of_none rfl

theorem gen (w : Nat) (k : Block) : Statement (.gen w k) := of_none rfl

theorem sort : Statement .sort := of_none rfl

theorem advf : Statement .advf := of_none rfl

theorem advb : Statement .advb := of_none rfl

theorem emitx : Statement .emitx := of_none rfl

theorem verify (v : Nat) (n : Nat) : Statement (.verify v n) := of_none rfl

theorem retire : Statement .retire := of_none rfl

theorem keySchedule (p : Datapath) (k : KeySource) : Statement (.keySchedule p k) := of_none rfl

theorem encrypt (p : Datapath) (x : BlockSource) : Statement (.encrypt p x) := of_none rfl

theorem decrypt (p : Datapath) (x : BlockSource) : Statement (.decrypt p x) := of_none rfl

theorem doubleEncrypt : Statement .doubleEncrypt := of_none rfl

end Sys2Proof.Laws.Encoding
end

