-- ==== Sys2Proof/Laws/Step.lean ====
section
/-! SUPPORT. What one step of the core can do, said once: the cases of a host access, of an agent's turn, and of a step.
Later proofs cite these and do not unfold exec, turn or fetch. -/

namespace Sys2Proof.Machine

open Sys2Proof.Config

/-! ### The registers of one datapath -/

/-- Writing a datapath's registers changes nothing else. -/
theorem onlyRegs_setCipherRegs (p : Datapath) (c : CipherRegs) (s : State) : OnlyRegs p s (setCipherRegs p c s) :=
  ⟨by cases p <;> rfl, fun _ h => cipherRegs_setCipherRegs_of_ne h c s⟩

/-! ### A host access -/

/-- What a host access can do to the core (R226). -/
inductive HostStep (s : State) : State → Prop where
  /-- A read (R220, R65). -/
  | read (x : Index) :
      HostStep s { s with rdata := hostRead s x, draws := if drawsFree s x then s.draws + 1 else s.draws }
  /-- A refusal (R244). -/
  | refused (c : Cause) (h : c ≠ .noCause) : HostStep s (refuse c s)
  /-- An operand write (R221). -/
  | store (r : OperandReg) (x : Block) (h : s.busy = false) : HostStep s (setOperand r x s)
  /-- An accepted command (R222). -/
  | accepted (o : Op) (h : s.busy = false) : HostStep s (accept o s)
  /-- A pop (R224). -/
  | popped : HostStep s { s with rf := s.rf.tail }

theorem hostStep_writeOperand (r : OperandReg) (d : HostWord) (s : State) : HostStep s (writeOperand r d s) := by
  unfold writeOperand
  split
  · exact .refused _ (by decide)
  · exact .store _ _ (by simpa using ‹¬s.busy = true›)

theorem hostStep_command (o : Op) (s : State) : HostStep s (command o s) := by
  unfold command
  split
  · exact .refused _ (by decide)
  · exact .accepted _ (by simpa using ‹¬s.busy = true›)

/-- Every encodable instruction is a host access. -/
theorem hostStep_of_encode {i : Instr} (h : (encode i).isSome = true) (s : State) :
    ∃ t, exec i s = .next t ∧ HostStep s t := by
  cases i <;> simp only [encode, Option.isSome_some, Option.isSome_none, Bool.false_eq_true] at h
  case rd x => exact ⟨_, rfl, .read x⟩
  case illcmd d => exact ⟨_, rfl, .refused _ (by decide)⟩
  case badwr x => exact ⟨_, rfl, .refused _ (by decide)⟩
  case pop => exact ⟨_, rfl, .popped⟩
  case nop => exact ⟨_, rfl, hostStep_command _ s⟩
  case ksched => exact ⟨_, rfl, hostStep_command _ s⟩
  case enc => exact ⟨_, rfl, hostStep_command _ s⟩
  case dec => exact ⟨_, rfl, hostStep_command _ s⟩
  case denc => exact ⟨_, rfl, hostStep_command _ s⟩
  case mitm => exact ⟨_, rfl, hostStep_command _ s⟩
  all_goals exact ⟨_, rfl, hostStep_writeOperand _ _ s⟩

theorem encode_decodeCommand (d : HostWord) : (encode (decodeCommand d)).isSome = true := by
  unfold decodeCommand
  split
  · split <;> rfl
  · rfl

theorem encode_decodeWrite (x : Index) (d : HostWord) : (encode (decodeWrite x d)).isSome = true := by
  unfold decodeWrite
  split
  case h_1 => exact encode_decodeCommand d
  all_goals rfl

/-- A decoded transaction is encodable: the host cannot issue a micro-operation (R103). -/
theorem encode_decode_isSome (t : Txn) : (encode (decode t)).isSome = true := by
  unfold decode
  split
  · exact encode_decodeWrite _ _
  · rfl

/-- The cases of a decoded host access. -/
theorem hostStep_of_decode (w : Txn) (s : State) : ∃ t, exec (decode w) s = .next t ∧ HostStep s t :=
  hostStep_of_encode (encode_decode_isSome w) s

/-! ### A micro-step of a short command -/

/-- The micro-operations and functions of the cipher complete, and change nothing but cipher registers. -/
theorem exec_cipher {i : Instr} (s : State)
    (h : (∃ p n, i = .addkey p n) ∨ (∃ p k, i = .ksload p k) ∨ (∃ p n, i = .ksupdate p n) ∨ (∃ p n, i = .rkx p n) ∨
      (∃ p n, i = .encround p n) ∨ (∃ p n, i = .decround p n) ∨ (∃ p k, i = .keySchedule p k) ∨
      (∃ p x, i = .encrypt p x)) :
    ∃ p c, exec i s = .next (setCipherRegs p c s) := by
  rcases h with ⟨p, _, rfl⟩ | ⟨p, _, rfl⟩ | ⟨p, _, rfl⟩ | ⟨p, _, rfl⟩ | ⟨p, _, rfl⟩ | ⟨p, _, rfl⟩ | ⟨p, _, rfl⟩ |
    ⟨p, _, rfl⟩ <;> exact ⟨p, _, rfl⟩

/-- A micro-step of a command's program changes nothing but the cipher registers and `DOUT`; `RK` only in `KSCHED`,
`DOUT` only in `ENC`, `DEC`, `DENC`. -/
theorem runMicro_frame {o : Op} {m : MicroStep} (h : m ∈ microProgram o) (s : State) :
    runMicro s m = { s with kreg := (runMicro s m).kreg, rk := (runMicro s m).rk, cst := (runMicro s m).cst,
                            denc1 := (runMicro s m).denc1, denc2 := (runMicro s m).denc2,
                            dout := (runMicro s m).dout } ∧
      (o ≠ .ksched → (runMicro s m).rk = s.rk) ∧
      (o = .nop ∨ o = .ksched ∨ o = .mitm → (runMicro s m).dout = s.dout) := by
  cases o <;> simp only [microProgram, List.not_mem_nil, List.mem_append, List.mem_cons, List.mem_flatMap,
    List.mem_map, or_false] at h
  case ksched =>
    rcases h with (rfl | rfl) | ⟨n, -, rfl | rfl⟩ <;> exact ⟨rfl, fun hn => absurd rfl hn, fun _ => rfl⟩
  case enc =>
    rcases h with (rfl | ⟨n, -, rfl⟩) | rfl | rfl <;> exact ⟨rfl, fun _ => rfl, by simp⟩
  case dec =>
    rcases h with ((rfl | rfl) | ⟨n, -, rfl⟩) | rfl <;> exact ⟨rfl, fun _ => rfl, by simp⟩
  case denc =>
    rcases h with rfl | rfl | rfl | rfl | rfl <;> exact ⟨rfl, fun _ => rfl, by simp⟩

/-! ### An agent's turn -/

/-- What a turn of one of the core's own agents can do (R248). -/
inductive AgentStep (s : State) : State → Prop where
  /-- The agent has no step to take. -/
  | idle : AgentStep s s
  /-- A micro-step of the running short command. -/
  | micro (m : MicroStep) (hp : s.phase = .short) (hm : (microProgram s.op)[s.upc]? = some m) :
      AgentStep s (runMicro { s with upc := s.upc + 1 } m)
  /-- Completion of a short command (R227). -/
  | shortComplete (hp : s.phase = .short) (hd : shortDone s = true) : AgentStep s (complete s)
  /-- `GEN(k)` (R182). -/
  | gen (w : Nat) (k : Block) (h : genReady s w k = true) :
      AgentStep s
        { memWrite .bwd k.toNat (backwardEntry s.params.tables s.c1 k)
            (memWrite .fwd k.toNat (forwardEntry s.params.tables s.p1 k) s) with
          gdone := markKey s.gdone k.toNat,
          workers := s.workers.set w (regsAfter s.params.tables k (backwardValue s.params.tables s.c1 k)) }
  /-- `PHASE <- SORT` (R183). -/
  | toSort (hp : s.phase = .gen) (hd : allGenerated s = true) : AgentStep s { s with phase := .sort }
  /-- `SORT` (R186). -/
  | sort (hp : s.phase = .sort) :
      AgentStep s { s with tf := Memory.ofEntriesFrom 0 (sortEntries (tableEntries s .fwd)),
                           tb := Memory.ofEntriesFrom 0 (sortEntries (tableEntries s .bwd)) }
  /-- `PHASE <- JOIN` (R186). -/
  | toJoin (hp : s.phase = .sort) (hd : tablesSorted s = true) : AgentStep s { s with phase := .join }
  /-- The end of the join (R192). -/
  | joinEnd (h : joinAtEnd s = true) : AgentStep s { s with jend := true }
  /-- `ADVF` (R189). -/
  | advf (h : advfReady s = true) : AgentStep s { s with i := s.i + 1 }
  /-- `ADVB` (R190). -/
  | advb (h : advbReady s = true) : AgentStep s { s with j := s.j + 1 }
  /-- `EMITX` (R191). -/
  | emitx (h : emitxReady s = true) (hv : s.vq.length < s.params.lanes) :
      AgentStep s (emitAdvance (emitPair (emitBegin s)))
  /-- `VERIFY` (R197). -/
  | verify (v n : Nat) (r : KeyPair) (hp : s.phase = .join) (hv : v < s.params.lanes)
      (hn : s.vq[n]? = some ⟨r, .pending⟩) :
      AgentStep s
        { s with vq := s.vq.set n ⟨r, verdictOf s r⟩,
                 lanes := s.lanes.set v
                   (regsAfter s.params.tables r.key2 (doubleEncrypt s.params.tables r.key1 r.key2 s.p2)) }
  /-- `RETIRE` of a failed candidate (R198). -/
  | retireFail (r : KeyPair) (q : List QueueEntry) (hp : s.phase = .join) (hq : s.vq = ⟨r, .fail⟩ :: q) :
      AgentStep s { s with vq := q }
  /-- `RETIRE` of a passed candidate into `RF` (R198, R199). -/
  | retirePass (r : KeyPair) (q : List QueueEntry) (hp : s.phase = .join) (hq : s.vq = ⟨r, .pass⟩ :: q)
      (hf : s.rf.length < s.params.fifoDepth) : AgentStep s { s with vq := q, rf := s.rf ++ [r] }
  /-- Completion of a search (R200, R68). -/
  | searchComplete (hp : s.phase = .join) (he : s.jend = true) (hv : s.vq = []) : AgentStep s (completeSearch s)

/-- The next state of a turn: the instruction executed, or the move made. -/
def runTurn (u : Turn) : Result :=
  match u with
  | (some i, t) => exec i t
  | (none, t) => .next t

theorem step_eq_runTurn (s : State) : step s = runTurn (fetch s) := rfl

theorem agentStep_sequencer (s : State) : AgentStep s (sequencerTurn s) := by
  unfold sequencerTurn
  split
  · exact .idle
  · split
    · exact .shortComplete ‹_› ‹_›
    · exact .idle
  · split
    · exact .toSort ‹_› ‹_›
    · exact .idle
  · split
    · exact .toJoin ‹_› ‹_›
    · exact .idle
  · split
    · rename_i hp h
      simp only [Bool.and_eq_true, List.isEmpty_iff] at h
      exact .searchComplete hp h.1 h.2
    · exact .idle

theorem agentStep_gen (w : Nat) (k : Block) (s : State) : ∃ t, exec (.gen w k) s = .next t ∧ AgentStep s t := by
  simp only [exec, execGen]
  split
  · exact ⟨_, rfl, .gen w k ‹_›⟩
  · exact ⟨_, rfl, .idle⟩

theorem agentStep_sort (s : State) : ∃ t, exec .sort s = .next t ∧ AgentStep s t := by
  simp only [exec, execSort]
  split
  · exact ⟨_, rfl, .sort ‹_›⟩
  · exact ⟨_, rfl, .idle⟩

theorem agentStep_advf (s : State) : ∃ t, exec .advf s = .next t ∧ AgentStep s t := by
  simp only [exec, execAdvf]
  split
  · exact ⟨_, rfl, .advf ‹_›⟩
  · exact ⟨_, rfl, .idle⟩

theorem agentStep_advb (s : State) : ∃ t, exec .advb s = .next t ∧ AgentStep s t := by
  simp only [exec, execAdvb]
  split
  · exact ⟨_, rfl, .advb ‹_›⟩
  · exact ⟨_, rfl, .idle⟩

theorem agentStep_emitx (s : State) : ∃ t, exec .emitx s = .next t ∧ AgentStep s t := by
  simp only [exec, execEmitx]
  split
  · rename_i h
    simp only [Bool.and_eq_true, decide_eq_true_eq] at h
    exact ⟨_, rfl, .emitx h.1 h.2⟩
  · exact ⟨_, rfl, .idle⟩

theorem agentStep_verify (v n : Nat) (s : State) : ∃ t, exec (.verify v n) s = .next t ∧ AgentStep s t := by
  simp only [exec, execVerify]
  split
  · rename_i r hn
    split
    · rename_i h
      exact ⟨_, rfl, .verify v n r h.1 h.2 hn⟩
    · exact ⟨_, rfl, .idle⟩
  · exact ⟨_, rfl, .idle⟩

theorem agentStep_retire (s : State) : ∃ t, exec .retire s = .next t ∧ AgentStep s t := by
  simp only [exec, execRetire]
  split
  · exact ⟨_, rfl, .retireFail _ _ ‹_› ‹_›⟩
  · split
    · exact ⟨_, rfl, .retirePass _ _ ‹_› ‹_› ‹_›⟩
    · exact ⟨_, rfl, .idle⟩
  · exact ⟨_, rfl, .idle⟩

/-- Every micro-operation of a command's program completes. -/
theorem exec_of_mem_microProgram {o : Op} {i : Instr} (h : MicroStep.op i ∈ microProgram o) (s : State) :
    exec i s = .next (runMicro s (.op i)) := by
  have key : ∃ p c, exec i s = .next (setCipherRegs p c s) := by
    apply exec_cipher
    cases o <;> simp only [microProgram, List.not_mem_nil, List.mem_append, List.mem_cons, List.mem_flatMap,
      List.mem_map, or_false, MicroStep.op.injEq, reduceCtorEq, false_or] at h
    · rcases h with (rfl | rfl) | ⟨n, -, rfl | rfl⟩ <;> simp
    · rcases h with ⟨n, -, rfl⟩ | rfl <;> simp
    · rcases h with rfl | ⟨n, -, rfl⟩ <;> simp
    · rcases h with rfl | rfl | rfl | rfl <;> simp
  obtain ⟨p, c, hc⟩ := key
  simp [runMicro, hc]

theorem agentStep_datapath (s : State) : ∃ t, runTurn (datapathTurn s) = .next t ∧ AgentStep s t := by
  unfold datapathTurn
  split
  · rename_i hp
    split
    · rename_i i hm
      have := exec_of_mem_microProgram (List.mem_of_getElem? hm) { s with upc := s.upc + 1 }
      exact ⟨_, this, .micro _ hp hm⟩
    · rename_i hm
      exact ⟨_, rfl, .micro _ hp hm⟩
    · rename_i p hm
      refine ⟨_, rfl, ?_⟩
      have := AgentStep.micro _ hp hm
      cases p <;> exact this
    · exact ⟨_, rfl, .idle⟩
  · exact ⟨_, rfl, .idle⟩

theorem agentStep_join (s : State) : ∃ t, runTurn (joinTurn s) = .next t ∧ AgentStep s t := by
  unfold joinTurn
  split
  · exact ⟨_, rfl, .joinEnd ‹_›⟩
  · split
    · exact agentStep_advf s
    · split
      · exact agentStep_advb s
      · exact agentStep_emitx s

/-- The cases of an agent's turn. -/
theorem agentStep_turn (g : Agent) (s : State) : ∃ t, runTurn (turn g s) = .next t ∧ AgentStep s t := by
  cases g with
  | sequencer => exact ⟨_, rfl, agentStep_sequencer s⟩
  | datapath => exact agentStep_datapath s
  | worker w k => exact agentStep_gen w k s
  | sorter => exact agentStep_sort s
  | join => exact agentStep_join s
  | lane v n => exact agentStep_verify v n s
  | retirement => exact agentStep_retire s

/-! ### A step -/

/-- The cases of a step: a host access, reset, a scheduled agent's turn, or the default agent's turn. -/
theorem step_cases {s t : State} (h : step s = .next t) :
    (∃ w rest, s.agenda = .host w :: rest ∧ exec (decode w) { s with agenda := rest } = .next t ∧
        HostStep { s with agenda := rest } t) ∨
      (∃ rest, s.agenda = .reset :: rest ∧ t = resetCore { s with agenda := rest }) ∨
      (∃ g rest, s.agenda = .agent g :: rest ∧ AgentStep { s with agenda := rest } t) ∨
      (s.agenda = [] ∧ AgentStep s t) := by
  rw [step_eq_runTurn] at h
  unfold fetch at h
  split at h
  · rename_i ha
    obtain ⟨u, hu, hs⟩ := agentStep_turn (defaultAgent s) s
    rw [hu] at h
    cases h
    exact .inr (.inr (.inr ⟨ha, hs⟩))
  · rename_i w rest ha
    obtain ⟨u, hu, hs⟩ := hostStep_of_decode w { s with agenda := rest }
    have h' : exec (decode w) { s with agenda := rest } = .next t := h
    rw [hu] at h'
    cases h'
    exact .inl ⟨w, rest, ha, hu, hs⟩
  · rename_i rest ha
    cases h
    exact .inr (.inl ⟨rest, ha, rfl⟩)
  · rename_i g rest ha
    obtain ⟨u, hu, hs⟩ := agentStep_turn g { s with agenda := rest }
    rw [hu] at h
    cases h
    exact .inr (.inr (.inl ⟨g, rest, ha, hs⟩))

end Sys2Proof.Machine
end

