-- ==== Sys2Proof/Laws/Short.lean ====
section
/-! SUPPORT. The short commands step by step (41 R145; 42 R160, R161; 43 R176): what the next micro-step is, and that a
command with nothing scheduled runs its micro-steps in order and then completes. -/

namespace Sys2Proof.Machine

/-- One micro-step with the place in the program moved on. -/
def microNext (s : State) (m : MicroStep) : State := runMicro { s with upc := s.upc + 1 } m

/-- What a micro-step leaves alone. -/
theorem microNext_frame {s : State} {m : MicroStep} (hm : (microProgram s.op)[s.upc]? = some m) :
    (microNext s m).agenda = s.agenda ∧ (microNext s m).phase = s.phase ∧ (microNext s m).op = s.op ∧
      (microNext s m).upc = s.upc + 1 ∧ (microNext s m).params = s.params := by
  unfold microNext
  rw [(runMicro_frame (List.mem_of_getElem? hm) { s with upc := s.upc + 1 }).1]
  exact ⟨rfl, rfl, rfl, rfl, rfl⟩

/-- The datapath's turn is the next micro-step. -/
theorem turn_datapath {s : State} {m : MicroStep} (hp : s.phase = .short)
    (hm : (microProgram s.op)[s.upc]? = some m) : runTurn (turn .datapath s) = .next (microNext s m) := by
  cases m with
  | op i =>
    simp only [turn, datapathTurn, hp, hm, if_true, runTurn, microNext]
    exact exec_of_mem_microProgram (List.mem_of_getElem? hm) _
  | loadState => simp [turn, datapathTurn, hp, hm, runTurn, microNext, runMicro]
  | storeDout p =>
    simp only [turn, datapathTurn, hp, hm, if_true, runTurn, microNext, runMicro]
    cases p <;> rfl

/-- With nothing scheduled, a running short command does its next micro-step. -/
theorem step_micro {s : State} {m : MicroStep} (ha : s.agenda = []) (hp : s.phase = .short)
    (hm : (microProgram s.op)[s.upc]? = some m) : step s = .next (microNext s m) := by
  have hlt : s.upc < (microProgram s.op).length := (List.getElem?_eq_some_iff.mp hm).1
  rw [step_eq_runTurn]
  simp only [fetch, ha, defaultAgent, hp, shortDone, decide_eq_true_eq,
    show ¬ (microProgram s.op).length ≤ s.upc by omega, if_false]
  exact turn_datapath hp hm

/-- With nothing scheduled and no micro-step left, a short command completes (R227). -/
theorem step_short_done {s : State} (ha : s.agenda = []) (hp : s.phase = .short)
    (hd : (microProgram s.op).length ≤ s.upc) : step s = .next (complete s) := by
  rw [step_eq_runTurn]
  simp only [fetch, ha, defaultAgent, hp, shortDone, decide_eq_true_eq, hd, if_true, turn, sequencerTurn, runTurn]

/-- With nothing scheduled, a running short command does the micro-steps it has left, in order, and completes. -/
theorem run_short (l : List MicroStep) :
    ∀ {s : State}, s.agenda = [] → s.phase = .short → (microProgram s.op).drop s.upc = l →
      Host.Core.run core (l.length + 1) s = .next (complete (l.foldl microNext s)) := by
  induction l with
  | nil =>
    intro s ha hp hl
    have : core.step s = _ := step_short_done ha hp (by simpa using hl)
    simp [Host.Core.run, this]
  | cons m l ih =>
    intro s ha hp hl
    have hm : (microProgram s.op)[s.upc]? = some m := by
      rw [← List.head?_drop, hl]
      rfl
    have hs : core.step s = _ := step_micro ha hp hm
    have hr : Host.Core.run core ((m :: l).length + 1) s = Host.Core.run core (l.length + 1) (microNext s m) := by
      simp only [List.length_cons, Host.Core.run, hs]
    obtain ⟨e1, e2, e3, e4, -⟩ := microNext_frame hm
    rw [hr]
    exact ih (e1.trans ha) (e2.trans hp) (by rw [e3, e4, ← List.tail_drop, hl]; rfl)

end Sys2Proof.Machine
end

