-- ==== Sys2Proof/Laws/Script.lean ====
section
/-! SUPPORT. What the lines of a host's script are to the core, how the runs of a script compose, and that the scripts of
short commands can end (30_encoding.md R101, R102). Later proofs cite these and do not unfold a transaction or a run. -/

namespace Sys2Proof.Machine

open Sys2Proof.Config

/-! ### The lines of a script -/

/-- `RD <reg>` decodes to the read of its index. -/
@[simp] theorem decode_readTxn (r : RegName) : decode (readTxn r) = .rd r.index := by
  simp [readTxn, decode]

/-- `POP` decodes to the pop. -/
@[simp] theorem decode_popTxn : decode HostWrite.pop.txn = .pop := by decide

/-- An access takes effect at once, whatever was scheduled. -/
theorem issue_eq_exec (w : Txn) (s : State) : issue w s = exec (decode w) { s with agenda := [] } := rfl

/-- What `RD <reg>` does. -/
theorem issue_readTxn (r : RegName) (s : State) :
    issue (readTxn r) s = .next
      { s with
        rdata := hostRead s r.index
        draws := if drawsFree s r.index then s.draws + 1 else s.draws
        agenda := [] } := by
  rw [issue_eq_exec, decode_readTxn]
  rfl

/-- What `WR <reg>, <value>` does. -/
theorem issue_wr (r : OperandReg) (v : HostWord) (s : State) :
    issue (HostWrite.wr r v).txn s = .next (writeOperand r v { s with agenda := [] }) := by
  rw [issue_eq_exec]
  cases r
  all_goals simp only [HostWrite.txn, decode, txnRw_txn, txnIndex_txn, txnData_txn, OperandReg.index, if_true]
  case rk i => fin_cases i <;> rfl
  all_goals rfl

/-- What `CMD <op>` does. -/
theorem issue_cmd (o : Op) (s : State) :
    issue (HostWrite.cmd o).txn s = .next (command o { s with agenda := [] }) := by
  rw [issue_eq_exec]
  cases o <;> rfl

/-- What `POP` does. -/
theorem issue_pop (s : State) : issue HostWrite.pop.txn s = .next { s with rf := s.rf.tail, agenda := [] } := by
  rw [issue_eq_exec, decode_popTxn]
  rfl

/-- A read of `STATUS` returns the `STATUS` word, busy or not. -/
@[simp] theorem hostRead_status (s : State) : hostRead s (RegName.index .status) = statusWord s := by
  simp [hostRead, drawsFree, isResultIndex, RegName.index, storedWord]

/-! ### Runs -/

/-- Turns, and more turns. -/
theorem Turns.trans {s t u : State} (h : Turns s t) (h' : Turns t u) : Turns s u := by
  induction h' with
  | none => exact h
  | more g _ hu ih => exact .more g ih hu

/-- A run of two scripts, one after the other, is a run of each. -/
theorem runs_bind {α β : Type} (f : α → Script β) (p : Script α) (s t : State) (b : β) :
    Runs (p.bind f) s b t ↔ ∃ a m, Runs p s a m ∧ Runs (f a) m b t := by
  induction p generalizing s with
  | done x => simp [Script.bind, Runs]
  | outOfPolls => simp [Script.bind, Runs]
  | read r k ih =>
    simp only [Script.bind, Runs, ih]
    constructor
    · rintro ⟨m, u, hm, hu, a, v, h, h'⟩
      exact ⟨a, v, ⟨m, u, hm, hu, h⟩, h'⟩
    · rintro ⟨a, v, ⟨m, u, hm, hu, h⟩, h'⟩
      exact ⟨m, u, hm, hu, a, v, h, h'⟩
  | write w k ih =>
    simp only [Script.bind, Runs, ih]
    constructor
    · rintro ⟨m, u, hm, hu, a, v, h, h'⟩
      exact ⟨a, v, ⟨m, u, hm, hu, h⟩, h'⟩
    · rintro ⟨a, v, ⟨m, u, hm, hu, h⟩, h'⟩
      exact ⟨m, u, hm, hu, a, v, h, h'⟩

/-- A run of a poll ends just after the read of `STATUS` that stops it; what every earlier round keeps, holds before that
round. -/
theorem runs_pollStatus {P : State → Prop}
    (keep : ∀ s m u, P s → Turns s m → issue (readTxn .status) m = .next u → P u) {stop : HostWord → Bool} {n : Nat}
    {s t : State} {w : HostWord} (hs : P s) (h : Runs (pollStatus stop n) s w t) :
    ∃ r m, P r ∧ Turns r m ∧ issue (readTxn .status) m = .next t ∧ w = t.rdata ∧ stop w = true := by
  induction n generalizing s with
  | zero => exact h.elim
  | succ n ih =>
    obtain ⟨m, u, hm, hu, h⟩ := h
    dsimp only at h
    split at h
    · obtain ⟨rfl, rfl⟩ := h
      exact ⟨s, m, hs, hm, hu, rfl, ‹_›⟩
    · exact ih (keep s m u hs hm hu) h

/-- The bits a script looks at, of a `STATUS` word. -/
theorem statusWord_bits (s : State) : (statusWord s).getLsbD 1 = s.done ∧ (statusWord s).getLsbD 2 = rvalid s := by
  unfold statusWord
  generalize s.cause.code = c, s.phase.code = p, s.err = e, rvalid s = v, s.done = d, s.busy = b
  revert c p e v d b
  decide +kernel

@[simp] theorem doneBit_statusWord (s : State) : doneBit (statusWord s) = s.done := (statusWord_bits s).1

@[simp] theorem rvalidBit_statusWord (s : State) : rvalidBit (statusWord s) = rvalid s := (statusWord_bits s).2

/-! ### Scripts that come to their end -/

/-- An agent's turn schedules nothing. -/
theorem AgentStep.agenda_eq {s t : State} (h : AgentStep s t) : t.agenda = s.agenda := by
  cases h with
  | micro m hp hm => exact (microNext_frame hm).1
  | emitx h hv => rw [emit_frame]
  | _ => rfl

/-- With nothing scheduled, a step is a turn of the default agent. -/
theorem turns_of_step {s t : State} (ha : s.agenda = []) (h : step s = .next t) : Turns s t ∧ t.agenda = [] := by
  obtain ⟨u, hu, hs⟩ := agentStep_turn (defaultAgent s) s
  rw [step_eq_runTurn] at h
  simp only [fetch, ha] at h
  obtain rfl : u = t := by simpa [hu] using h
  refine ⟨.more (defaultAgent s) .none ?_, hs.agenda_eq.trans ha⟩
  rw [step_eq_runTurn]
  simp only [fetch, ← ha]
  exact hu

/-- Steps with nothing scheduled are turns. -/
theorem turns_of_run {n : Nat} {s t : State} (ha : s.agenda = []) (h : Host.Core.run core n s = .next t) :
    Turns s t := by
  induction n generalizing s with
  | zero =>
    cases h
    exact .none
  | succ n ih =>
    simp only [Host.Core.run] at h
    split at h
    · obtain ⟨hu, hu'⟩ := turns_of_step ha ‹_›
      exact hu.trans (ih hu' h)
    · cases h
    · cases h

/-- `WAIT` ends with its first read where turns lead to `DONE = 1`. -/
theorem runs_waitDone {s m : State} (h : Turns s m) (hd : m.done = true) (n : Nat) :
    ∃ w t, Runs (waitDone (n + 1)) s w t ∧ t.busy = m.busy := by
  obtain ⟨t, ht, hb, hr⟩ : ∃ t, issue (readTxn .status) m = .next t ∧ t.busy = m.busy ∧ t.rdata = statusWord m :=
    ⟨_, issue_readTxn .status m, rfl, hostRead_status m⟩
  refine ⟨t.rdata, t, ⟨m, t, h, ht, ?_⟩, hb⟩
  have hw : doneBit t.rdata = true := by rw [hr, doneBit_statusWord, hd]
  simp only [hw, if_true]
  exact ⟨rfl, rfl⟩

/-- `WAIT` after an accepted short command can end, and no command runs then. -/
theorem exists_runs_waitDone {s : State} (ha : s.agenda = []) (hp : s.phase = .short) (n : Nat) :
    ∃ w t, Runs (waitDone (n + 1)) s w t ∧ t.busy = false :=
  runs_waitDone (turns_of_run ha (run_short _ ha hp rfl)) rfl n

/-- `WR` of a register and an accepted short command, then `WAIT`, can end. -/
theorem exists_runs_command {s : State} (hb : s.busy = false) (r : OperandReg) (v : HostWord) {o : Op} (ho : o ≠ .mitm)
    (n : Nat) : ∃ w t, Runs (.write (.wr r v) (.write (.cmd o) (waitDone (n + 1)))) s w t ∧ t.busy = false := by
  have hw : writeOperand r v { s with agenda := [] } = setOperand r (low24 v) { s with agenda := [] } := by
    simp [writeOperand, hb]
  obtain ⟨u, hu, hub⟩ : ∃ u, setOperand r (low24 v) { s with agenda := [] } = u ∧ u.busy = false :=
    ⟨_, rfl, by cases r <;> exact hb⟩
  have hc : command o { u with agenda := [] } = beginCommand o .short { u with agenda := [] } := by
    simp [command, hub, accept, ho]
  obtain ⟨w, t, h, ht⟩ := exists_runs_waitDone (s := command o { u with agenda := [] }) (by rw [hc]; rfl) (by rw [hc]; rfl) n
  exact ⟨w, t, ⟨_, _, .none, issue_wr r v s, _, _, .none, hw ▸ hu ▸ issue_cmd o u, h⟩, ht⟩

/-- The composite of R102 can end, from every state with no command running. -/
theorem exists_runs_cascadeByParts {s : State} (hb : s.busy = false) (n : Nat) (k1 k2 p : HostWord) :
    ∃ w t, Runs (cascadeByParts (n + 1) k1 k2 p) s w t := by
  have encrypts : ∀ {u : State} (x : HostWord), u.busy = false →
      ∃ w t, Runs (encryptBlock (n + 1) x) u w t ∧ t.busy = false := by
    intro u x hu
    obtain ⟨w, t, ⟨m, v, hm, hv, m', v', hm', hv', h⟩, ht⟩ :=
      exists_runs_command hu .din x (o := .enc) (by decide) n
    exact ⟨_, _, ⟨m, v, hm, hv, m', v', hm', hv',
      (runs_bind _ _ _ _ _).mpr ⟨w, t, h, _, _, .none, issue_readTxn .dout t, rfl, rfl⟩⟩, ht⟩
  obtain ⟨_, t, h, ht⟩ := exists_runs_command hb .k1 k1 (o := .ksched) (by decide) n
  obtain ⟨y, u, h', hu⟩ := encrypts p ht
  obtain ⟨_, v, h2, hv⟩ := exists_runs_command hu .k1 k2 (o := .ksched) (by decide) n
  obtain ⟨z, w, h2', -⟩ := encrypts y hv
  exact ⟨z, w, (runs_bind _ _ _ _ _).mpr ⟨_, t, h, (runs_bind _ _ _ _ _).mpr ⟨y, u, h',
    (runs_bind _ _ _ _ _).mpr ⟨_, v, h2, h2'⟩⟩⟩⟩

end Sys2Proof.Machine
end

