-- ==== Sys2Proof/Tests/Slice0.lean ====
section
/-! SUPPORT. Tests of the model: well-formedness, words written out from 30_encoding.md, the numbers of
95_test_vectors.md and of the worked example of 44_mitm_engine.md section 7, and a witness for the hypotheses of every
obligation that has any. -/

namespace Sys2Proof.Tests

open Sys2Proof Sys2Proof.Machine Sys2Proof.Config

/-! ### Helpers -/

/-- A core with a key space of `2^kbits` keys, two workers, two lanes and a result FIFO of one entry. -/
def params (kbits : Nat) : Params := ⟨kbits, 2, 2, 1, present24⟩

/-- Such a core at reset. -/
def idle (kbits : Nat) : State := State.resetOf (params kbits)

/-- The execution ends in a next state with a property. -/
def gives (r : Result) (p : State → Bool) : Bool :=
  match r with
  | .next t => p t
  | .fault _ => false
  | .refused _ => false

/-! ### Well-formedness: one ill-formed term for each check -/

theorem test_wf_illcmd : (Instr.illcmd 5).wellFormed = false ∧ (Instr.illcmd 6).wellFormed = true ∧
    (Instr.illcmd 0x12).wellFormed = true := by decide

theorem test_wf_badwr : (Instr.badwr 0x1A).wellFormed = false ∧ (Instr.badwr 0x1B).wellFormed = true ∧
    (Instr.badwr 0x0C).wellFormed = false ∧ (Instr.badwr 0x0D).wellFormed = true := by decide

theorem test_wf_ksupdate : (Instr.ksupdate .short 0).wellFormed = false ∧
    (Instr.ksupdate .short 11).wellFormed = false ∧ (Instr.ksupdate .short 10).wellFormed = true := by decide

/-! ### Decoding: bit 38 the direction, bits 37..32 the index, bits 31..0 the data (R90); data 0 to 5 at index 0 the
opcode (R91, R92) -/

theorem test_decode_rd : decode (0b0#1 ++ 0b000101#6 ++ 0xDEADBEEF#32 : Txn) = .rd 0x05 := by decide
theorem test_decode_nop : decode (0b1#1 ++ 0b000000#6 ++ 0b0#28 ++ 0b0000#4 : Txn) = .nop := by decide
theorem test_decode_ksched : decode (0b1#1 ++ 0b000000#6 ++ 0b0#28 ++ 0b0001#4 : Txn) = .ksched := by decide
theorem test_decode_enc : decode (0b1#1 ++ 0b000000#6 ++ 0b0#28 ++ 0b0010#4 : Txn) = .enc := by decide
theorem test_decode_dec : decode (0b1#1 ++ 0b000000#6 ++ 0b0#28 ++ 0b0011#4 : Txn) = .dec := by decide
theorem test_decode_denc : decode (0b1#1 ++ 0b000000#6 ++ 0b0#28 ++ 0b0100#4 : Txn) = .denc := by decide
theorem test_decode_mitm : decode (0b1#1 ++ 0b000000#6 ++ 0b0#28 ++ 0b0101#4 : Txn) = .mitm := by decide
theorem test_decode_illcmd : decode (0b1#1 ++ 0b000000#6 ++ 0b0#28 ++ 0b0110#4 : Txn) = .illcmd 6 ∧
    decode (0b1#1 ++ 0b000000#6 ++ 0b1#28 ++ 0b0010#4 : Txn) = .illcmd 0x12 := by decide
theorem test_decode_pop : decode (0b1#1 ++ 0b001100#6 ++ 0xFFFFFFFF#32 : Txn) = .pop := by decide
theorem test_decode_wr_k : decode (0b1#1 ++ 0b000010#6 ++ 0x00D1BD2D#32 : Txn) = .wrK1 0x00D1BD2D ∧
    decode (0b1#1 ++ 0b000011#6 ++ 0x000000C3#32 : Txn) = .wrK2 0x000000C3 := by decide
theorem test_decode_wr_din : decode (0b1#1 ++ 0b000100#6 ++ 0xABF955B9#32 : Txn) = .wrDin 0xABF955B9 := by decide
theorem test_decode_wr_pairs : decode (0b1#1 ++ 0b000110#6 ++ 1#32 : Txn) = .wrP1 1 ∧
    decode (0b1#1 ++ 0b000111#6 ++ 2#32 : Txn) = .wrC1 2 ∧ decode (0b1#1 ++ 0b001000#6 ++ 3#32 : Txn) = .wrP2 3 ∧
    decode (0b1#1 ++ 0b001001#6 ++ 4#32 : Txn) = .wrC2 4 := by decide
theorem test_decode_wr_rk_low : decode (0b1#1 ++ 0b010000#6 ++ 1#32 : Txn) = .wrRk0 1 ∧
    decode (0b1#1 ++ 0b010001#6 ++ 1#32 : Txn) = .wrRk1 1 ∧ decode (0b1#1 ++ 0b010010#6 ++ 1#32 : Txn) = .wrRk2 1 ∧
    decode (0b1#1 ++ 0b010011#6 ++ 1#32 : Txn) = .wrRk3 1 ∧ decode (0b1#1 ++ 0b010100#6 ++ 1#32 : Txn) = .wrRk4 1 ∧
    decode (0b1#1 ++ 0b010101#6 ++ 1#32 : Txn) = .wrRk5 1 := by decide
theorem test_decode_wr_rk_high : decode (0b1#1 ++ 0b010110#6 ++ 1#32 : Txn) = .wrRk6 1 ∧
    decode (0b1#1 ++ 0b010111#6 ++ 1#32 : Txn) = .wrRk7 1 ∧ decode (0b1#1 ++ 0b011000#6 ++ 1#32 : Txn) = .wrRk8 1 ∧
    decode (0b1#1 ++ 0b011001#6 ++ 1#32 : Txn) = .wrRk9 1 ∧ decode (0b1#1 ++ 0b011010#6 ++ 1#32 : Txn) = .wrRk10 1 := by
  decide
theorem test_decode_badwr : decode (0b1#1 ++ 0b000001#6 ++ 7#32 : Txn) = .badwr 0x01 ∧
    decode (0b1#1 ++ 0b011011#6 ++ 0#32 : Txn) = .badwr 0x1B ∧
    decode (0b1#1 ++ 0b111111#6 ++ 0#32 : Txn) = .badwr 0x3F := by decide

/-- Numbers of 40 bits, as the opcode table gives its rows; bit 39 makes no transaction. -/
theorem test_table_word : decodeTableWord 40 0x4C00000000 = some .pop ∧ decodeTableWord 40 0x4000000005 = some .mitm ∧
    decodeTableWord 39 0x5A00000000 = some (.wrRk10 0) ∧ decodeTableWord 40 0x8000000000 = none := by decide

/-- The instruction of a table word runs as the first one after reset (95 section 7 lines 6 and 12). -/
theorem test_fetch_word :
    gives (step (State.reset.withFetchWord 40 0x4100000000)) (fun t => statusWord t == 0x308) = true ∧
    gives (step (State.reset.withFetchWord 40 0x4200D1BD2D)) (fun t => t.k1 == 0xD1BD2D) = true := by decide

/-! ### Host accesses (95 section 7) -/

/-- Line 4: an opcode that is reserved. -/
theorem test_illcmd : gives (exec (.illcmd 7) State.reset) (fun t => statusWord t == 0x108) = true := by decide

/-- Line 7: an index that is not mapped. -/
theorem test_badwr : gives (exec (.badwr 0x20) State.reset) (fun t => statusWord t == 0x308) = true := by decide

/-- Line 2: the high byte is dropped, with no refusal. -/
theorem test_wr_din :
    gives (exec (.wrDin 0xABF955B9) State.reset) (fun t => t.din == 0xF955B9 && statusWord t == 0) = true := by decide

/-- Line 3: the register with zeros above. -/
theorem test_rd_din :
    gives (exec (.rd 0x04) { State.reset with din := 0xF955B9 }) (fun t => t.rdata == 0x00F955B9) = true := by decide

/-- Line 8: an index that is not mapped reads 0 and is not refused. -/
theorem test_rd_unmapped :
    gives (exec (.rd 0x20) { State.reset with err := true, cause := .badacc })
      (fun t => t.rdata == 0 && statusWord t == 0x308) = true := by decide

/-- Line 12: a write while busy. -/
theorem test_wr_busy :
    gives (exec (.wrK1 1) { State.reset with busy := true, phase := .short })
      (fun t => t.k1 == 0 && statusWord t == 0x219) = true := by decide

/-- Line 9: acceptance clears the refusal. -/
theorem test_nop :
    gives (exec .nop { State.reset with err := true, cause := .badacc }) (fun t => statusWord t == 0x11) = true := by
  decide

/-- Line 13: a command while busy. -/
theorem test_ksched_busy :
    gives (exec .ksched { State.reset with busy := true, phase := .short, op := .enc })
      (fun t => statusWord t == 0x219 && t.op == .enc) = true := by decide

/-- Program 4: acceptance of `MITM`, with the flush. -/
theorem test_mitm :
    gives (exec .mitm { State.reset with rf := [⟨1, 2⟩], i := 4, done := true })
      (fun t => statusWord t == 0x21 && t.i == 0) = true := by decide

/-- Program 4: a pop of the last pair. -/
theorem test_pop :
    gives (exec .pop { State.reset with rf := [⟨2, 1⟩], done := true }) (fun t => statusWord t == 2) = true := by decide

/-- Line 10: a pop of nothing. -/
theorem test_pop_empty : gives (exec .pop State.reset) (fun t => t == State.reset) = true := by decide

/-- Program 4: the head of the result FIFO. -/
theorem test_rd_result :
    gives (exec (.rd 0x0A) { State.reset with rf := [⟨2, 1⟩] }) (fun t => t.rdata == 2) = true ∧
    gives (exec (.rd 0x0B) { State.reset with rf := [⟨2, 1⟩] }) (fun t => t.rdata == 1) = true := by decide

/-- Program 3: the last round key. -/
theorem test_wr_rk10 :
    gives (exec (.wrRk10 0xBBBBBB) State.reset) (fun t => t.rk[10] == 0xBBBBBB && t.rk[9] == 0) = true := by decide

/-! ### The cipher (95 sections 2 to 4) -/

theorem test_slayer : sLayer present24 0x012345 = 0xC56B90 ∧ invSLayer present24 0x6789AB = 0x2DB463 ∧
    sLayer present24 0x800000 = 0x3CCCCC := by decide +kernel

theorem test_player : pLayer present24 0x000002 = 0x000040 ∧ invPLayer present24 0x000002 = 0x000010 ∧
    pLayer present24 0x123456 = 0x00766A ∧ invPLayer present24 0xABCDEF = 0xF6D7B3 := by decide +kernel

/-- 95 section 3.4, key D1BD2D. -/
theorem test_key_schedule : keySchedule present24 0xD1BD2D =
    #v[0x000000, 0xA00000, 0x46F4B5, 0x000069, 0x400062, 0xC0002A, 0xAF4B7B, 0x4006B6, 0x00064C, 0x800284,
      0x34B7D5] := by decide +kernel

/-- 95 section 4.1, line 4. -/
theorem test_encrypt : encrypt present24 (keySchedule present24 0xD1BD2D) 0xF955B9 = 0x47A929 := by decide +kernel

/-- 95 section 4.2: a trailing XOR of `rk[0]` would give 032547. -/
theorem test_decrypt :
    decrypt present24 #v[0x111111, 0x222222, 0x333333, 0x444444, 0x555555, 0x666666, 0x777777, 0x888888, 0x999999,
      0xAAAAAA, 0xBBBBBB] 0xD9FB8B = 0x123456 := by decide +kernel

/-- 95 section 4.3, lines 2 and 3: the order of the keys matters. -/
theorem test_double_encrypt : doubleEncrypt present24 0xD1BD2D 0xFFFFFF 0xF955B9 = 0xEE3FE7 ∧
    doubleEncrypt present24 0xFFFFFF 0xD1BD2D 0xF955B9 = 0x6E30F5 := by decide +kernel

/-- One step of each function on the registers of a datapath (95 sections 3.4, 4.1, 4.3). -/
theorem test_exec_key_schedule :
    gives (exec (.keySchedule .denc1 .k2) { State.reset with k2 := 0x5A })
      (fun t => t.denc1.rk[10] == 0x416B55 && t.rk[10] == 0) = true := by decide +kernel

theorem test_exec_encrypt :
    gives (exec (.encrypt .short .din) { State.reset with din := 0xFFFFFF }) (fun t => t.cst == 0x821029) = true := by
  decide +kernel

theorem test_exec_decrypt :
    gives (exec (.decrypt .denc2 .din) State.reset) (fun t => t.denc2.st == 0xF058A2) = true := by decide +kernel

theorem test_exec_double_encrypt :
    gives (exec .doubleEncrypt { State.reset with k1 := 0x5A, k2 := 0xC3, din := 0xD41330 })
      (fun t => t.denc1.st == 0x87C05E && t.denc2.st == 0xE86E36) = true := by decide +kernel

/-- A round is key, substitution, permutation; an inverse round takes it back (R155, R157). -/
theorem test_encround :
    gives (exec (.encround .short 0) { State.reset with cst := 0xF955B9 })
      (fun t => t.cst == pLayer present24 0x2E008E) = true := by decide +kernel

theorem test_decround :
    gives (exec (.decround .short 3) { State.reset with cst := pLayer present24 0x2E008E, rk := Vector.replicate 11 1 })
      (fun t => t.cst == 0xF955B8) = true := by decide +kernel

theorem test_addkey :
    gives (exec (.addkey .denc1 10) { State.reset with denc1 := ⟨0, Vector.replicate 11 0x111111, 0x032547⟩ })
      (fun t => t.denc1.st == 0x123456) = true := by decide

theorem test_exec_layers :
    gives (exec (.slayer .short) { State.reset with cst := 0xCDEF01 }) (fun t => t.cst == 0x4712C5) = true ∧
    gives (exec (.invslayer .short) { State.reset with cst := 0xCDEF01 }) (fun t => t.cst == 0x079A5E) = true ∧
    gives (exec (.player .short) { State.reset with cst := 0x400000 }) (fun t => t.cst == 0x020000) = true ∧
    gives (exec (.invplayer .short) { State.reset with cst := 0x400000 }) (fun t => t.cst == 0x080000) = true := by
  decide +kernel

/-- 41 R140, R142: the loaded register, and its window, which is zero. -/
theorem test_ksload : gives (exec (.ksload .short .k1) { State.reset with k1 := 0xD1BD2D })
    (fun t => t.kreg == 0xD1BD2D00000000000000 && rkx t.kreg == 0) = true := by decide

/-- 41 R148: the register after the first update of key 1 (`0xC << 76 | 1 << 37 | 0x8000`), and its round key. -/
theorem test_ksupdate : gives (exec (.ksupdate .short 1) { State.reset with kreg := ksLoad 1 })
    (fun t => t.kreg == 0xC0000000002000008000 && rkx t.kreg == 0x200000) = true := by decide +kernel

theorem test_rkx : gives (exec (.rkx .short 10) { State.reset with kreg := 0xC0000000002000008000 })
    (fun t => t.rk[10] == 0x200000) = true := by decide

/-! ### The merge-join (95 section 5) -/

/-- A sorted table from values and keys. -/
def table (l : List (Nat × Nat)) : List Entry := l.map fun x => pack (BitVec.ofNat 24 x.1) (BitVec.ofNat 24 x.2)

/-- Key pairs from numbers. -/
def pairs (l : List (Nat × Nat)) : List KeyPair := l.map fun x => ⟨BitVec.ofNat 24 x.1, BitVec.ofNat 24 x.2⟩

theorem test_join_1 :
    join (table [(1, 0), (3, 1), (3, 4), (5, 2), (7, 3), (7, 5)])
        (table [(0, 9), (3, 6), (3, 7), (3, 8), (6, 1), (7, 0)]) =
      pairs [(1, 6), (1, 7), (1, 8), (4, 6), (4, 7), (4, 8), (3, 0), (5, 0)] := by decide +kernel

theorem test_join_2 :
    join (table [(5, 0), (5, 1)]) (table [(5, 0), (5, 1)]) = pairs [(0, 0), (0, 1), (1, 0), (1, 1)] := by decide +kernel

theorem test_join_3 : join (table [(1, 0), (2, 1)]) (table [(3, 0), (4, 1)]) = [] := by decide +kernel

theorem test_join_4 :
    join (table [(1, 0), (9, 1), (9, 2)]) (table [(9, 7)]) = pairs [(1, 7), (2, 7)] := by decide +kernel

/-! ### The engine, one step at a time (44 section 7) -/

/-- The inputs of the worked example, `KBITS = 2`, in phase GEN. -/
def example2 : State :=
  { idle 2 with p1 := 0xD41330, c1 := 0x1EA8D2, p2 := 0x9D0AF2, c2 := 0xC8D691, op := .mitm, busy := true, phase := .gen }

/-- The generated tables of the worked example, in phase SORT. -/
def example2Sort : State :=
  { example2 with
    phase := .sort
    tf := Memory.ofEntriesFrom 0 (table [(0xE77AA4, 0), (0x647045, 1), (0x5A11BC, 2), (0x86616E, 3)])
    tb := Memory.ofEntriesFrom 0 (table [(0xDACC94, 0), (0x5A11BC, 1), (0x54D2FC, 2), (0xEDF3B7, 3)]) }

/-- The sorted tables of the worked example, in phase JOIN. -/
def example2Join : State :=
  { example2 with
    phase := .join
    tf := Memory.ofEntriesFrom 0 (table [(0x5A11BC, 2), (0x647045, 1), (0x86616E, 3), (0xE77AA4, 0)])
    tb := Memory.ofEntriesFrom 0 (table [(0x54D2FC, 2), (0x5A11BC, 1), (0xDACC94, 0), (0xEDF3B7, 3)]) }

theorem test_gen : gives (exec (.gen 1 2) example2)
    (fun t => t.tf == [(2, pack 0x5A11BC 2)] && t.tb == [(2, pack 0x54D2FC 2)] && t.gdone == [2]) = true := by
  decide +kernel

theorem test_sort : gives (exec .sort example2Sort)
    (fun t => t.tf == example2Join.tf && t.tb == example2Join.tb && t.phase == .sort) = true := by decide +kernel

theorem test_advb : gives (exec .advb example2Join) (fun t => t.i == 0 && t.j == 1) = true ∧
    gives (exec .advf example2Join) (fun t => t == example2Join) = true := by decide +kernel

theorem test_advf :
    gives (exec .advf { example2Join with i := 1, j := 2 }) (fun t => t.i == 2 && t.j == 2) = true := by decide +kernel

theorem test_emitx : gives (exec .emitx { example2Join with j := 1 })
    (fun t => t.i == 1 && t.j == 2 && t.vq == [⟨⟨2, 1⟩, .pending⟩]) = true := by decide +kernel

/-- The tables of the example of R191, the cursors at the run of 3. -/
def runs : State :=
  { idle 2 with
    op := .mitm
    busy := true
    phase := .join
    tf := Memory.ofEntriesFrom 0 (table [(1, 0), (3, 1), (3, 4), (5, 2)])
    tb := Memory.ofEntriesFrom 0 (table [(3, 6), (3, 7), (3, 8), (6, 1)])
    i := 1 }

/-- R191: the emission begins; its fourth pair is (k4, k6). -/
theorem test_emitx_run :
    gives (exec .emitx runs) (fun t => t.ie == 3 && t.je == 3 && t.a == 1 && t.b == 1 && t.i == 1 && t.j == 0) = true ∧
    gives (exec .emitx { runs with ie := 3, je := 3, a := 1, b := 2, vq := [⟨⟨1, 7⟩, .pass⟩] })
      (fun t => t.a == 2 && t.b == 0 && t.vq == [⟨⟨1, 7⟩, .pass⟩, ⟨⟨1, 8⟩, .pending⟩]) = true := by decide +kernel

theorem test_verify :
    gives (exec (.verify 1 0) { example2Join with vq := [⟨⟨2, 1⟩, .pending⟩] })
      (fun t => t.vq == [⟨⟨2, 1⟩, .pass⟩]) = true ∧
    gives (exec (.verify 1 0) { example2Join with vq := [⟨⟨1, 2⟩, .pending⟩] })
      (fun t => t.vq == [⟨⟨1, 2⟩, .fail⟩]) = true := by decide +kernel

theorem test_retire :
    gives (exec .retire { example2Join with vq := [⟨⟨2, 1⟩, .pass⟩] })
      (fun t => t.rf == [⟨2, 1⟩] && t.vq == []) = true ∧
    gives (exec .retire { example2Join with vq := [⟨⟨1, 2⟩, .fail⟩], rf := [⟨2, 1⟩] })
      (fun t => t.rf == [⟨2, 1⟩] && t.vq == []) = true := by decide

/-- R199: a passed pair waits while the result FIFO is full. -/
theorem test_retire_full :
    gives (exec .retire { example2Join with vq := [⟨⟨2, 1⟩, .pass⟩], rf := [⟨3, 3⟩] })
      (fun t => t.rf == [⟨3, 3⟩] && t.vq == [⟨⟨2, 1⟩, .pass⟩]) = true := by decide

/-- OUT of the worked example. -/
theorem test_search_result : searchResult (params 2) 0xD41330 0x1EA8D2 0x9D0AF2 0xC8D691 = [⟨2, 1⟩] := by decide +kernel

/-! ### The host's scripts: the column T of the programs of 95 section 8 -/

/-- Program 1. -/
theorem test_wait : (waitDone 3).trace [0x11, 0x11, 2] =
    ([0x0100000000, 0x0100000000, 0x0100000000], some 2) := by decide

theorem test_loadsched : (loadSched 1 0xD1BD2D).trace [2] =
    ([0x4200D1BD2D, 0x4000000001, 0x0100000000], some 2) := by decide

/-- Program 4: a round that gets a pair, and the round that ends the list. -/
theorem test_next : (nextPair 2).trace [0x21, 0x45, 2, 1] =
      ([0x0100000000, 0x0100000000, 0x0A00000000, 0x0B00000000, 0x4C00000000], some (some ⟨2, 1⟩)) ∧
    (nextPair 1).trace [2, 2] = ([0x0100000000, 0x0100000000], some none) := by decide

/-- The second read of R102: the last push came between the read of `RVALID = 0`, `DONE = 1` and it. -/
theorem test_next_second_read : (nextPair 1).trace [2, 6, 2, 1] =
    ([0x0100000000, 0x0100000000, 0x0A00000000, 0x0B00000000, 0x4C00000000], some (some ⟨2, 1⟩)) := by decide

/-- Program 5, with a core that is done before the third round. -/
theorem test_drain :
    ((drain 1 4).trace [0x45, 0xC8921B, 0x2B2B37, 0x45, 0x1A09EC, 0xD9793F, 6, 0x3D93B5, 0x3AA01A, 2, 2]).2 =
      some (pairs [(0xC8921B, 0x2B2B37), (0x1A09EC, 0xD9793F), (0x3D93B5, 0x3AA01A)]) := by decide

/-- The words of Program 4, with the answers of an empty list (Program 6). -/
theorem test_attack : (attack 1 1 0xD41330 0x1EA8D2 0x9D0AF2 0xC8D691).trace [2, 2] =
    ([0x4600D41330, 0x47001EA8D2, 0x48009D0AF2, 0x4900C8D691, 0x4000000005, 0x0100000000, 0x0100000000],
      some []) := by decide

/-- The composite of R102, line by line, with the numbers of Program 2. -/
theorem test_cascade_by_parts : (cascadeByParts 1 0x5A 0xC3 0xD41330).trace [2, 2, 0x87C05E, 2, 2, 0xE86E36] =
    ([0x420000005A, 0x4000000001, 0x0100000000, 0x4400D41330, 0x4000000002, 0x0100000000, 0x0500000000,
      0x42000000C3, 0x4000000001, 0x0100000000, 0x440087C05E, 0x4000000002, 0x0100000000, 0x0500000000],
      some 0xE86E36) := by decide

/-! ### Witnesses: for each obligation with hypotheses, states and operands that meet them together, clause by clause -/

theorem exists_next {r : Result} (h : gives r (fun _ => true) = true) : ∃ t, r = .next t := by
  cases r with
  | next t => exact ⟨t, rfl⟩
  | fault f => cases f
  | refused x => exact absurd h (by simp [gives])

/-- Plain tables that meet R20 and R21, with `SBOX[0] = 0xC`: complement two bits of a nibble, leave every bit in its
place. -/
def plain : Tables where
  sbox := Vector.ofFn fun n => BitVec.ofNat 4 n.val ^^^ 0xC
  invsbox := Vector.ofFn fun n => BitVec.ofNat 4 n.val ^^^ 0xC
  perm := Vector.ofFn id
  invperm := Vector.ofFn id

theorem plain_ok : plain.Ok := by constructor <;> decide

/-- A core over them with a key space of two keys. -/
def plainParams : Params := ⟨1, 2, 2, 1, plain⟩

theorem witness_TheResultListIsAllConsistentKeyPairs : plainParams.Ok :=
  ⟨by decide, by decide, by decide, by decide, by decide, plain_ok⟩

/-- That core, in phase GEN with key 0 generated. -/
def plainGen : State :=
  { State.resetOf plainParams with
    op := .mitm
    busy := true
    phase := .gen
    gdone := [0]
    tf := [(0, forwardEntry plain 0 0)]
    tb := [(0, backwardEntry plain 0 0)] }

/-- That core, in phase SORT. -/
def plainSort : State :=
  { plainGen with
    phase := .sort
    gdone := [0, 1]
    tf := Memory.ofEntriesFrom 0 ((keySpace plainParams).map (forwardEntry plain 0))
    tb := Memory.ofEntriesFrom 0 ((keySpace plainParams).map (backwardEntry plain 0)) }

/-- That core, in phase JOIN, with one candidate passed and one waiting. -/
def plainJoin : State :=
  { plainSort with
    phase := .join
    tf := Memory.ofEntriesFrom 0 (forwardTable plainParams 0)
    tb := Memory.ofEntriesFrom 0 (backwardTable plainParams 0)
    vq := [⟨⟨0, 0⟩, if verifies plain 0 0 ⟨0, 0⟩ then .pass else .fail⟩, ⟨⟨1, 1⟩, .pending⟩] }

theorem plainGen_inv : plainGen.params.Ok ∧ StatusInv plainGen ∧ SearchInv plainGen :=
  ⟨witness_TheResultListIsAllConsistentKeyPairs, by constructor <;> decide,
    ⟨by constructor <;> decide, by decide, by decide +kernel⟩⟩

theorem plainSort_inv : plainSort.params.Ok ∧ StatusInv plainSort ∧ SearchInv plainSort :=
  ⟨witness_TheResultListIsAllConsistentKeyPairs, by constructor <;> decide,
    ⟨by constructor <;> decide, ⟨_, .refl _, by unfold holds; decide +kernel⟩,
      ⟨_, .refl _, by unfold holds; decide +kernel⟩⟩⟩

theorem plainJoin_inv : plainJoin.params.Ok ∧ StatusInv plainJoin ∧ SearchInv plainJoin :=
  ⟨witness_TheResultListIsAllConsistentKeyPairs, by constructor <;> decide,
    ⟨by unfold holds; decide +kernel, by unfold holds; decide +kernel, by constructor <;> decide +kernel,
      by decide +kernel, by decide +kernel, by decide +kernel⟩⟩

theorem witness_EveryStepKeepsTheSearchInvariant :
    ((plainGen.params.Ok ∧ StatusInv plainGen ∧ SearchInv plainGen) ∧ ∃ t, step plainGen = .next t) ∧
    ((plainSort.params.Ok ∧ StatusInv plainSort ∧ SearchInv plainSort) ∧ ∃ t, step plainSort = .next t) ∧
    ((plainJoin.params.Ok ∧ StatusInv plainJoin ∧ SearchInv plainJoin) ∧ ∃ t, step plainJoin = .next t) :=
  ⟨⟨plainGen_inv, exists_next (by decide +kernel)⟩, ⟨plainSort_inv, exists_next (by decide +kernel)⟩,
    ⟨plainJoin_inv, exists_next (by decide +kernel)⟩⟩

theorem joinInv_agenda {s : State} (h : JoinInv s) (q : List KeyPair) (g : List Event) :
    JoinInv { s with rf := q, agenda := g } := by
  obtain ⟨a, b, c, d, e, f⟩ := h
  exact ⟨a, b, ⟨c.1, c.2, c.3, c.4, c.5⟩, d, e, f⟩

/-- The cases of what the host is owed: an agent's turn, a pop (of something, of nothing), `MITM` (accepted, refused),
reset. -/
theorem witness_NoResultIsLostDoubledOrReordered :
    (∀ q g, ({ plainJoin with rf := q, agenda := g } : State).params.Ok ∧
      StatusInv { plainJoin with rf := q, agenda := g } ∧ SearchInv { plainJoin with rf := q, agenda := g }) ∧
    (∀ q ∈ [[], [⟨0, 0⟩]], ∀ g ∈ [[], [Event.host 0x4C00000000], [.host 0x4000000005], [.reset]],
      ∃ t, step { plainJoin with rf := q, agenda := g } = .next t) ∧
    decode 0x4C00000000 = .pop ∧ decode 0x4000000005 = .mitm ∧
    (StatusInv (idle 2) ∧ SearchInv (idle 2) ∧ (idle 2).busy = false) := by
  obtain ⟨h1, h2, h3⟩ := plainJoin_inv
  refine ⟨fun q g => ⟨h1, ⟨h2.1, h2.2, h2.3, h2.4, h2.5⟩, joinInv_agenda (s := plainJoin) h3 q g⟩, fun q hq g hg => ?_,
    by decide, by decide, by constructor <;> decide, trivial, rfl⟩
  · simp only [List.mem_cons, List.not_mem_nil, or_false] at hq hg
    rcases hq with rfl | rfl <;> rcases hg with rfl | rfl | rfl | rfl <;> exact exists_next (by decide +kernel)

/-- In each phase of a search, and in a short command. -/
theorem witness_EveryTurnBringsARunningCommandNearerToItsEnd :
    ∀ s ∈ [plainGen, plainSort, plainJoin, { State.resetOf plainParams with busy := true, phase := .short, op := .dec }],
      s.params.Ok ∧ StatusInv s ∧ SearchInv s ∧ s.agenda = [] ∧ s.busy = true ∧ s.rf.length < s.params.fifoDepth ∧
        ∃ t, step s = .next t := by
  intro s hs
  simp only [List.mem_cons, List.not_mem_nil, or_false] at hs
  rcases hs with rfl | rfl | rfl | rfl
  · exact ⟨plainGen_inv.1, plainGen_inv.2.1, plainGen_inv.2.2, rfl, rfl, by decide, exists_next (by decide +kernel)⟩
  · exact ⟨plainSort_inv.1, plainSort_inv.2.1, plainSort_inv.2.2, rfl, rfl, by decide, exists_next (by decide +kernel)⟩
  · exact ⟨plainJoin_inv.1, plainJoin_inv.2.1, plainJoin_inv.2.2, rfl, rfl, by decide +kernel,
      exists_next (by decide +kernel)⟩
  · exact ⟨witness_TheResultListIsAllConsistentKeyPairs, by constructor <;> decide, trivial, rfl, rfl, by decide,
      exists_next (by decide +kernel)⟩

theorem witness_DecodingAnEncodedInstructionGivesItBack :
    (Instr.illcmd 6).wellFormed = true ∧ encode (.illcmd 6) = some 0x4000000006 ∧
    (Instr.badwr 0x3F).wellFormed = true ∧ encode (.badwr 0x3F) = some 0x7F00000000 ∧
    (Instr.wrRk10 0xFFFFFFFF).wellFormed = true ∧ encode (.wrRk10 0xFFFFFFFF) = some 0x5AFFFFFFFF := by decide

theorem witness_AStepRunsTheDecodedTransaction :
    ({ idle 2 with agenda := [.host 0x4200000001] } : State).agenda = .host 0x4200000001 :: [] := rfl

/-- The clauses of an agent's turn, the datapath at its first and at its last micro-step. -/
theorem witness_AnAgentsTurnRunsItsMicroOperation :
    ({ example2 with agenda := [.agent (.worker 0 3)] } : State).agenda = .agent (.worker 0 3) :: [] ∧
    ({ example2Sort with agenda := [.agent .sorter] } : State).agenda = .agent .sorter :: [] ∧
    ({ example2Join with agenda := [.agent (.lane 1 0)] } : State).agenda = .agent (.lane 1 0) :: [] ∧
    ({ example2Join with agenda := [.agent .retirement] } : State).agenda = .agent .retirement :: [] ∧
    (microProgram .ksched)[0]? = some (.op (.ksload .short .k1)) ∧
    (microProgram .ksched)[21]? = some (.op (.rkx .short 10)) ∧ (microProgram .ksched)[22]? = none ∧
    (microProgram .enc)[12]? = some (.storeDout .short) ∧ (idle 2).agenda = [] := by decide

/-- The join unit's turn: inside an emission; outside one, below, above, equal, and at the end. -/
theorem witness_TheJoinUnitComparesValuesOnly :
    (runs.phase = .join ∧ runs.jend = false ∧ emitting { runs with ie := 3, je := 3, a := 2, b := 2 } = true) ∧
    (example2Join.phase = .join ∧ example2Join.jend = false ∧ emitting example2Join = false) ∧
    entryValue (memRead example2Join .fwd 1) < entryValue (memRead example2Join .bwd 2) ∧
    entryValue (memRead example2Join .bwd 0) < entryValue (memRead example2Join .fwd 0) ∧
    entryValue (memRead example2Join .fwd 0) = entryValue (memRead example2Join .bwd 1) ∧
    ({ example2Join with i := 4, j := 3 } : State).params.n ≤ ({ example2Join with i := 4, j := 3 } : State).i := by
  decide +kernel

theorem witness_ResetAtAnyTimeGivesTheResetValues :
    ({ example2Join with agenda := [.reset] } : State).agenda = .reset :: [] := rfl

theorem witness_TheLayersUndoEachOther : plain.Ok := plain_ok

theorem witness_LayersWorkNibbleByNibbleAndBitByBit : plain.Ok := plain_ok

theorem witness_TheFirstRoundKeysDetermineTheKey : sbox plain 0 = 0xC := by decide

theorem witness_EncryptAndDecryptUndoEachOther : plain.Ok := plain_ok

theorem witness_TheCascadeMeetsInTheMiddle : plain.Ok := plain_ok

/-- The indices around `DOUT` and the round keys, busy; the two states of `RF`; the ends of the ranges that read 0. -/
theorem witness_AReadReturnsTheWordOfItsIndex :
    (∀ x ∈ [(0x04 : Index), 0x06, 0x0F, 0x1B], ¬(example2.busy = true ∧ (x = 0x05 ∨ (0x10 ≤ x ∧ x ≤ 0x1A)))) ∧
    ¬((idle 2).busy = true ∧ ((0x05 : Index) = 0x05 ∨ ((0x10 : Index) ≤ 0x05 ∧ (0x05 : Index) ≤ 0x1A))) ∧
    (idle 2).rf = [] ∧ ({ idle 2 with rf := [⟨2, 1⟩] } : State).rf = ⟨2, 1⟩ :: [] ∧
    (∀ x ∈ [(0x0D : Index), 0x0F], (0x0D : Index) ≤ x ∧ x ≤ 0x0F) ∧ (∀ x ∈ [(0x1B : Index), 0x3F], (0x1B : Index) ≤ x) := by
  decide

theorem witness_AReadOfAResultWhileBusyIsAnyBlock :
    example2.busy = true ∧ ∀ x ∈ [(0x05 : Index), 0x10, 0x1A], x = 0x05 ∨ (0x10 ≤ x ∧ x ≤ 0x1A) := by decide

theorem witness_AnOperandWriteStoresTheLow24Bits : (idle 2).busy = false := rfl

theorem witness_WritesWhileBusyAreRefused :
    example2.busy = true ∧ Instr.wrRk10 7 ∈ [Instr.nop, .mitm, .wrK1 7, .wrRk10 7] := by decide

theorem witness_CommandsAreAcceptedExactlyWhenReady : (idle 2).busy = false ∧ example2.busy = true := ⟨rfl, rfl⟩

theorem witness_MitmIsAcceptedWithAFlush : (idle 2).busy = false := rfl

theorem witness_PopRemovesTheHead : ({ idle 2 with rf := [⟨2, 1⟩] } : State).rf = ⟨2, 1⟩ :: [] ∧ (idle 2).rf = [] :=
  ⟨rfl, rfl⟩

/-- A search that ends. -/
def ending : State := { example2Join with jend := true, i := 4, j := 3 }

theorem witness_EveryStepKeepsTheStatusInvariants : StatusInv ending ∧ ∃ t, step ending = .next t :=
  ⟨by constructor <;> decide, exists_next (by decide +kernel)⟩

/-- A candidate that is delivered. -/
def delivering : State :=
  { example2Join with
    vq := [⟨⟨2, 1⟩, .pass⟩]
    workers := [.zero, .zero]
    lanes := [.zero, .zero] }

theorem witness_EveryStepKeepsTheCapacities : CapacityInv delivering ∧ ∃ t, step delivering = .next t :=
  ⟨by constructor <;> decide, exists_next (by decide +kernel)⟩

theorem witness_EveryStepKeepsTheCanonicalForms : CanonInv plainGen ∧ ∃ t, step plainGen = .next t :=
  ⟨by constructor <;> decide, exists_next (by decide +kernel)⟩

theorem witness_EveryStepKeepsTheCursorsInRange :
    CursorInv { runs with ie := 3, je := 3, a := 2, b := 2 } ∧
      ∃ t, step { runs with ie := 3, je := 3, a := 2, b := 2 } = .next t :=
  ⟨by constructor <;> decide, exists_next (by decide +kernel)⟩

theorem witness_ARunningCommandKeepsItsOperands :
    ({ idle 2 with busy := true, phase := .short, op := .enc } : State).busy = true ∧ Op.enc ≠ .ksched ∧
    (∃ t, step { idle 2 with busy := true, phase := .short, op := .enc } = .next t) ∧
    (∃ t, step { idle 2 with busy := true, phase := .short, op := .ksched } = .next t) :=
  ⟨rfl, by decide, exists_next (by decide +kernel), exists_next (by decide +kernel)⟩

/-- A read while a result waits in `RF`. -/
theorem witness_TheHeadOfTheResultFifoIsStable :
    (∃ t, step { delivering with rf := [⟨3, 3⟩], agenda := [.host 0x0A00000000] } = .next t) ∧
    ∀ w rest, ([.host 0x0A00000000] : List Event) = .host w :: rest →
      decode w ≠ .pop ∧ (decode w = .mitm → delivering.busy = true) := by
  refine ⟨exists_next (by decide +kernel), fun w rest h => ?_⟩
  cases h
  decide

/-- A host access in phase SORT, and the turns of agents whose work is not there: a worker on a marked key, the sorter
outside its phase, the sequencer before the join has ended. -/
theorem witness_OnlyGenerationAndSortingWriteTheTables :
    ∀ u ∈ [{ example2Sort with agenda := [.host 0x4200000001] }, { plainGen with agenda := [.agent (.worker 0 0)] },
        { example2Join with agenda := [.agent .sorter] }, { delivering with agenda := [.agent .sequencer] }],
      (∃ t, step u = .next t) ∧ (∀ rest, u.agenda ≠ .reset :: rest) ∧
      (∀ w k, moves u (.worker w k) →
        ¬(u.phase = .gen ∧ w < u.params.workers ∧ k.toNat < u.params.n ∧ k.toNat ∉ u.gdone)) ∧
      ¬(moves u .sorter ∧ u.phase = .sort) ∧
      ¬(moves u .sequencer ∧ u.phase = .join ∧ u.jend = true ∧ u.vq = []) := by
  intro u hu
  simp only [List.mem_cons, List.not_mem_nil, or_false] at hu
  rcases hu with rfl | rfl | rfl | rfl
  · exact ⟨exists_next (by decide +kernel), by simp, by simp [moves], by simp [moves], by simp [moves]⟩
  · refine ⟨exists_next (by decide +kernel), by simp, ?_, by simp [moves], by simp [moves]⟩
    rintro w k (⟨rest, h⟩ | ⟨h, -⟩)
    · cases h
      decide
    · cases h
  · exact ⟨exists_next (by decide +kernel), by simp, by simp [moves], by simp [example2Join], by simp [moves]⟩
  · exact ⟨exists_next (by decide +kernel), by simp, by simp [moves], by simp [moves], by simp [delivering]⟩

/-- A turn of the core, a read, a pop and an operand write beside a refusal that stands; a new command that clears it; a
write that is refused. -/
theorem witness_ErrIsStickyAndOnlyHostWritesSetIt :
    (∃ t, step { example2 with err := true, cause := .busywr } = .next t) ∧
    (∀ w ∈ [(0x0100000000 : Txn), 0x4C00000000, 0x4200000001],
      ∃ t, step { idle 2 with err := true, cause := .badacc, agenda := [.host w] } = .next t) ∧
    gives (step { idle 2 with err := true, cause := .badacc, agenda := [.host 0x4000000000] })
      (fun t => t.err == false) = true ∧
    gives (step { example2 with agenda := [.host 0x4200000001] }) (fun t => t.cause == .busywr) = true := by
  refine ⟨exists_next (by decide +kernel), fun w hw => ?_, by decide, by decide⟩
  simp only [List.mem_cons, List.not_mem_nil, or_false] at hw
  rcases hw with rfl | rfl | rfl <;> exact exists_next (by decide)

theorem witness_KschedLoadsTheSchedule : (idle 2).busy = false ∧ (idle 2).agenda = [] := ⟨rfl, rfl⟩

theorem witness_EncAndDecWriteDout : (idle 2).busy = false ∧ (idle 2).agenda = [] := ⟨rfl, rfl⟩

theorem witness_DencWritesDoutAndLeavesTheSchedule : (idle 2).busy = false ∧ (idle 2).agenda = [] := ⟨rfl, rfl⟩

theorem witness_NopOnlyClearsTheError : (idle 2).busy = false ∧ (idle 2).agenda = [] := ⟨rfl, rfl⟩

/-- A short command at its first micro-step, and at its end. -/
theorem witness_AShortCommandKeepsItsResultUnderEverySchedule :
    ∀ n ∈ [0, 13], StatusInv { idle 2 with busy := true, phase := .short, op := .enc, upc := n } ∧
      ∃ t, step { idle 2 with busy := true, phase := .short, op := .enc, upc := n } = .next t := by
  intro n hn
  simp only [List.mem_cons, List.not_mem_nil, or_false] at hn
  rcases hn with rfl | rfl <;> exact ⟨by constructor <;> decide, exists_next (by decide +kernel)⟩

theorem witness_AShortCommandIsHeadingForItsFunction : Op.ksched ≠ .mitm ∧ (idle 2).busy = false := by decide

theorem witness_GenWritesBothEntriesOfItsKey :
    plainGen.phase = .gen ∧ 1 < plainGen.params.workers ∧ (1 : Block).toNat < plainGen.params.n ∧
      (1 : Block).toNat ∉ plainGen.gdone := by decide

theorem witness_SortArrangesBothTablesAscending : example2Sort.phase = .sort := rfl

theorem witness_AdvancesMoveOneCursor :
    (example2Join.phase = .join ∧ example2Join.jend = false ∧ emitting { example2Join with i := 3, j := 3 } = false ∧
      3 < example2Join.params.n) ∧
    entryValue (memRead example2Join .fwd 3) < entryValue (memRead example2Join .bwd 3) ∧
    entryValue (memRead example2Join .bwd 2) < entryValue (memRead example2Join .fwd 3) := by decide +kernel

/-- An emission that begins, with the ends of its runs; one that goes on, at its last pair. -/
theorem witness_EmitxEmitsTheCrossProductPairByPair :
    (runs.phase = .join ∧ runs.jend = false ∧ runs.vq.length < runs.params.lanes) ∧
    (emitting runs = false ∧ runs.i < runs.params.n ∧ runs.j < runs.params.n ∧
      entryValue (memRead runs .fwd runs.i) = entryValue (memRead runs .bwd runs.j)) ∧
    (IsRunEnd runs .fwd 1 3 ∧ IsRunEnd runs .bwd 0 3) ∧
    emitting { runs with ie := 3, je := 3, a := 2, b := 2 } = true := by
  refine ⟨by decide, by decide +kernel, ⟨⟨by decide, by decide, fun z h1 h2 => ?_, fun _ => by decide +kernel⟩,
    ⟨by decide, by decide, fun z h1 h2 => ?_, fun _ => by decide +kernel⟩⟩, by decide⟩
  · interval_cases z <;> decide +kernel
  · interval_cases z <;> decide +kernel

theorem witness_VerifyJudgesByTheSecondPair :
    plainJoin.phase = .join ∧ 1 < plainJoin.params.lanes ∧ plainJoin.vq[1]? = some ⟨⟨1, 1⟩, .pending⟩ := by
  decide +kernel

/-- A failed head, a passed one with room in `RF`, and one without. -/
theorem witness_RetireDeliversInOrder :
    example2Join.phase = .join ∧
    ({ example2Join with vq := [⟨⟨2, 1⟩, .fail⟩] } : State).vq = ⟨⟨2, 1⟩, .fail⟩ :: [] ∧
    (delivering.vq = ⟨⟨2, 1⟩, .pass⟩ :: [] ∧ delivering.rf.length < delivering.params.fifoDepth) ∧
    delivering.params.fifoDepth ≤ ({ delivering with rf := [⟨3, 3⟩] } : State).rf.length := by decide

/-- The sequencer in each phase, before and at its end. -/
theorem witness_TheSequencerMovesOnExactlyWhenThePhaseIsDone :
    ((idle 2).phase = .idle ∧ ({ idle 2 with phase := .short, op := .enc } : State).phase = .short) ∧
    (plainGen.phase = .gen ∧ plainGen.gdone.Pairwise (· < ·) ∧ ¬(∀ k, k < plainGen.params.n → k ∈ plainGen.gdone)) ∧
    (∀ k, k < plainGen.params.n → k ∈ ({ plainGen with gdone := [0, 1] } : State).gdone) ∧
    (example2Sort.phase = .sort ∧ ¬(tableEntries example2Sort .fwd).Pairwise (· ≤ ·)) ∧
    ((tableEntries example2Join .fwd).Pairwise (· ≤ ·) ∧ (tableEntries example2Join .bwd).Pairwise (· ≤ ·)) ∧
    (ending.phase = .join ∧ ending.jend = true ∧ ending.vq = []) ∧
    ¬(example2Join.jend = true ∧ example2Join.vq = []) := by decide +kernel

/-- Each way a micro-operation can be not enabled, at the edge of its condition. -/
theorem witness_AMicroOperationThatIsNotEnabledWaits :
    (example2Sort.phase ≠ .gen ∧ example2.params.workers ≤ 2 ∧ example2.params.n ≤ (4 : Block).toNat ∧
      (0 : Block).toNat ∈ plainGen.gdone) ∧
    (example2.phase ≠ .sort ∧ example2.phase ≠ .join ∧ ending.jend = true) ∧
    (emitting { runs with ie := 3, je := 3, a := 2, b := 2 } = true ∧
      emitting { example2Join with i := 4 } = false ∧ example2Join.params.n ≤ 4) ∧
    (entryValue (memRead example2Join .bwd 1) ≤ entryValue (memRead example2Join .fwd 0) ∧
      entryValue (memRead example2Join .fwd 0) ≤ entryValue (memRead example2Join .bwd 1)) ∧
    (emitting example2Join = false ∧
      entryValue (memRead example2Join .fwd example2Join.i) ≠ entryValue (memRead example2Join .bwd example2Join.j)) ∧
    runs.params.lanes ≤ plainJoin.vq.length ∧
    (plainJoin.params.lanes ≤ 2 ∧ ∀ r, plainJoin.vq[2]? ≠ some ⟨r, .pending⟩) ∧
    (example2Join.vq = [] ∧
      ({ example2Join with vq := [⟨⟨2, 1⟩, .pending⟩] } : State).vq = ⟨⟨2, 1⟩, .pending⟩ :: []) := by
  refine ⟨by decide +kernel, by decide, by decide, by decide +kernel, by decide +kernel, by decide, ⟨by decide, ?_⟩,
    by decide⟩
  intro r h
  cases h

theorem witness_ATableReadsBackWhatWasWritten : (4 : Nat) ≠ 3 ∧ Memory.wf [(3, 7), (5, 9)] := by decide

theorem witness_TheJoinEmitsEveryMatchingPairOnce :
    (table [(3, 1), (3, 4), (5, 2)]).Pairwise (fun e d => entryValue e ≤ entryValue d) ∧
    (table [(3, 8), (3, 6), (6, 1)]).Pairwise (fun e d => entryValue e ≤ entryValue d) := by decide +kernel

/-- A script run with the default agents: before each access as many of their turns as the list says. -/
def play {α : Type} : Script α → List Nat → State → Option (α × State)
  | .done a, _, s => some (a, s)
  | .outOfPolls, _, _ => none
  | .read r k, ns, s =>
    if s.agenda = [] then
      match Host.Core.run core ns.headI s with
      | .next m =>
        match issue (readTxn r) m with
        | .next u => play (k u.rdata) ns.tail u
        | _ => none
      | _ => none
    else none
  | .write w k, ns, s =>
    if s.agenda = [] then
      match Host.Core.run core ns.headI s with
      | .next m =>
        match issue w.txn m with
        | .next u => play k ns.tail u
        | _ => none
      | _ => none
    else none

theorem play_runs {α : Type} {p : Script α} {ns : List Nat} {s t : State} {a : α} (h : play p ns s = some (a, t)) :
    Runs p s a t := by
  induction p generalizing ns s with
  | done x =>
    cases h
    exact ⟨rfl, rfl⟩
  | outOfPolls => cases h
  | read r k ih =>
    simp only [play] at h
    split_ifs at h with ha
    split at h
    · split at h
      · exact ⟨_, _, turns_of_run ha ‹_›, ‹_›, ih _ h⟩
      · cases h
    · cases h
  | write w k ih =>
    simp only [play] at h
    split_ifs at h with ha
    split at h
    · split at h
      · exact ⟨_, _, turns_of_run ha ‹_›, ‹_›, ih h⟩
      · cases h
    · cases h

/-- A search that has ended with a pair still in `RF`. -/
def ended : State := { State.resetOf plainParams with op := .mitm, done := true, rf := [⟨1, 0⟩] }

/-- A step before `DONE` and one after it; `DRAIN` of a pair that waits; the call of R228, on a core with a key space of
two keys, for a search that finds nothing; the composite, for any operands. -/
theorem witness_TheScriptsReturnWhatTheyStandFor :
    (StatusInv ending ∧ ending.done = false ∧ gives (step ending) (fun t => t.done) = true) ∧
    (ended.params.Ok ∧ StatusInv ended ∧ SearchInv ended ∧ ended.done = true ∧ ∃ t, step ended = .next t) ∧
    (∃ t, Runs (drain 1 2) ended [⟨1, 0⟩] t) ∧
    (StatusInv (State.resetOf plainParams) ∧ (State.resetOf plainParams).busy = false ∧
      ∃ t, Runs (attack 1 1 1 2 0 0) (State.resetOf plainParams) [] t) ∧
    (StatusInv (idle 2) ∧ (idle 2).busy = false ∧ ∃ word t, Runs (cascadeByParts 1 0x5A 0xC3 0xD41330) (idle 2) word t) := by
  have run : ∀ {α : Type} {p : Script (List α)} {ns : List Nat} {s : State} {a : List α},
      (play p ns s).map Prod.fst = some a → ∃ t, Runs p s a t := by
    intro α p ns s a h
    obtain ⟨⟨b, t⟩, ht, rfl⟩ := Option.map_eq_some_iff.mp h
    exact ⟨t, play_runs ht⟩
  refine ⟨⟨by constructor <;> decide, rfl, by decide +kernel⟩,
    ⟨witness_TheResultListIsAllConsistentKeyPairs, by constructor <;> decide, trivial, rfl, exists_next (by decide +kernel)⟩,
    run (ns := []) (by decide +kernel), ⟨by constructor <;> decide, rfl, run (ns := [0, 0, 0, 0, 0, 9]) (by decide +kernel)⟩,
    ⟨by constructor <;> decide, rfl, exists_runs_cascadeByParts rfl 0 _ _ _⟩⟩

end Sys2Proof.Tests
end

section
/-! PROOF. The datapath of the short commands (41 R145; 42 R160, R161; 43 R176; 45 R227): the registers its micro-steps
work on, what they compute, and that no other move of the core changes what they are heading for. -/

namespace Sys2Proof.Machine

open Sys2Proof.Config

/-! ### The part of the state a short command works on -/

/-- The registers the micro-steps of the short commands read or write; every other field has its reset value. -/
def datapathPart (s : State) : State :=
  { State.resetOf s.params with
    k1 := s.k1, k2 := s.k2, din := s.din, dout := s.dout, rk := s.rk, kreg := s.kreg, cst := s.cst
    denc1 := s.denc1, denc2 := s.denc2 }

/-- A micro-step of a command's program looks at nothing but the datapath's part of the state. -/
theorem datapathPart_runMicro {o : Op} {m : MicroStep} (h : m ∈ microProgram o) (s : State) :
    datapathPart (runMicro s m) = runMicro (datapathPart s) m := by
  cases o <;> simp only [microProgram, List.not_mem_nil, List.mem_append, List.mem_cons, List.mem_flatMap,
    List.mem_map, or_false] at h
  case ksched => rcases h with (rfl | rfl) | ⟨n, -, rfl | rfl⟩ <;> rfl
  case enc => rcases h with (rfl | ⟨n, -, rfl⟩) | rfl | rfl <;> rfl
  case dec => rcases h with ((rfl | rfl) | ⟨n, -, rfl⟩) | rfl <;> rfl
  case denc => rcases h with rfl | rfl | rfl | rfl | rfl <;> rfl

theorem datapathPart_foldl_runMicro {o : Op} {l : List MicroStep} (h : ∀ m ∈ l, m ∈ microProgram o) (s : State) :
    datapathPart (l.foldl runMicro s) = l.foldl runMicro (datapathPart s) := by
  induction l generalizing s with
  | nil => rfl
  | cons m l ih =>
    obtain ⟨hm, hl⟩ := List.forall_mem_cons.mp h
    rw [List.foldl_cons, List.foldl_cons, ih hl, datapathPart_runMicro hm]

/-- The result to come, computed on the datapath's part alone. -/
theorem shortResult_eq (s : State) :
    shortResult s = ((((microProgram s.op).drop s.upc).foldl runMicro (datapathPart s)).rk,
      (((microProgram s.op).drop s.upc).foldl runMicro (datapathPart s)).dout) := by
  rw [← datapathPart_foldl_runMicro (fun _ hm => List.mem_of_mem_drop hm)]
  rfl

/-- What a command is heading for depends on `OP`, the place in its program and the datapath's part of the state. -/
theorem shortResult_congr {s t : State} (ho : t.op = s.op) (hu : t.upc = s.upc)
    (hd : datapathPart t = datapathPart s) : shortResult t = shortResult s := by
  rw [shortResult_eq, shortResult_eq s, ho, hu, hd]

/-! ### The moves of the core while a short command runs -/

/-- While a command runs, no host access changes its phase or what it is heading for (R72). -/
theorem HostStep.keeps_shortResult {s t : State} (h : HostStep s t) (hb : s.busy = true) :
    t.phase = s.phase ∧ shortResult t = shortResult s := by
  cases h with
  | read x => exact ⟨rfl, shortResult_congr rfl rfl rfl⟩
  | refused c hc => exact ⟨rfl, shortResult_congr rfl rfl rfl⟩
  | store r x hr => simp [hb] at hr
  | accepted o hr => simp [hb] at hr
  | popped => exact ⟨rfl, shortResult_congr rfl rfl rfl⟩

/-- In phase SHORT the only moves of the core's agents are the next micro-step and completion (R227, R248). -/
theorem AgentStep.of_short {s t : State} (h : AgentStep s t) (hp : s.phase = .short) :
    t = s ∨ (∃ m, (microProgram s.op)[s.upc]? = some m ∧ t = microNext s m) ∨
      (shortDone s = true ∧ t = complete s) := by
  cases h with
  | idle => exact .inl rfl
  | micro m _ hm => exact .inr (.inl ⟨m, hm, rfl⟩)
  | shortComplete _ hd => exact .inr (.inr ⟨hd, rfl⟩)
  | gen w k hr => simp [genReady_iff, hp] at hr
  | joinEnd hr => simp [joinAtEnd_iff, hp] at hr
  | advf hr => simp [advfReady_iff, comparing_iff, hp] at hr
  | advb hr => simp [advbReady_iff, comparing_iff, hp] at hr
  | emitx hr _ => simp [emitxReady_iff, hp] at hr
  | toSort hq | sort hq | toJoin hq | verify _ _ _ hq | retireFail _ _ hq | retirePass _ _ hq | searchComplete hq =>
    cases hp.symm.trans hq

/-- Doing the next micro-step leaves the result to come as it was. -/
theorem shortResult_microNext {s : State} {m : MicroStep} (hm : (microProgram s.op)[s.upc]? = some m) :
    shortResult (microNext s m) = shortResult s := by
  obtain ⟨-, -, ho, hu, -⟩ := microNext_frame hm
  obtain ⟨hlt, hget⟩ := List.getElem?_eq_some_iff.mp hm
  have hpart : datapathPart (microNext s m) = runMicro (datapathPart s) m :=
    datapathPart_runMicro (List.mem_of_getElem? hm) _
  rw [shortResult_eq, shortResult_eq s, ho, hu, hpart, List.drop_eq_getElem_cons hlt, hget, List.foldl_cons]

/-- With no micro-step left, the result to come is in `RK` and `DOUT`. -/
theorem shortResult_of_shortDone {s : State} (hd : shortDone s = true) : shortResult s = (s.rk, s.dout) := by
  have hd : (microProgram s.op).length ≤ s.upc := of_decide_eq_true hd
  simp [shortResult, List.drop_eq_nil_of_le hd]

/-- An agent's turn goes on with the running command, or completes it. -/
theorem AgentStep.keeps_or_delivers {s t : State} (h : AgentStep s t) (hp : s.phase = .short) :
    (t.phase = .short ∧ shortResult t = shortResult s) ∨
      (t.phase = .idle ∧ t.done = true ∧ t.busy = false ∧ (t.rk, t.dout) = shortResult s) := by
  rcases h.of_short hp with rfl | ⟨m, hm, rfl⟩ | ⟨hd, rfl⟩
  · exact .inl ⟨hp, rfl⟩
  · obtain ⟨-, hph, -⟩ := microNext_frame hm
    exact .inl ⟨hph.trans hp, shortResult_microNext hm⟩
  · exact .inr ⟨rfl, rfl, rfl, (shortResult_of_shortDone hd).symm⟩

/-- What the world has scheduled is no part of what a command is heading for. -/
theorem shortResult_agenda (s : State) (l : List Event) : shortResult { s with agenda := l } = shortResult s :=
  shortResult_congr rfl rfl rfl

end Sys2Proof.Machine

open Sys2Proof Sys2Proof.Machine

/-- Settles O40, by the cases of a step: a host access is kept out by `BUSY = 1`, and an agent's turn does a micro-step
or completes. -/
theorem aShortCommandKeepsItsResultUnderEverySchedule :
    Obligations.AShortCommandKeepsItsResultUnderEverySchedule := by
  intro s t hs hp hstep hreset
  rcases step_cases hstep with ⟨w, rest, -, -, h⟩ | ⟨rest, ha, -⟩ | ⟨g, rest, -, h⟩ | ⟨-, h⟩
  · have hb : s.busy = true := hs.busy_iff.mpr (by simp [hp])
    obtain ⟨hph, hr⟩ := h.keeps_shortResult hb
    exact .inl ⟨hph.trans hp, hr.trans (shortResult_agenda s rest)⟩
  · exact absurd ha (hreset rest)
  · rw [← shortResult_agenda s rest]
    exact h.keeps_or_delivers hp
  · exact h.keeps_or_delivers hp

end

section
/-! PROOF. What the micro-steps of the short commands compute, all done: the functional level of 41 R143, 42 R156, R158
and 43 R175. -/

namespace Sys2Proof.Machine

open Sys2Proof.Config

/-- A property of the turns done holds after a loop over all the indices, when each turn brings it one further. -/
theorem foldl_finRange_induction {α : Type} {n : Nat} {P : Nat → α → Prop} {f : α → Fin n → α} {x : α} (h0 : P 0 x)
    (hstep : ∀ (i : Fin n) (a : α), P i.val a → P (i.val + 1) (f a i)) : P n ((List.finRange n).foldl f x) := by
  induction n with
  | zero => exact h0
  | succ n ih =>
    rw [List.finRange_succ_last, List.foldl_append, List.foldl_map]
    exact hstep (Fin.last n) _ (ih fun i a => hstep i.castSucc a)

/-! ### The key schedule (R143, R145) -/

theorem runMicro_ksupdate (s : State) (i : BitVec 5) :
    runMicro s (.op (.ksupdate .short i)) = { s with kreg := ksUpdate s.params.tables s.kreg i } := rfl

theorem runMicro_rkx (s : State) (i : Fin 11) :
    runMicro s (.op (.rkx .short i)) = { s with rk := s.rk.set i.val (rkx s.kreg) } := rfl

/-- After update `n` of `KSCHED` in `s`: the key register is that of update `n`, and round keys 0 to `n` are in `RK`. -/
structure ScheduledUpTo (s : State) (n : Nat) (t : State) : Prop where
  params : t.params = s.params
  dout : t.dout = s.dout
  kreg : t.kreg = keyRegAfter s.params.tables s.k1 n
  rk : ∀ i : Fin 11, i.val ≤ n → t.rk[i] = (keySchedule s.params.tables s.k1)[i]

theorem scheduledUpTo_zero (s : State) :
    ScheduledUpTo s 0 (runMicro (runMicro s (.op (.ksload .short .k1))) (.op (.rkx .short 0))) where
  params := rfl
  dout := rfl
  kreg := rfl
  rk i hi := by
    obtain rfl : i = 0 := Fin.ext (Nat.le_zero.mp hi)
    rw [keySchedule_getElem]
    exact Vector.getElem_set_self ..

/-- One turn of the loop of R143: an update, and the round key of the same number. -/
theorem ScheduledUpTo.succ {s t : State} {n : Fin 10} (h : ScheduledUpTo s n.val t) :
    ScheduledUpTo s (n.val + 1)
      (runMicro (runMicro t (.op (.ksupdate .short (BitVec.ofNat 5 (n.val + 1))))) (.op (.rkx .short n.succ))) := by
  have hk : ksUpdate t.params.tables t.kreg (BitVec.ofNat 5 (n.val + 1)) =
      keyRegAfter s.params.tables s.k1 (n.val + 1) := by rw [h.params, h.kreg]; rfl
  rw [runMicro_ksupdate, runMicro_rkx, hk]
  refine ⟨h.params, h.dout, rfl, fun i hi => ?_⟩
  by_cases hin : i = n.succ
  · subst hin
    rw [keySchedule_getElem]
    exact Vector.getElem_set_self ..
  · have hne : n.succ.val ≠ i.val := fun e => hin (Fin.ext e.symm)
    have hle : i.val ≤ n.val := by rw [Fin.val_succ] at hne; omega
    exact (Vector.getElem_set_ne n.succ.isLt i.isLt hne).trans (h.rk i hle)

/-- `KSCHED` with all its micro-steps done. -/
theorem foldl_runMicro_ksched (s : State) :
    ((microProgram .ksched).foldl runMicro s).rk = keySchedule s.params.tables s.k1 ∧
      ((microProgram .ksched).foldl runMicro s).dout = s.dout := by
  have h : ScheduledUpTo s 10 ((microProgram .ksched).foldl runMicro s) := by
    rw [microProgram, List.foldl_append, List.foldl_flatMap]
    exact foldl_finRange_induction (scheduledUpTo_zero s) fun n t ht => ht.succ
  exact ⟨Vector.ext fun i hi => h.rk ⟨i, hi⟩ (Nat.le_of_lt_succ hi), h.dout⟩

/-! ### The block cipher (R156, R158, R160, R161) and the cascade (R175, R176) -/

/-- A run of encryption rounds on `STATE`. -/
theorem foldl_runMicro_encround (l : List (Fin 11)) (s : State) :
    (l.map fun i => MicroStep.op (.encround .short i)).foldl runMicro s =
      { s with cst := l.foldl (fun x i => encRound s.params.tables x s.rk[i]) s.cst } := by
  induction l generalizing s with
  | nil => rfl
  | cons i l ih => rw [List.map_cons, List.foldl_cons, ih]; rfl

/-- A run of decryption rounds on `STATE`. -/
theorem foldl_runMicro_decround (l : List (Fin 11)) (s : State) :
    (l.map fun i => MicroStep.op (.decround .short i)).foldl runMicro s =
      { s with cst := l.foldl (fun x i => decRound s.params.tables x s.rk[i]) s.cst } := by
  induction l generalizing s with
  | nil => rfl
  | cons i l ih => rw [List.map_cons, List.foldl_cons, ih]; rfl

/-- `ENC` with all its micro-steps done. -/
theorem foldl_runMicro_enc (s : State) :
    (microProgram .enc).foldl runMicro s =
      { s with cst := encrypt s.params.tables s.rk s.din, dout := encrypt s.params.tables s.rk s.din } := by
  rw [microProgram, List.foldl_append, List.foldl_append, foldl_runMicro_encround]
  rfl

/-- `DEC` with all its micro-steps done. -/
theorem foldl_runMicro_dec (s : State) :
    (microProgram .dec).foldl runMicro s =
      { s with cst := decrypt s.params.tables s.rk s.din, dout := decrypt s.params.tables s.rk s.din } := by
  rw [microProgram, List.foldl_append, List.foldl_append, foldl_runMicro_decround]
  rfl

/-- `DENC` with all its micro-steps done: its two register sets, and the cascade in `DOUT`. -/
theorem foldl_runMicro_denc (s : State) :
    (microProgram .denc).foldl runMicro s =
      { s with
        denc1 := regsAfter s.params.tables s.k1 (encrypt s.params.tables (keySchedule s.params.tables s.k1) s.din)
        denc2 := regsAfter s.params.tables s.k2 (doubleEncrypt s.params.tables s.k1 s.k2 s.din)
        dout := doubleEncrypt s.params.tables s.k1 s.k2 s.din } := by
  simp only [microProgram, List.foldl_cons, List.foldl_nil, runMicro, exec, execKeySchedule, execEncrypt,
    setCipherState, setCipherRegs, cipherRegs, keyOperand, blockOperand, regsAfter, doubleEncrypt]

/-- A short command accepted is at the start of its program. -/
theorem shortResult_beginCommand (o : Op) (s : State) :
    shortResult (beginCommand o .short s) =
      (((microProgram o).foldl runMicro (beginCommand o .short s)).rk,
        ((microProgram o).foldl runMicro (beginCommand o .short s)).dout) := rfl

end Sys2Proof.Machine

open Sys2Proof Sys2Proof.Machine

/-- Settles O41, by the command: its micro-steps, all done, compute its function. -/
theorem aShortCommandIsHeadingForItsFunction : Obligations.AShortCommandIsHeadingForItsFunction := by
  intro s o ho hb
  rw [command_of_ready hb, accept_short ho, shortResult_beginCommand]
  refine ⟨beginCommand_phase o .short s, ?_⟩
  cases o with
  | nop => rfl
  | ksched =>
    obtain ⟨hrk, hdout⟩ := foldl_runMicro_ksched (beginCommand .ksched .short s)
    rw [hrk, hdout]
    rfl
  | enc => rw [foldl_runMicro_enc]; rfl
  | dec => rw [foldl_runMicro_dec]; rfl
  | denc => rw [foldl_runMicro_denc]; rfl
  | mitm => exact absurd rfl ho

end

section
/-! PROOF. What holds of the core right after reset and is kept by every step (10_state.md R27, R28, R31, R33, R34, R39):
the flags, the capacities of the queues, the ranges of the cursors. Each invariant is proved once for the reset values,
once for a host access and once for an agent's turn; `step_keeps` puts the three together. -/

namespace Sys2Proof.Machine

open Sys2Proof.Config

/-- What a change of the agenda, a host access, reset and an agent's turn all keep, every step keeps. -/
theorem step_keeps {P : State → Prop} (hagenda : ∀ s l, P s → P { s with agenda := l })
    (hhost : ∀ s t, P s → HostStep s t → P t) (hreset : ∀ s, P s → P (resetCore s))
    (hagent : ∀ s t, P s → AgentStep s t → P t) {s t : State} (hs : P s) (h : step s = .next t) : P t := by
  rcases step_cases h with ⟨w, rest, -, -, hw⟩ | ⟨rest, -, rfl⟩ | ⟨g, rest, -, hg⟩ | ⟨-, hg⟩
  · exact hhost _ _ (hagenda s rest hs) hw
  · exact hreset _ (hagenda s rest hs)
  · exact hagent _ _ (hagenda s rest hs) hg
  · exact hagent _ _ hs hg

/-! ### The flags (R27, R222, R227) -/

/-- The fields the status invariants speak of. -/
def statusFields (s : State) : Bool × Bool × Bool × Cause × Phase × Op :=
  (s.busy, s.done, s.err, s.cause, s.phase, s.op)

theorem StatusInv.congr {s t : State} (h : StatusInv s) (e : statusFields t = statusFields s) : StatusInv t := by
  simp only [statusFields, Prod.mk.injEq] at e
  obtain ⟨hb, hd, he, hc, hp, ho⟩ := e
  obtain ⟨busy_iff, not_both, err_iff, short_op, search_op⟩ := h
  constructor <;> simpa only [hb, hd, he, hc, hp, ho]

theorem statusInv_resetOf (p : Params) : StatusInv (State.resetOf p) := by
  constructor <;> simp [State.resetOf]

/-- A refusal sets `ERR` together with a cause (R241). -/
theorem statusInv_refuse {s : State} (h : StatusInv s) {c : Cause} (hc : c ≠ .noCause) : StatusInv (refuse c s) :=
  ⟨h.busy_iff, h.not_both, by simpa using hc, h.short_op, h.search_op⟩

/-- Acceptance assigns every flag (R222). -/
theorem statusInv_accept (o : Op) (s : State) : StatusInv (accept o s) := by
  by_cases ho : o = .mitm
  · subst ho
    rw [accept_mitm]
    constructor <;> simp
  · rw [accept_short ho]
    constructor <;> simp [ho]

/-- Completion clears `BUSY` with `PHASE <- IDLE` (R227). -/
theorem statusInv_complete {s : State} (h : StatusInv s) : StatusInv (complete s) := by
  refine ⟨?_, ?_, h.err_iff, ?_, ?_⟩ <;> simp

/-- A search that goes on to its next phase keeps its flags (R183, R186). -/
theorem statusInv_nextPhase {s : State} (h : StatusInv s) {ph : Phase}
    (hs : s.phase = .gen ∨ s.phase = .sort ∨ s.phase = .join) (hp : ph = .gen ∨ ph = .sort ∨ ph = .join) :
    StatusInv { s with phase := ph } where
  busy_iff := by
    have hb : s.busy = true := h.busy_iff.mpr (by rcases hs with hs | hs | hs <;> simp [hs])
    rcases hp with rfl | rfl | rfl <;> simp [hb]
  not_both := h.not_both
  err_iff := h.err_iff
  short_op := by rcases hp with rfl | rfl | rfl <;> simp
  search_op _ := h.search_op hs

theorem StatusInv.of_hostStep {s t : State} (hs : StatusInv s) (h : HostStep s t) : StatusInv t := by
  cases h with
  | refused c hc => exact statusInv_refuse hs hc
  | store r x _ => exact hs.congr (by cases r <;> rfl)
  | accepted o _ => exact statusInv_accept o s
  | read | popped => exact hs.congr rfl

theorem StatusInv.of_agentStep {s t : State} (hs : StatusInv s) (h : AgentStep s t) : StatusInv t := by
  cases h with
  | micro m _ hm =>
    rw [(runMicro_frame (List.mem_of_getElem? hm) _).1]
    exact hs.congr rfl
  | emitx => rw [emit_frame]; exact hs.congr rfl
  | shortComplete => exact statusInv_complete hs
  | searchComplete => exact statusInv_complete (hs.congr (t := discardTables s) rfl)
  | toSort hp => exact statusInv_nextPhase hs (.inl hp) (.inr (.inl rfl))
  | toJoin hp => exact statusInv_nextPhase hs (.inr (.inl hp)) (.inr (.inr rfl))
  | _ => exact hs.congr rfl

/-! ### The capacities (R28, R31, R34, R199) -/

/-- The fields the capacities speak of. -/
def capacityFields (s : State) : Params × List KeyPair × List QueueEntry × List CipherRegs × List CipherRegs :=
  (s.params, s.rf, s.vq, s.workers, s.lanes)

theorem CapacityInv.congr {s t : State} (h : CapacityInv s) (e : capacityFields t = capacityFields s) :
    CapacityInv t := by
  simp only [capacityFields, Prod.mk.injEq] at e
  obtain ⟨hp, hr, hq, hw, hl⟩ := e
  obtain ⟨rf_le, vq_le, workers_eq, lanes_eq⟩ := h
  constructor <;> simpa only [hp, hr, hq, hw, hl]

theorem capacityInv_resetOf (p : Params) : CapacityInv (State.resetOf p) := by
  constructor <;> simp [State.resetOf]

/-- Acceptance empties the queues or leaves them alone (R181, R222). -/
theorem capacityInv_accept {s : State} (h : CapacityInv s) (o : Op) : CapacityInv (accept o s) := by
  by_cases ho : o = .mitm
  · subst ho
    exact ⟨Nat.zero_le _, Nat.zero_le _, h.workers_eq, h.lanes_eq⟩
  · rw [accept_short ho]
    exact h.congr rfl

theorem CapacityInv.of_hostStep {s t : State} (hs : CapacityInv s) (h : HostStep s t) : CapacityInv t := by
  cases h with
  | store r x _ => exact hs.congr (by cases r <;> rfl)
  | accepted o _ => exact capacityInv_accept hs o
  | popped =>
    have hle : s.rf.tail.length ≤ s.rf.length := (List.tail_sublist s.rf).length_le
    exact ⟨hle.trans hs.rf_le, hs.vq_le, hs.workers_eq, hs.lanes_eq⟩
  | read | refused => exact hs.congr rfl

/-- An emission adds one candidate to `VQ` (R191). -/
theorem emit_vq_length (s : State) : (emitPair (emitBegin s)).vq.length = s.vq.length + 1 := by
  rw [emitBegin_frame]
  simp [emitPair]

theorem CapacityInv.of_agentStep {s t : State} (hs : CapacityInv s) (h : AgentStep s t) : CapacityInv t := by
  have ⟨hrf, hvq, hworkers, hlanes⟩ := hs
  cases h with
  | micro m _ hm =>
    rw [(runMicro_frame (List.mem_of_getElem? hm) _).1]
    exact hs.congr rfl
  | gen w k _ => exact ⟨hrf, hvq, List.length_set.trans hworkers, hlanes⟩
  | emitx _ hroom =>
    rw [emit_frame]
    exact ⟨hrf, (emit_vq_length s).trans_le hroom, hworkers, hlanes⟩
  | verify v n r _ _ _ => exact ⟨hrf, List.length_set.trans_le hvq, hworkers, List.length_set.trans hlanes⟩
  | retireFail r q _ hq =>
    rw [hq] at hvq
    exact ⟨hrf, Nat.le_of_succ_le hvq, hworkers, hlanes⟩
  | retirePass r q _ hq hroom =>
    rw [hq] at hvq
    exact ⟨List.length_append.trans_le hroom, Nat.le_of_succ_le hvq, hworkers, hlanes⟩
  | _ => exact hs.congr rfl

/-- No host access changes the parameters (R6 to R8). -/
theorem HostStep.params_eq {s t : State} (h : HostStep s t) : t.params = s.params := by
  cases h with
  | store r x _ => exact setOperand_params r x s
  | accepted o _ => unfold accept; split <;> rfl
  | read | refused | popped => rfl

/-- No agent's turn changes the parameters. -/
theorem AgentStep.params_eq {s t : State} (h : AgentStep s t) : t.params = s.params := by
  cases h with
  | micro m _ hm => rw [(runMicro_frame (List.mem_of_getElem? hm) _).1]
  | emitx => rw [emit_frame]
  | _ => rfl

theorem step_params_eq {s t : State} (h : step s = .next t) : t.params = s.params :=
  step_keeps (P := fun u => u.params = s.params) (fun _ _ hu => hu) (fun _ _ hu hw => hw.params_eq.trans hu)
    (fun _ hu => hu) (fun _ _ hu hg => hg.params_eq.trans hu) rfl h

/-! ### The cursors (R33, R188 to R191, R278) -/

/-- The fields the ranges of the cursors speak of. -/
def cursorFields (s : State) : Params × Nat × Nat × Nat × Nat × Nat × Nat :=
  (s.params, s.i, s.j, s.ie, s.je, s.a, s.b)

theorem CursorInv.congr {s t : State} (h : CursorInv s) (e : cursorFields t = cursorFields s) : CursorInv t := by
  simp only [cursorFields, Prod.mk.injEq] at e
  obtain ⟨hn, hi, hj, hie, hje, ha, hb⟩ := e
  obtain ⟨i_le, j_le, ie_le, je_le, inside⟩ := h
  rw [emitting_iff] at inside
  constructor <;> simpa only [emitting_iff, hn, hi, hj, hie, hje, ha, hb]

theorem cursorInv_resetOf (p : Params) : CursorInv (State.resetOf p) := by
  constructor <;> simp [State.resetOf, emitting]

/-- Acceptance sets all the cursors to 0 or leaves them alone (R181, R222). -/
theorem cursorInv_accept {s : State} (h : CursorInv s) (o : Op) : CursorInv (accept o s) := by
  by_cases ho : o = .mitm
  · subst ho
    exact (cursorInv_resetOf s.params).congr rfl
  · rw [accept_short ho]
    exact h.congr rfl

theorem CursorInv.of_hostStep {s t : State} (hs : CursorInv s) (h : HostStep s t) : CursorInv t := by
  cases h with
  | store r x _ => exact hs.congr (by cases r <;> rfl)
  | accepted o _ => exact cursorInv_accept hs o
  | read | refused | popped => exact hs.congr rfl

/-- Outside an emission, cursors that move on begin none: the run ends stay behind. -/
theorem cursorInv_advance {s : State} (h : CursorInv s) (ho : emitting s = false) {x y : Nat} (hx : s.i ≤ x)
    (hy : s.j ≤ y) (hxn : x ≤ s.params.n) (hyn : y ≤ s.params.n) : CursorInv { s with i := x, j := y } := by
  refine ⟨hxn, hyn, h.ie_le, h.je_le, fun he => ?_⟩
  obtain ⟨hi, hj⟩ := emitting_iff.mp he
  exact absurd (emitting_iff.mpr ⟨hx.trans_lt hi, hy.trans_lt hj⟩) (by simp [ho])

/-- The run end `EMITX` computes is past the cursor and at most `N`. -/
theorem runEnd_bounds {s : State} {t : Side} {v : Block} {x : Nat} (hx : x < s.params.n)
    (hv : entryValue (memRead s t x) = v) :
    x < runEnd (memRead s t) v (s.params.n - x) x ∧ runEnd (memRead s t) v (s.params.n - x) x ≤ s.params.n := by
  obtain ⟨-, hle, -⟩ := runEnd_spec (memRead s t) v (s.params.n - x) x
  exact ⟨lt_runEnd (Nat.sub_pos_of_lt hx) hv, by omega⟩

/-- An emission that begins is inside two runs that are not empty; one that goes on is where it was (R191). -/
theorem cursorInv_emitBegin {s : State} (h : CursorInv s) (hr : emitxReady s = true) :
    CursorInv (emitBegin s) ∧ emitting (emitBegin s) = true := by
  obtain ⟨-, -, he | ⟨he, hi, hj, hv⟩⟩ := emitxReady_iff.mp hr
  · simpa [emitBegin, he] using h
  · obtain ⟨hlt, hle⟩ := runEnd_bounds (t := .fwd) hi (rfl : _ = valueF s)
    obtain ⟨hlt', hle'⟩ := runEnd_bounds (t := .bwd) hj hv.symm
    simp only [emitBegin, he, Bool.false_eq_true, if_false]
    exact ⟨⟨h.i_le, h.j_le, hle, hle', fun _ => ⟨le_rfl, hlt, le_rfl, hlt'⟩⟩, emitting_iff.mpr ⟨hlt, hlt'⟩⟩

/-- The position moves on inside the two runs, and after the last pair both cursors are at the run ends (R191, R193). -/
theorem cursorInv_emitAdvance {s : State} (h : CursorInv s) (he : emitting s = true) : CursorInv (emitAdvance s) := by
  obtain ⟨hia, haie, hjb, hbje⟩ := h.inside he
  unfold emitAdvance
  split_ifs with hb ha
  · exact ⟨h.i_le, h.j_le, h.ie_le, h.je_le, fun _ => ⟨hia, haie, Nat.le_succ_of_le hjb, hb⟩⟩
  · exact ⟨h.i_le, h.j_le, h.ie_le, h.je_le, fun _ => ⟨Nat.le_succ_of_le hia, ha, le_rfl, hjb.trans_lt hbje⟩⟩
  · exact ⟨h.ie_le, h.je_le, h.ie_le, h.je_le, fun hin => absurd (emitting_iff.mp hin).1 (lt_irrefl _)⟩

theorem CursorInv.of_agentStep {s t : State} (hs : CursorInv s) (h : AgentStep s t) : CursorInv t := by
  cases h with
  | micro m _ hm =>
    rw [(runMicro_frame (List.mem_of_getElem? hm) _).1]
    exact hs.congr rfl
  | advf hr =>
    obtain ⟨-, -, ho, hi, -⟩ := comparing_iff.mp (advfReady_iff.mp hr).1
    exact cursorInv_advance hs ho (Nat.le_succ _) le_rfl hi hs.j_le
  | advb hr =>
    obtain ⟨-, -, ho, -, hj⟩ := comparing_iff.mp (advbReady_iff.mp hr).1
    exact cursorInv_advance hs ho le_rfl (Nat.le_succ _) hs.i_le hj
  | emitx hr _ =>
    obtain ⟨hbegun, he⟩ := cursorInv_emitBegin hs hr
    exact cursorInv_emitAdvance (hbegun.congr rfl) he
  | _ => exact hs.congr rfl

end Sys2Proof.Machine

open Sys2Proof Sys2Proof.Machine

/-- Settles O28, by the cases of a step: acceptance and completion assign the flags together, a refusal sets `ERR` with a
cause, and no other move touches them but the change of a search's phase. -/
theorem everyStepKeepsTheStatusInvariants : Obligations.EveryStepKeepsTheStatusInvariants := fun _ _ =>
  step_keeps (fun _ _ h => h.congr rfl) (fun _ _ => .of_hostStep) (fun s _ => (statusInv_resetOf s.params).congr rfl)
    (fun _ _ => .of_agentStep)

/-- Settles O29, by the cases of a step: the two moves that add to a queue, an emission and a delivery, take place only
while there is room. -/
theorem everyStepKeepsTheCapacities : Obligations.EveryStepKeepsTheCapacities := fun _ _ hs h =>
  ⟨step_keeps (fun _ _ h => h.congr rfl) (fun _ _ => .of_hostStep)
    (fun s _ => (capacityInv_resetOf s.params).congr rfl) (fun _ _ => .of_agentStep) hs h, step_params_eq h⟩

/-- Settles O31, by the cases of a step: `ADVF` and `ADVB` move a cursor that is below `N`, `EMITX` moves the cursors to
run ends that are at most `N`, and acceptance of `MITM` and reset set them to 0. -/
theorem everyStepKeepsTheCursorsInRange : Obligations.EveryStepKeepsTheCursorsInRange := fun _ _ =>
  step_keeps (fun _ _ h => h.congr rfl) (fun _ _ => .of_hostStep) (fun s _ => (cursorInv_resetOf s.params).congr rfl)
    (fun _ _ => .of_agentStep)

end

section
/-! PROOF. The literal tables (40_layers.md R120 to R123), the values after reset (10_state.md R39) and the `STATUS` word
(R27). -/

namespace Sys2Proof.Machine

open Sys2Proof.Config

/-- The literals of R120 to R123 meet R20 and R21. -/
theorem present24_ok : present24.Ok := by
  constructor <;> decide

/-- The parameters of this hardware are in the ranges of R6 to R8. -/
theorem hardware_ok : hardware.Ok :=
  ⟨by decide, by decide, by decide, by decide, by decide, present24_ok⟩

theorem canonInv_resetOf (p : Params) : CanonInv (State.resetOf p) := by
  constructor <;> simp [State.resetOf]

/-- Whatever the parameters, the state of R39 holds the values of its table. -/
theorem resetValues_resetOf (p : Params) : ResetValues (State.resetOf p) where
  k1 := rfl
  k2 := rfl
  din := rfl
  dout := rfl
  p1 := rfl
  c1 := rfl
  p2 := rfl
  c2 := rfl
  rk n := Vector.getElem_replicate n.isLt
  busy := rfl
  done := rfl
  err := rfl
  cause := rfl
  phase := rfl
  status := show statusWord State.reset = 0 by decide
  rf := rfl
  vq := rfl
  op := rfl
  gdone := rfl
  cursors := ⟨rfl, rfl, rfl, rfl, rfl, rfl⟩
  jend := rfl
  scratch := ⟨rfl, rfl, rfl, rfl⟩
  workers := rfl
  lanes := rfl

/-! ### The `STATUS` word (R27) -/

/-- Bit by bit: the flags at bits 0 to 3, the phase at 6..4, the cause at 9..8, and nothing else. -/
theorem getLsbD_statusWord (s : State) (i : Nat) :
    (statusWord s).getLsbD i =
      if i = 0 then s.busy
      else if i = 1 then s.done
      else if i = 2 then rvalid s
      else if i = 3 then s.err
      else if i < 7 then s.phase.code.getLsbD (i - 4)
      else if i = 7 then false
      else if i < 10 then s.cause.code.getLsbD (i - 8)
      else false := by
  simp only [statusWord, BitVec.getLsbD_cast, BitVec.getLsbD_append, BitVec.getLsbD_ofBool]
  by_cases hi : i < 4
  · interval_cases i <;> simp
  · obtain ⟨n, rfl⟩ := Nat.exists_eq_add_of_le' (Nat.le_of_not_lt hi)
    by_cases hn : n < 3
    · simp [hn]
    · simp [hn, Nat.sub_sub, show n - 3 = 0 ↔ n = 3 by omega, show ¬n + 4 < 7 by omega,
        show n + 4 < 10 ↔ n ≤ 5 by omega]

theorem statusWord_phase (s : State) : (statusWord s).extractLsb' 4 3 = s.phase.code :=
  BitVec.eq_of_getLsbD_eq fun i hi => by
    rw [BitVec.getLsbD_extractLsb', getLsbD_statusWord]
    grind

theorem statusWord_cause (s : State) : (statusWord s).extractLsb' 8 2 = s.cause.code :=
  BitVec.eq_of_getLsbD_eq fun i hi => by
    rw [BitVec.getLsbD_extractLsb', getLsbD_statusWord]
    grind

theorem statusWord_top_zero (s : State) : (statusWord s).extractLsb' 10 22 = 0 :=
  BitVec.eq_of_getLsbD_eq fun i hi => by
    rw [BitVec.getLsbD_extractLsb', getLsbD_statusWord]
    grind

end Sys2Proof.Machine

open Sys2Proof Sys2Proof.Machine

/-- Settles O9, by the values of R39 for any parameters and the ranges of this hardware's. -/
theorem theResetStateHoldsTheResetValues : Obligations.TheResetStateHoldsTheResetValues :=
  ⟨resetValues_resetOf hardware, rfl, hardware_ok⟩

/-- Settles O10, by the invariants of the reset state for any parameters; phase IDLE asks nothing of a search. -/
theorem theInvariantsHoldAfterReset : Obligations.TheInvariantsHoldAfterReset :=
  ⟨statusInv_resetOf hardware, capacityInv_resetOf hardware, canonInv_resetOf hardware, cursorInv_resetOf hardware,
    trivial⟩

/-- Settles O12, by R20 and R21 of the literals and the two further positions of `INVPERM`. -/
theorem theLiteralTablesAreMutualInverses : Obligations.TheLiteralTablesAreMutualInverses :=
  ⟨present24_ok, by decide, rfl⟩

/-- Settles O27, by the bits of the `STATUS` word. -/
theorem statusHasTheFieldsOfItsTable : Obligations.StatusHasTheFieldsOfItsTable := by
  intro s
  have bits := getLsbD_statusWord s
  refine ⟨bits 0, bits 1, ?_, bits 3, ?_, bits 7, ?_, statusWord_top_zero s⟩
  · rw [bits 2]
    simp [rvalid, List.length_pos_iff]
  · rw [statusWord_phase]
    cases s.phase <;> rfl
  · rw [statusWord_cause]
    cases s.cause <;> rfl

end

section
/-! PROOF. The table memories and the marked keys in canonical form (20_memory.md R60, R64; 10_state.md R33; log 7, 15):
proved once for a host access and once for an agent's turn, and put together by `step_keeps`. -/

namespace Sys2Proof.Machine

open Sys2Proof.Config

/-- The fields the canonical forms speak of. -/
def canonFields (s : State) : Params × Memory × Memory × List Nat := (s.params, s.tf, s.tb, s.gdone)

theorem CanonInv.congr {s t : State} (h : CanonInv s) (e : canonFields t = canonFields s) : CanonInv t := by
  simp only [canonFields, Prod.mk.injEq] at e
  obtain ⟨hp, hf, hb, hg⟩ := e
  obtain ⟨tf_wf, tb_wf, gdone_rising, gdone_lt⟩ := h
  constructor <;> simpa only [hp, hf, hb, hg]

/-- Acceptance forgets the marked keys or leaves them alone (R181, R222). -/
theorem canonInv_accept {s : State} (h : CanonInv s) (o : Op) : CanonInv (accept o s) := by
  by_cases ho : o = .mitm
  · subst ho
    exact ⟨h.tf_wf, h.tb_wf, List.Pairwise.nil, List.forall_mem_nil _⟩
  · rw [accept_short ho]
    exact h.congr rfl

theorem CanonInv.of_hostStep {s t : State} (hs : CanonInv s) (h : HostStep s t) : CanonInv t := by
  cases h with
  | store r x _ => exact hs.congr (by cases r <;> rfl)
  | accepted o _ => exact canonInv_accept hs o
  | read | refused | popped => exact hs.congr rfl

theorem CanonInv.of_agentStep {s t : State} (hs : CanonInv s) (h : AgentStep s t) : CanonInv t := by
  have ⟨htf, htb, hrising, hlt⟩ := hs
  cases h with
  | micro m _ hm =>
    rw [(runMicro_frame (List.mem_of_getElem? hm) _).1]
    exact hs.congr rfl
  | gen w k hr =>
    obtain ⟨-, -, hk, -⟩ := genReady_iff.mp hr
    refine ⟨Memory.wf_write htf _ _, Memory.wf_write htb _ _, markKey_rising hrising _, fun m hm => ?_⟩
    rcases mem_markKey.mp hm with rfl | hm
    · exact hk
    · exact hlt m hm
  | sort => exact ⟨Memory.wf_ofEntriesFrom _ 0, Memory.wf_ofEntriesFrom _ 0, hrising, hlt⟩
  | emitx => rw [emit_frame]; exact hs.congr rfl
  | searchComplete => exact ⟨Memory.wf_nil, Memory.wf_nil, hrising, hlt⟩
  | _ => exact hs.congr rfl

end Sys2Proof.Machine

open Sys2Proof Sys2Proof.Machine

/-- Settles O30, by the cases of a step: `GEN` writes both tables at an index of its own and marks a key below `N`,
`SORT` writes each table as a whole, and completion of `MITM`, its acceptance and reset only forget. -/
theorem everyStepKeepsTheCanonicalForms : Obligations.EveryStepKeepsTheCanonicalForms := fun _ _ =>
  step_keeps (fun _ _ h => h.congr rfl) (fun _ _ => .of_hostStep) (fun s _ => (canonInv_resetOf s.params).congr rfl)
    (fun _ _ => .of_agentStep)

/-- Settles O53, by what a read after a write gives and by the canonical form of a write. -/
theorem aTableReadsBackWhatWasWritten : Obligations.ATableReadsBackWhatWasWritten := fun m x y e =>
  ⟨(Memory.lookup_write m x e x).trans (if_pos rfl), fun hne => (Memory.lookup_write m x e y).trans (if_neg hne),
    fun h => Memory.wf_write h x e⟩

end

section
/-! PROOF. What the host can do and see while the core is at work (20_memory.md R64, R72): a host access is the decoded
transaction, a running command keeps its operands, and the head of the result FIFO stays in place. -/

namespace Sys2Proof

/-- A word that is none of the six commands is one `ILLCMD` stands for (R98 a, R100). -/
theorem wellFormed_decodeCommand (d : HostWord) : (decodeCommand d).wellFormed = true := by
  unfold decodeCommand
  split
  · split
    case h_7 =>
      simp only [Instr.wellFormed, isCommandWord, BitVec.le_def, Bool.not_eq_true', Bool.and_eq_false_iff,
        decide_eq_false_iff_not, BitVec.reduceToNat]
      grind
    all_goals rfl
  · simp only [Instr.wellFormed, isCommandWord, Bool.not_eq_true', Bool.and_eq_false_iff, beq_eq_false_iff_ne]
    exact .inl ‹_›

/-- The indices no row of the writes takes are the refused ones (R66, R67). -/
theorem wellFormed_decodeWrite (x : Index) (d : HostWord) : (decodeWrite x d).wellFormed = true := by
  unfold decodeWrite
  split
  case h_1 => exact wellFormed_decodeCommand d
  case h_21 =>
    simp only [Instr.wellFormed, isRefusedIndex, Bool.or_eq_true, Bool.and_eq_true, beq_iff_eq, decide_eq_true_eq]
    grind
  all_goals rfl

/-- A decoded transaction is well-formed (R100). -/
theorem wellFormed_decode (t : Txn) : (decode t).wellFormed = true := by
  unfold decode
  split
  · exact wellFormed_decodeWrite _ _
  · rfl

end Sys2Proof

namespace Sys2Proof.Machine

theorem step_host {s : State} {w : Txn} {rest : List Event} (ha : s.agenda = .host w :: rest) :
    step s = exec (decode w) { s with agenda := rest } := by simp only [step, fetch, ha]

/-! ### The operands of a running command (R72) -/

/-- From `s` to `t` the operand registers keep their values, `RK` unless the command of `s` is `KSCHED`, and so does
`DOUT` unless it is `ENC`, `DEC` or `DENC` (R23, R25, R72). -/
def KeepsOperands (s t : State) : Prop :=
  (t.k1 = s.k1 ∧ t.k2 = s.k2 ∧ t.din = s.din ∧ t.p1 = s.p1 ∧ t.c1 = s.c1 ∧ t.p2 = s.p2 ∧ t.c2 = s.c2) ∧
    (s.op ≠ .ksched → t.rk = s.rk) ∧
    (s.op = .nop ∨ s.op = .ksched ∨ s.op = .mitm → t.dout = s.dout)

/-- The fields `KeepsOperands` speaks of. -/
def operandFields (s : State) : (Block × Block × Block × Block × Block × Block × Block) × Schedule × Block :=
  ((s.k1, s.k2, s.din, s.p1, s.c1, s.p2, s.c2), s.rk, s.dout)

theorem KeepsOperands.of_eq {s t : State} (e : operandFields t = operandFields s) : KeepsOperands s t := by
  simp only [operandFields, Prod.mk.injEq] at e
  obtain ⟨hregs, hrk, hdout⟩ := e
  exact ⟨hregs, fun _ => hrk, fun _ => hdout⟩

/-- A host access stores to no operand register while a command runs (R72, R221). -/
theorem HostStep.keepsOperands {s t : State} (h : HostStep s t) (hb : s.busy = true) : KeepsOperands s t := by
  cases h with
  | store r x hr => simp [hb] at hr
  | accepted o hr => simp [hb] at hr
  | read | refused | popped => exact .of_eq rfl

/-- Of the turns of the agents, only micro-steps write `RK` or `DOUT`, each as its command may. -/
theorem AgentStep.keepsOperands {s t : State} (h : AgentStep s t) : KeepsOperands s t := by
  cases h with
  | micro m _ hm =>
    obtain ⟨hframe, hrk, hdout⟩ := runMicro_frame (List.mem_of_getElem? hm) { s with upc := s.upc + 1 }
    refine ⟨?_, hrk, hdout⟩
    rw [hframe]
    exact ⟨rfl, rfl, rfl, rfl, rfl, rfl, rfl⟩
  | emitx => rw [emit_frame]; exact .of_eq rfl
  | _ => exact .of_eq rfl

/-! ### The result FIFO (R64, R199, R280) -/

theorem writeOperand_rf (r : OperandReg) (d : HostWord) (s : State) : (writeOperand r d s).rf = s.rf := by
  unfold writeOperand
  split
  · rfl
  · exact setOperand_rf r _ s

/-- A command leaves `RF` alone unless it is an accepted `MITM` (R181). -/
theorem command_rf {o : Op} {s : State} (h : o = .mitm → s.busy = true) : (command o s).rf = s.rf := by
  by_cases hb : s.busy = true
  · rw [command_of_busy hb, refuse_rf]
  · rw [command_of_ready (by simpa using hb), accept_short fun ho => hb (h ho), beginCommand_rf]

/-- No host access but a pop and an accepted `MITM` changes `RF` (R199, R224). -/
theorem exec_host_rf {i : Instr} (hi : (encode i).isSome = true) {s t : State} (h : exec i s = .next t)
    (hpop : i ≠ .pop) (hmitm : i = .mitm → s.busy = true) : t.rf = s.rf := by
  cases i <;> simp only [encode, Option.isSome_some, Option.isSome_none, Bool.false_eq_true] at hi <;>
    obtain rfl := Host.Outcome.next.inj h
  case pop => exact absurd rfl hpop
  case rd | illcmd | badwr => rfl
  case mitm => exact command_rf fun _ => hmitm rfl
  case nop | ksched | enc | dec | denc => exact command_rf nofun
  all_goals exact writeOperand_rf _ _ s

/-- An agent's turn only adds to `RF`, at the back: the retirement of a passed candidate (R198). -/
theorem AgentStep.rf_append {s t : State} (h : AgentStep s t) : ∃ q, t.rf = s.rf ++ q := by
  cases h with
  | retirePass r => exact ⟨[r], rfl⟩
  | micro m _ hm =>
    rw [(runMicro_frame (List.mem_of_getElem? hm) _).1]
    exact ⟨[], (List.append_nil _).symm⟩
  | emitx => rw [emit_frame]; exact ⟨[], (List.append_nil _).symm⟩
  | _ => exact ⟨[], (List.append_nil _).symm⟩

end Sys2Proof.Machine

open Sys2Proof Sys2Proof.Machine

/-- Settles O5, by the event at the head of the agenda. -/
theorem aStepRunsTheDecodedTransaction : Obligations.AStepRunsTheDecodedTransaction := fun _ w _ ha =>
  ⟨wellFormed_decode w, step_host ha⟩

/-- Settles O32, by the cases of a step: a host access is kept out by `BUSY = 1`, and a micro-step writes only what its
command may. -/
theorem aRunningCommandKeepsItsOperands : Obligations.ARunningCommandKeepsItsOperands := by
  intro s t hb hstep hreset
  rcases step_cases hstep with ⟨w, rest, -, -, h⟩ | ⟨rest, ha, -⟩ | ⟨g, rest, -, h⟩ | ⟨-, h⟩
  · exact h.keepsOperands hb
  · exact absurd ha (hreset rest)
  · exact h.keepsOperands
  · exact h.keepsOperands

/-- Settles O33, by the cases of a step: of the host accesses only a pop and an accepted `MITM` touch `RF`, and an
agent's turn adds at the back. -/
theorem theHeadOfTheResultFifoIsStable : Obligations.TheHeadOfTheResultFifoIsStable := by
  intro s t hstep hreset hhost
  rcases step_cases hstep with ⟨w, rest, ha, hexec, -⟩ | ⟨rest, ha, -⟩ | ⟨g, rest, -, h⟩ | ⟨-, h⟩
  · obtain ⟨hpop, hmitm⟩ := hhost w rest ha
    exact ⟨[], (exec_host_rf (encode_decode_isSome w) hexec hpop hmitm).trans (List.append_nil _).symm⟩
  · exact absurd ha (hreset rest)
  · exact h.rf_append
  · exact h.rf_append

end

section
/-! PROOF. Who writes the table memories (20_memory.md R68, R70): agent by agent, a turn leaves them alone but for an
enabled `GEN`, an enabled `SORT` and the completion of a search. -/

namespace Sys2Proof.Machine

/-- Both table memories (R32). -/
def bothTables (s : State) : Memory × Memory := (s.tf, s.tb)

/-- The host has no way to write a table memory (R68). -/
theorem HostStep.bothTables_eq {s t : State} (h : HostStep s t) : bothTables t = bothTables s := by
  cases h with
  | store r x _ => cases r <;> rfl
  | accepted o _ => unfold accept; split <;> rfl
  | read | refused | popped => rfl

theorem bothTables_sequencerTurn {s : State} (h : ¬(s.phase = .join ∧ s.jend = true ∧ s.vq = [])) :
    bothTables (sequencerTurn s) = bothTables s := by
  unfold sequencerTurn
  split
  case h_5 hp =>
    rw [if_neg fun hd => ?_]
    simp only [Bool.and_eq_true, List.isEmpty_iff] at hd
    exact h ⟨hp, hd⟩
  case h_1 => rfl
  all_goals split <;> rfl

/-- A turn of the datapath writes cipher registers and `DOUT`. -/
theorem bothTables_datapathTurn {s t : State} (h : runTurn (datapathTurn s) = .next t) :
    bothTables t = bothTables s := by
  by_cases hp : s.phase = .short
  · obtain ⟨u, hu, hs⟩ := agentStep_datapath s
    obtain rfl : u = t := Host.Outcome.next.inj (hu.symm.trans h)
    rcases hs.of_short hp with rfl | ⟨m, hm, rfl⟩ | ⟨-, rfl⟩
    · rfl
    · unfold microNext
      rw [(runMicro_frame (List.mem_of_getElem? hm) _).1]
      rfl
    · rfl
  · rw [datapathTurn, if_neg hp] at h
    cases h
    rfl

/-- The micro-operations of phase JOIN read the tables and do not write them (R189 to R191, R197, R198). -/
theorem bothTables_exec_join {i : Instr} {s t : State}
    (hi : i = .advf ∨ i = .advb ∨ i = .emitx ∨ (∃ v n, i = .verify v n) ∨ i = .retire) (h : exec i s = .next t) :
    bothTables t = bothTables s := by
  rcases hi with rfl | rfl | rfl | ⟨v, n, rfl⟩ | rfl
  · simp only [exec, execAdvf] at h
    split at h <;> cases h <;> rfl
  · simp only [exec, execAdvb] at h
    split at h <;> cases h <;> rfl
  · simp only [exec, execEmitx] at h
    split at h <;> cases h
    · rw [emit_frame]; rfl
    · rfl
  · simp only [exec, execVerify] at h
    split at h
    · split at h <;> cases h <;> rfl
    · cases h; rfl
  · simp only [exec, execRetire] at h
    split at h
    · cases h; rfl
    · split at h <;> cases h <;> rfl
    · cases h; rfl

theorem bothTables_joinTurn {s t : State} (h : runTurn (joinTurn s) = .next t) : bothTables t = bothTables s := by
  unfold joinTurn at h
  split_ifs at h
  · cases h; rfl
  · exact bothTables_exec_join (.inl rfl) h
  · exact bothTables_exec_join (.inr (.inl rfl)) h
  · exact bothTables_exec_join (.inr (.inr (.inl rfl))) h

/-- A turn of agent `g` in `s` may write a table memory: it is an enabled `GEN`, an enabled `SORT`, or the completion of
a search. -/
def writesTables (s : State) : Agent → Prop
  | .worker w k => genReady s w k = true
  | .sorter => s.phase = .sort
  | .sequencer => s.phase = .join ∧ s.jend = true ∧ s.vq = []
  | _ => False

/-- Every other turn leaves both table memories as they are. -/
theorem bothTables_turn {g : Agent} {s t : State} (hg : ¬writesTables s g) (h : runTurn (turn g s) = .next t) :
    bothTables t = bothTables s := by
  cases g with
  | sequencer =>
    cases h
    exact bothTables_sequencerTurn hg
  | datapath => exact bothTables_datapathTurn h
  | worker w k =>
    obtain rfl := Host.Outcome.next.inj ((if_neg hg).symm.trans h)
    rfl
  | sorter =>
    obtain rfl := Host.Outcome.next.inj ((if_neg hg).symm.trans h)
    rfl
  | join => exact bothTables_joinTurn h
  | lane v n => exact bothTables_exec_join (.inr (.inr (.inr (.inl ⟨v, n, rfl⟩)))) h
  | retirement => exact bothTables_exec_join (.inr (.inr (.inr (.inr rfl)))) h

/-- A step other than reset is a host access or the turn of the agent that moves. -/
theorem step_host_or_turn {s t : State} (h : step s = .next t) (hreset : ∀ rest, s.agenda ≠ .reset :: rest) :
    (∃ rest, HostStep { s with agenda := rest } t) ∨
      ∃ g l, moves s g ∧ runTurn (turn g { s with agenda := l }) = .next t := by
  rw [step_eq_runTurn] at h
  unfold fetch at h
  split at h
  · rename_i ha
    exact .inr ⟨defaultAgent s, s.agenda, .inr ⟨ha, rfl⟩, h⟩
  · rename_i w rest ha
    obtain ⟨u, hu, hs⟩ := hostStep_of_decode w { s with agenda := rest }
    obtain rfl : u = t := Host.Outcome.next.inj (hu.symm.trans h)
    exact .inl ⟨rest, hs⟩
  · rename_i rest ha
    exact absurd ha (hreset rest)
  · rename_i g rest ha
    exact .inr ⟨g, rest, .inl ⟨rest, ha⟩, h⟩

end Sys2Proof.Machine

open Sys2Proof Sys2Proof.Machine

/-- Settles O34, by whose turn a step is: the three turns that may write a table memory are the ones left out. -/
theorem onlyGenerationAndSortingWriteTheTables : Obligations.OnlyGenerationAndSortingWriteTheTables := by
  intro s t hstep hreset hgen hsort hseq
  have key : bothTables t = bothTables s := by
    rcases step_host_or_turn hstep hreset with ⟨rest, h⟩ | ⟨g, l, hm, h⟩
    · exact h.bothTables_eq
    · refine bothTables_turn (s := { s with agenda := l }) (fun hw => ?_) h
      cases g with
      | worker w k => exact hgen w k hm (genReady_iff.mp hw)
      | sorter => exact hsort ⟨hm, hw⟩
      | sequencer => exact hseq ⟨hm, hw⟩
      | datapath | join | lane | retirement => exact hw
  exact Prod.mk.inj key

end

section
/-! PROOF. The encoding (30_encoding.md R90 to R92, R98, R100, R101, R103): a transaction is decoded by its three
fields, and the opcode table, read in priority order, agrees. -/

namespace Sys2Proof

theorem decode_txn_write (a : Index) (d : HostWord) : decode (txn true a d) = decodeWrite a d := by simp [decode]

theorem decode_txn_read (a : Index) (d : HostWord) : decode (txn false a d) = .rd a := by simp [decode]

/-- A data word of index 0x00 that is no command is an illegal one, kept whole (R98 a). -/
theorem decodeCommand_of_not_isCommandWord {d : HostWord} (h : isCommandWord d = false) :
    decodeCommand d = .illcmd d := by
  unfold decodeCommand
  split
  · rename_i hz
    have hop : 5 < (d.extractLsb' 0 4).toNat := by
      simpa [isCommandWord, hz, BitVec.lt_def] using h
    split
    case h_7 => rfl
    all_goals omega
  · rfl

/-- A write to an unmapped or read-only index is a refused one, with its index kept (R66, R67). -/
theorem decodeWrite_of_isRefusedIndex {a : Index} (h : isRefusedIndex a = true) : decodeWrite a 0 = .badwr a := by
  revert a
  decide

/-- Away from index 0x00 the row of a write does not depend on its data. -/
theorem mnemonic_decodeWrite_data {a : Index} (h : a ≠ 0) (d : HostWord) :
    mnemonic (decodeWrite a d) = mnemonic (decodeWrite a 0) := by
  unfold decodeWrite
  split
  case h_1 h0 => exact absurd (BitVec.eq_of_toNat_eq h0) h
  all_goals rfl

/-- With no data, the first row that matches a write away from index 0x00 is its own. -/
theorem firstMatch_write_zero {a : Index} (h : a ≠ 0) :
    firstMatch (txn true a 0) = some (mnemonic (decodeWrite a 0)) := by
  revert a
  decide

/-- The six commands are the data words 0 to 5 (R92, R100 line 2). -/
theorem isCommandWord_iff {d : HostWord} : isCommandWord d = true ↔ d.toNat ≤ 5 := by
  simp only [isCommandWord, Bool.and_eq_true, beq_iff_eq, decide_eq_true_eq, BitVec.le_def, ← BitVec.toNat_inj,
    BitVec.extractLsb'_toNat, Nat.shiftRight_eq_div_pow, BitVec.reduceToNat]
  omega

/-- At index 0x00 the first row that matches is the command's, or `ILLCMD` (R100 lines 2 and 3). -/
theorem firstMatch_command (d : HostWord) : firstMatch (txn true 0 d) = some (mnemonic (decodeCommand d)) := by
  by_cases h : isCommandWord d = true
  · obtain ⟨n, hn⟩ : ∃ n, d = BitVec.ofNat 32 n ∧ n ≤ 5 := ⟨d.toNat, by simp, isCommandWord_iff.mp h⟩
    obtain ⟨rfl, hn⟩ := hn
    interval_cases n <;> decide
  · have h : isCommandWord d = false := by simpa using h
    rw [firstMatch_illcmd (Laws.Encoding.five_lt h), decodeCommand_of_not_isCommandWord h]
    rfl

end Sys2Proof

open Sys2Proof Sys2Proof.Machine

/-- Settles O1, by the constructors: a host access comes back from its index and data, and the two rows that take "every
other word" from what well-formedness says of their operand; micro-operations and functions have no word. -/
theorem decodingAnEncodedInstructionGivesItBack : Obligations.DecodingAnEncodedInstructionGivesItBack := by
  intro i t hw ht
  cases i with
  | rd a =>
    cases ht
    exact decode_txn_read a 0
  | illcmd d =>
    cases ht
    rw [decode_txn_write]
    exact decodeCommand_of_not_isCommandWord (by simpa [Instr.wellFormed] using hw)
  | badwr a =>
    cases ht
    rw [decode_txn_write]
    exact decodeWrite_of_isRefusedIndex hw
  | nop | ksched | enc | dec | denc | mitm | pop =>
    cases ht
    decide
  | wrK1 | wrK2 | wrDin | wrP1 | wrC1 | wrP2 | wrC2 | wrRk0 | wrRk1 | wrRk2 | wrRk3 | wrRk4 | wrRk5 | wrRk6 | wrRk7
  | wrRk8 | wrRk9 | wrRk10 =>
    cases ht
    exact decode_txn_write _ _
  | _ => cases ht

/-- Settles O2, by what decoding keeps, and by the direction bit. -/
theorem everyTransactionDecodesToAHostAccess : Obligations.EveryTransactionDecodesToAHostAccess := fun t =>
  ⟨wellFormed_decode t, encode_decode_isSome t, fun h => by simp [decode, h]⟩

/-- Settles O3, by the fields of the transaction: a read, a command word, or a write whose row is found by its index. -/
theorem decodingTakesTheFirstMatchingRow : Obligations.DecodingTakesTheFirstMatchingRow := by
  intro t
  rw [← txn_fields t]
  generalize txnIndex t = a, txnData t = d
  cases txnRw t with
  | false => rw [firstMatch_read, decode_txn_read]; rfl
  | true =>
    rw [decode_txn_write]
    by_cases ha : a = 0
    · subst ha
      exact firstMatch_command d
    · rw [firstMatch_data ha, firstMatch_write_zero ha, mnemonic_decodeWrite_data ha d]

/-- Settles O4, word by word. -/
theorem wordsOfTheSpecDecodeAsItsLinesSay : Obligations.WordsOfTheSpecDecodeAsItsLinesSay := by
  unfold Obligations.WordsOfTheSpecDecodeAsItsLinesSay
  decide

/-- Settles O23: each of the two is a refusal and nothing else. -/
theorem malformedWritesAreRefusedBusyOrNot : Obligations.MalformedWritesAreRefusedBusyOrNot := fun _ _ _ => ⟨rfl, rfl⟩

end

section
/-! PROOF. The packed table entry (30_encoding.md R96): its two fields, and its order as an unsigned word. -/

namespace Sys2Proof.Machine

/-- A packed entry as a number: the value above the 24 bits of the key (R96). -/
theorem toNat_pack (v k : Block) : (pack v k).toNat = v.toNat * 2 ^ 24 + k.toNat := by
  simp only [pack, BitVec.toNat_cast, BitVec.toNat_append]
  rw [← Nat.shiftLeft_add_eq_or_of_lt k.isLt, Nat.shiftLeft_eq]

theorem entryValue_pack (v k : Block) : entryValue (pack v k) = v := by
  refine BitVec.eq_of_toNat_eq ?_
  rw [entryValue, BitVec.extractLsb'_toNat, toNat_pack]
  omega

theorem entryKey_pack (v k : Block) : entryKey (pack v k) = k := by
  refine BitVec.eq_of_toNat_eq ?_
  rw [entryKey, BitVec.extractLsb'_toNat, toNat_pack]
  omega

theorem pack_lt_pack (v k v' k' : Block) : pack v k < pack v' k' ↔ v < v' ∨ (v = v' ∧ k < k') := by
  simp only [BitVec.lt_def, toNat_pack, ← BitVec.toNat_inj]
  omega

end Sys2Proof.Machine

open Sys2Proof Sys2Proof.Machine

/-- Settles O54, by the packed word as a number: its upper digit is the value, its lower digit the key. -/
theorem entryOrderIsValueThenKey : Obligations.EntryOrderIsValueThenKey := fun v k v' k' =>
  ⟨pack_lt_pack v k v' k', entryValue_pack v k, entryKey_pack v k⟩

end

section
/-! PROOF. The merge-join as a function of two lists (44_mitm_engine.md R188 to R192): one equation per comparison, and
how the cursors of the join unit see the runs. -/

namespace Sys2Proof.Machine

open Sys2Proof.Config

/-! ### The join of two lists -/

@[simp] theorem joinLoop_nil_left (n : Nat) (bs : List Entry) : joinLoop n [] bs = [] := by cases n <;> rfl

@[simp] theorem joinLoop_nil_right (n : Nat) (fs : List Entry) : joinLoop n fs [] = [] := by
  cases n with
  | zero => rfl
  | succ n => cases fs <;> rfl

/-- Going past a run uses up at least its first entry (R192). -/
theorem length_dropWhile_run_le (e : Entry) (l : List Entry) :
    ((e :: l).dropWhile fun d => entryValue d == entryValue e).length ≤ l.length := by
  rw [List.dropWhile_cons, if_pos (beq_self_eq_true _)]
  exact List.length_dropWhile_le _ l

/-- Fuel for all the entries is enough: more changes nothing (R192). -/
theorem joinLoop_congr {n m : Nat} {fs bs : List Entry} (hn : fs.length + bs.length ≤ n)
    (hm : fs.length + bs.length ≤ m) : joinLoop n fs bs = joinLoop m fs bs := by
  induction n generalizing m fs bs with
  | zero =>
    obtain rfl : fs = [] := List.length_eq_zero_iff.mp (by omega)
    simp
  | succ n ih =>
    rcases fs with _ | ⟨f, fs⟩
    · simp
    rcases bs with _ | ⟨b, bs⟩
    · simp
    obtain ⟨m, rfl⟩ : ∃ k, m = k + 1 := ⟨m - 1, by simp only [List.length_cons] at hm; omega⟩
    simp only [List.length_cons] at hn hm
    simp only [joinLoop]
    split_ifs with h1 h2
    · exact ih (by simp only [List.length_cons]; omega) (by simp only [List.length_cons]; omega)
    · exact ih (by simp only [List.length_cons]; omega) (by simp only [List.length_cons]; omega)
    · have hv : entryValue f = entryValue b := BitVec.le_antisymm (BitVec.not_lt.mp h2) (BitVec.not_lt.mp h1)
      have hf := length_dropWhile_run_le f fs
      have hb := length_dropWhile_run_le b bs
      rw [← hv] at hb
      exact congrArg _ (ih (by omega) (by omega))

@[simp] theorem join_nil_left (bs : List Entry) : join [] bs = [] := joinLoop_nil_left _ bs

@[simp] theorem join_nil_right (fs : List Entry) : join fs [] = [] := joinLoop_nil_right _ fs

/-- `ADVF` on lists (R189). -/
theorem join_cons_of_lt {f b : Entry} (h : entryValue f < entryValue b) (fs bs : List Entry) :
    join (f :: fs) (b :: bs) = join fs (b :: bs) := by
  have hstep : join (f :: fs) (b :: bs) = joinLoop (fs.length + (b :: bs).length) fs (b :: bs) := by
    rw [join, List.length_cons, Nat.succ_add, joinLoop, if_pos h]
  exact hstep

/-- `ADVB` on lists (R190). -/
theorem join_cons_of_gt {f b : Entry} (h : entryValue b < entryValue f) (fs bs : List Entry) :
    join (f :: fs) (b :: bs) = join (f :: fs) bs := by
  have hstep : join (f :: fs) (b :: bs) = joinLoop ((f :: fs).length + bs.length) (f :: fs) bs := by
    rw [join, List.length_cons (a := b), Nat.add_succ, joinLoop, if_neg (BitVec.not_lt.mpr (BitVec.le_of_lt h)),
      if_pos h]
  exact hstep

/-- `EMITX` on lists (R191): the cross product of the two runs, then the join of what lies past them. -/
theorem join_cons_of_eq {f b : Entry} (h : entryValue f = entryValue b) (fs bs : List Entry) :
    join (f :: fs) (b :: bs) =
      crossProduct ((f :: fs).takeWhile fun e => entryValue e == entryValue f)
          ((b :: bs).takeWhile fun e => entryValue e == entryValue f) ++
        join ((f :: fs).dropWhile fun e => entryValue e == entryValue f)
          ((b :: bs).dropWhile fun e => entryValue e == entryValue f) := by
  have hf := length_dropWhile_run_le f fs
  have hb := length_dropWhile_run_le b bs
  rw [← h] at hb
  have hirr : ¬entryValue f < entryValue b := by rw [h]; exact BitVec.lt_irrefl _
  have hirr' : ¬entryValue b < entryValue f := by rw [h]; exact BitVec.lt_irrefl _
  rw [join, List.length_cons, Nat.succ_add, joinLoop, if_neg hirr, if_neg hirr']
  congr 1
  exact joinLoop_congr (by simp only [List.length_cons]; omega) le_rfl

/-! ### Runs and slices of a list -/

theorem crossProduct_cons (f : Entry) (fs bs : List Entry) :
    crossProduct (f :: fs) bs = crossProduct [f] bs ++ crossProduct fs bs := by simp [crossProduct]

theorem crossProduct_singleton_cons (f b : Entry) (bs : List Entry) :
    crossProduct [f] (b :: bs) = ⟨entryKey f, entryKey b⟩ :: crossProduct [f] bs := by simp [crossProduct]

theorem slice_of_le {x y : Nat} (h : y ≤ x) (l : List Entry) : slice l x y = [] := by
  simp [slice, Nat.sub_eq_zero_of_le h]

theorem slice_eq_cons {l : List Entry} {x y : Nat} {e : Entry} (h : x < y) (he : l[x]? = some e) :
    slice l x y = e :: slice l (x + 1) y := by
  obtain ⟨hx, rfl⟩ := List.getElem?_eq_some_iff.mp he
  have hy : y - x = y - (x + 1) + 1 := by omega
  rw [slice, List.drop_eq_getElem_cons hx, hy, List.take_succ_cons, slice]

/-- The run that stands at `x`, as a slice. -/
theorem slice_run (p : Entry → Bool) (l : List Entry) (x : Nat) :
    slice l x (x + ((l.drop x).takeWhile p).length) = (l.drop x).takeWhile p := by
  rw [slice, Nat.add_sub_cancel_left]
  conv_lhs => rw [← List.takeWhile_append_dropWhile (p := p) (l := l.drop x)]
  rw [List.take_left' (by simp)]

/-- What lies past the run that stands at `x`. -/
theorem drop_run (p : Entry → Bool) (l : List Entry) (x : Nat) :
    l.drop (x + ((l.drop x).takeWhile p).length) = (l.drop x).dropWhile p := by
  rw [← List.drop_drop]
  conv_lhs => rw [← List.takeWhile_append_dropWhile (p := p) (l := l.drop x)]
  rw [List.drop_left' (by simp)]

/-! ### The tables as the join unit reads them -/

/-- Entry `x` of a table is what a read at `x` returns. -/
theorem tableEntries_getElem? {s : State} {t : Side} {x : Nat} (hx : x < s.params.n) :
    (tableEntries s t)[x]? = some (memRead s t x) := by simp [tableEntries, hx]

theorem tableEntries_drop {s : State} {t : Side} {x : Nat} (hx : x < s.params.n) :
    (tableEntries s t).drop x = memRead s t x :: (tableEntries s t).drop (x + 1) := by
  obtain ⟨hlt, he⟩ := List.getElem?_eq_some_iff.mp (tableEntries_getElem? (t := t) hx)
  rw [List.drop_eq_getElem_cons hlt, he]

theorem tableEntries_drop_of_le {s : State} {x : Nat} (hx : s.params.n ≤ x) (t : Side) :
    (tableEntries s t).drop x = [] := List.drop_eq_nil_of_le (by simpa using hx)

/-- One past the run that stands at `x` (R191), by the entries of the table. -/
theorem runEnd_memRead (s : State) (t : Side) (v : Block) {x : Nat} (hx : x ≤ s.params.n) :
    runEnd (memRead s t) v (s.params.n - x) x =
      x + (((tableEntries s t).drop x).takeWhile fun e => entryValue e == v).length := by
  obtain ⟨k, hk⟩ : ∃ k, k = s.params.n - x := ⟨_, rfl⟩
  induction k generalizing x with
  | zero => simp [← hk, runEnd, tableEntries_drop_of_le (show s.params.n ≤ x by omega)]
  | succ k ih =>
    rw [tableEntries_drop (show x < s.params.n by omega), ← hk, runEnd, List.takeWhile_cons]
    split_ifs with h h' h'
    · obtain rfl : k = s.params.n - (x + 1) := by omega
      rw [ih (by omega) rfl, List.length_cons]
      omega
    · exact absurd (beq_iff_eq.mpr h) h'
    · exact absurd (beq_iff_eq.mp h') h
    · rfl

/-- Equal tables read alike below `N`. -/
theorem memRead_congr {s t : State} {side : Side} {x : Nat} (hp : t.params = s.params)
    (he : tableEntries t side = tableEntries s side) (hx : x < s.params.n) : memRead t side x = memRead s side x := by
  have h := tableEntries_getElem? (t := side) hx
  rw [← he, tableEntries_getElem? (hp ▸ hx)] at h
  exact Option.some.inj h

end Sys2Proof.Machine

end

section
/-! PROOF. The invariant of a search, phase by phase (44_mitm_engine.md R182 to R192, R197): a host access and every
turn of an agent keep it, so it holds under every schedule. -/

namespace Sys2Proof.Machine

open Sys2Proof.Config

/-! ### The invariant in each phase -/

theorem searchInv_of_idle {s : State} (hp : s.phase = .idle) : SearchInv s := by simp only [SearchInv, hp]

theorem searchInv_of_short {s : State} (hp : s.phase = .short) : SearchInv s := by simp only [SearchInv, hp]

theorem searchInv_of_gen {s : State} (hp : s.phase = .gen) (h : GenInv s) : SearchInv s := by
  simpa only [SearchInv, hp] using h

theorem SearchInv.genInv {s : State} (h : SearchInv s) (hp : s.phase = .gen) : GenInv s := by
  simpa only [SearchInv, hp] using h

theorem searchInv_of_sort {s : State} (hp : s.phase = .sort) (h : SortInv s) : SearchInv s := by
  simpa only [SearchInv, hp] using h

theorem SearchInv.sortInv {s : State} (h : SearchInv s) (hp : s.phase = .sort) : SortInv s := by
  simpa only [SearchInv, hp] using h

theorem searchInv_of_join {s : State} (hp : s.phase = .join) (h : JoinInv s) : SearchInv s := by
  simpa only [SearchInv, hp] using h

theorem SearchInv.joinInv {s : State} (h : SearchInv s) (hp : s.phase = .join) : JoinInv s := by
  simpa only [SearchInv, hp] using h

/-! ### The tables in each phase -/

/-- The entries generation makes from the first pair, in the order of the keys (R182). -/
def generated (s : State) : Side → List Entry
  | .fwd => (keySpace s.params).map (forwardEntry s.params.tables s.p1)
  | .bwd => (keySpace s.params).map (backwardEntry s.params.tables s.c1)

@[simp] theorem generated_length (s : State) (t : Side) : (generated s t).length = s.params.n := by
  cases t <;> simp [generated, keySpace]

theorem forwardTable_length (p : Params) (x : Block) : (forwardTable p x).length = p.n := by
  rw [forwardTable, (sortEntries_perm _).length_eq]
  simp [keySpace]

theorem backwardTable_length (p : Params) (y : Block) : (backwardTable p y).length = p.n := by
  rw [backwardTable, (sortEntries_perm _).length_eq]
  simp [keySpace]

/-- An ascending arrangement of a list of entries is the sorted list. -/
theorem eq_sortEntries {l l' : List Entry} (hp : l.Perm l') (hl : l.Pairwise (· ≤ ·)) : l = sortEntries l' :=
  (hp.trans (sortEntries_perm l').symm).eq_of_pairwise (fun _ _ _ _ => BitVec.le_antisymm) hl (sortEntries_ascending l')

/-- Phase SORT: each table is an arrangement of the generated entries. -/
theorem SortInv.tableEntries_perm {s : State} (h : SortInv s) (t : Side) :
    (tableEntries s t).Perm (generated s t) := by
  obtain ⟨-, ⟨lf, hpf, hf⟩, ⟨lb, hpb, hb⟩⟩ := h
  cases t with
  | fwd => rwa [tableEntries_eq (t := .fwd) (hpf.length_eq.trans (generated_length s .fwd)) hf]
  | bwd => rwa [tableEntries_eq (t := .bwd) (hpb.length_eq.trans (generated_length s .bwd)) hb]

/-- Phase JOIN: the tables are the sorted ones. -/
theorem JoinInv.tableEntries_eq {s : State} (h : JoinInv s) :
    tableEntries s .fwd = forwardTable s.params s.p1 ∧ tableEntries s .bwd = backwardTable s.params s.c1 :=
  ⟨Machine.tableEntries_eq (forwardTable_length _ _) h.fwd, Machine.tableEntries_eq (backwardTable_length _ _) h.bwd⟩

/-! ### What the invariant does not look at -/

/-- The fields the invariant of a search speaks of, but for `RF`. -/
def searchFields (s : State) :
    (Params × Block × Block × Block × Block) × (Phase × Memory × Memory × List Nat) ×
      (Nat × Nat × Nat × Nat × Nat × Nat) × Bool × List QueueEntry :=
  ((s.params, s.p1, s.c1, s.p2, s.c2), (s.phase, s.tf, s.tb, s.gdone), (s.i, s.j, s.ie, s.je, s.a, s.b), s.jend, s.vq)

theorem NotBegun.congr {s t : State} (h : NotBegun s) (e : searchFields t = searchFields s)
    (hrf : s.rf = [] → t.rf = []) : NotBegun t := by
  simp only [searchFields, Prod.mk.injEq] at e
  obtain ⟨-, -, ⟨hi, hj, hie, hje, -⟩, hjend, hvq⟩ := e
  obtain ⟨rf_nil, vq_nil, i_zero, j_zero, ie_zero, je_zero, jend_false⟩ := h
  exact ⟨hrf rf_nil, hvq.trans vq_nil, hi.trans i_zero, hj.trans j_zero, hie.trans ie_zero, hje.trans je_zero,
    hjend.trans jend_false⟩

theorem GenInv.congr {s t : State} (h : GenInv s) (e : searchFields t = searchFields s)
    (hrf : s.rf = [] → t.rf = []) : GenInv t := by
  have hbegun := h.begun.congr e hrf
  simp only [searchFields, Prod.mk.injEq] at e
  obtain ⟨⟨hp, hp1, hc1, -, -⟩, ⟨-, htf, htb, hg⟩, -⟩ := e
  refine ⟨hbegun, ?_, ?_⟩
  · rw [hg]
    exact h.rising
  · rw [hp, hp1, hc1, htf, htb, hg]
    exact h.written

theorem SortInv.congr {s t : State} (h : SortInv s) (e : searchFields t = searchFields s)
    (hrf : s.rf = [] → t.rf = []) : SortInv t := by
  have hbegun := h.begun.congr e hrf
  simp only [searchFields, Prod.mk.injEq] at e
  obtain ⟨⟨hp, hp1, hc1, -, -⟩, ⟨-, htf, htb, -⟩, -⟩ := e
  refine ⟨hbegun, ?_, ?_⟩
  · rw [hp, hp1, htf]
    exact h.fwd
  · rw [hp, hc1, htb]
    exact h.bwd

/-- In phase JOIN the tables hold written entries only, so a free value (R68, U6) is never read. -/
theorem JoinInv.congr {s t : State} (h : JoinInv s) (e : searchFields t = searchFields s) : JoinInv t := by
  simp only [searchFields, Prod.mk.injEq] at e
  obtain ⟨⟨hp, hp1, hc1, hp2, hc2⟩, ⟨-, htf, htb, -⟩, ⟨hi, hj, hie, hje, ha, hb⟩, hjend, hvq⟩ := e
  have hfwd : holds t.tf (forwardTable t.params t.p1) := by rw [htf, hp, hp1]; exact h.fwd
  have hbwd : holds t.tb (backwardTable t.params t.c1) := by rw [htb, hp, hc1]; exact h.bwd
  have hF : tableEntries t .fwd = tableEntries s .fwd := by
    rw [h.tableEntries_eq.1, Machine.tableEntries_eq (s := t) (t := .fwd) (forwardTable_length _ _) hfwd, hp, hp1]
  have hB : tableEntries t .bwd = tableEntries s .bwd := by
    rw [h.tableEntries_eq.2, Machine.tableEntries_eq (s := t) (t := .bwd) (backwardTable_length _ _) hbwd, hp, hc1]
  have hem : emitting t = emitting s := by simp only [emitting, hi, hj, hie, hje]
  refine ⟨hfwd, hbwd, h.cursors.congr (by simp only [cursorFields, hp, hi, hj, hie, hje, ha, hb]), fun he => ?_, ?_, ?_⟩
  · rw [hem] at he
    obtain ⟨hia, haie, hjb, hbje⟩ := h.cursors.inside he
    have hiN : s.i < s.params.n := hia.trans_lt (haie.trans_le h.cursors.ie_le)
    have hjN : s.j < s.params.n := hjb.trans_lt (hbje.trans_le h.cursors.je_le)
    have hvF : valueF t = valueF s := by rw [valueF, hi, memRead_congr hp hF hiN, valueF]
    have hvB : valueB t = valueB s := by rw [valueB, hj, memRead_congr hp hB hjN, valueB]
    obtain ⟨hv, hieq, hjeq⟩ := h.run he
    rw [runEnd_memRead _ _ _ h.cursors.i_le] at hieq
    rw [runEnd_memRead _ _ _ h.cursors.j_le] at hjeq
    rw [runEnd_memRead _ _ _ (by rw [hi, hp]; exact h.cursors.i_le),
      runEnd_memRead _ _ _ (by rw [hj, hp]; exact h.cursors.j_le), hvF, hvB, hF, hB, hi, hj, hie, hje]
    exact ⟨hv, hieq, hjeq⟩
  · simpa only [hvq, verdictOf, hp, hp2, hc2] using h.verdicts
  · simpa only [hem, hjend, hp, hi, hj] using h.ended

/-- The invariant stands when its fields do and `RF` does not fill. -/
theorem SearchInv.congr {s t : State} (h : SearchInv s) (e : searchFields t = searchFields s)
    (hrf : s.rf = [] → t.rf = []) : SearchInv t := by
  have hp : t.phase = s.phase := by
    simp only [searchFields, Prod.mk.injEq] at e
    obtain ⟨-, ⟨hp, -⟩, -⟩ := e
    exact hp
  cases hs : s.phase with
  | idle => exact searchInv_of_idle (hp.trans hs)
  | short => exact searchInv_of_short (hp.trans hs)
  | gen => exact searchInv_of_gen (hp.trans hs) ((h.genInv hs).congr e hrf)
  | sort => exact searchInv_of_sort (hp.trans hs) ((h.sortInv hs).congr e hrf)
  | join => exact searchInv_of_join (hp.trans hs) ((h.joinInv hs).congr e)

/-! ### A host access (R72, R181) -/

/-- Acceptance of `MITM` flushes what an earlier run left (R181). -/
theorem genInv_accept_mitm (s : State) : GenInv (accept .mitm s) :=
  ⟨⟨rfl, rfl, rfl, rfl, rfl, rfl, rfl⟩, List.Pairwise.nil, List.forall_mem_nil _⟩

theorem searchInv_accept (o : Op) (s : State) : SearchInv (accept o s) := by
  by_cases ho : o = .mitm
  · subst ho
    exact searchInv_of_gen rfl (genInv_accept_mitm s)
  · rw [accept_short ho]
    exact searchInv_of_short rfl

/-- With `BUSY = 0` the core is in phase IDLE (R27). -/
theorem StatusInv.idle_of_ready {s : State} (h : StatusInv s) (hb : s.busy = false) : s.phase = .idle := by
  by_contra hp
  simpa [hb] using h.busy_iff.mpr hp

/-- A host access keeps the invariant of a search, under the invariants of the flags. -/
theorem SearchInv.of_hostStep {s t : State} (hst : StatusInv s) (hs : SearchInv s) (h : HostStep s t) :
    SearchInv t := by
  cases h with
  | store r x hb => exact searchInv_of_idle ((setOperand_phase r x s).trans (hst.idle_of_ready hb))
  | accepted o _ => exact searchInv_accept o s
  | popped => exact hs.congr rfl fun h => by simp [h]
  | read | refused => exact hs.congr rfl id

/-! ### Generation and sorting (R182 to R187) -/

/-- `GEN(k)` marks one more key, with its two entries (R182, R185). -/
theorem genInv_gen {s : State} (hs : GenInv s) {k : Block} (hk : k.toNat < s.params.n) (ws : List CipherRegs) :
    GenInv { memWrite .bwd k.toNat (backwardEntry s.params.tables s.c1 k)
        (memWrite .fwd k.toNat (forwardEntry s.params.tables s.p1 k) s) with
      gdone := markKey s.gdone k.toNat, workers := ws } := by
  refine ⟨{ hs.begun with }, markKey_rising hs.rising _, fun m hm => ?_⟩
  simp only [memWrite_params, memWrite_p1, memWrite_c1, memWrite_bwd_tf, memWrite_fwd_tf, memWrite_bwd_tb,
    memWrite_fwd_tb, Memory.lookup_write]
  by_cases hmk : m = k.toNat
  · subst hmk
    simp [hk]
  · simp only [hmk, if_false]
    exact hs.written m ((mem_markKey.mp hm).resolve_left hmk)

/-- When every key is marked, each table holds the generated entries (R183). -/
theorem sortInv_of_allGenerated {s : State} (hs : GenInv s) (hd : allGenerated s = true) :
    SortInv { s with phase := .sort } := by
  have written : ∀ x, x < s.params.n → _ := fun x hx => hs.written x ((allGenerated_iff hs.rising).mp hd x hx)
  refine ⟨{ hs.begun with },
    ⟨generated s .fwd, .refl _, fun x hx => ?_⟩, ⟨generated s .bwd, .refl _, fun x hx => ?_⟩⟩
  · rw [generated_length] at hx
    simp [(written x hx).2.1, generated, keySpace, hx]
  · rw [generated_length] at hx
    simp [(written x hx).2.2, generated, keySpace, hx]

/-- `SORT` arranges the entries and loses none (R186). -/
theorem sortInv_sort {s : State} (hs : SortInv s) :
    SortInv { s with tf := Memory.ofEntriesFrom 0 (sortEntries (tableEntries s .fwd)),
                     tb := Memory.ofEntriesFrom 0 (sortEntries (tableEntries s .bwd)) } :=
  ⟨{ hs.begun with },
    ⟨_, (sortEntries_perm _).trans (hs.tableEntries_perm .fwd), fun x _ => Memory.lookup_ofEntries _ x⟩,
    ⟨_, (sortEntries_perm _).trans (hs.tableEntries_perm .bwd), fun x _ => Memory.lookup_ofEntries _ x⟩⟩

/-- Two ascending tables of generated entries are the sorted tables of the run (R180, R186). -/
theorem SortInv.tableEntries_eq {s : State} (hs : SortInv s) (hd : tablesSorted s = true) :
    tableEntries s .fwd = forwardTable s.params s.p1 ∧ tableEntries s .bwd = backwardTable s.params s.c1 := by
  simp only [tablesSorted, Bool.and_eq_true, ascending_iff] at hd
  exact ⟨eq_sortEntries (hs.tableEntries_perm .fwd) hd.1, eq_sortEntries (hs.tableEntries_perm .bwd) hd.2⟩

/-- The join begins on the sorted tables (R186, R188). -/
theorem joinInv_of_tablesSorted {s : State} (hs : SortInv s) (hd : tablesSorted s = true) :
    JoinInv { s with phase := .join } := by
  obtain ⟨hF, hB⟩ := hs.tableEntries_eq hd
  obtain ⟨⟨rf_nil, vq_nil, i_zero, j_zero, ie_zero, je_zero, jend_false⟩, ⟨lf, hpf, hf⟩, ⟨lb, hpb, hb⟩⟩ := hs
  have hem : emitting s = false := by simp [emitting, i_zero, ie_zero]
  rw [Machine.tableEntries_eq (t := .fwd) (hpf.length_eq.trans (generated_length s .fwd)) hf] at hF
  rw [Machine.tableEntries_eq (t := .bwd) (hpb.length_eq.trans (generated_length s .bwd)) hb] at hB
  refine ⟨hF ▸ hf, hB ▸ hb, ⟨?_, ?_, ?_, ?_, fun he => ?_⟩, fun he => ?_, ?_, fun he => ?_⟩
  · simp [i_zero]
  · simp [j_zero]
  · simp [ie_zero]
  · simp [je_zero]
  · exact absurd (hem.symm.trans he) (by decide)
  · exact absurd (hem.symm.trans he) (by decide)
  · simp [vq_nil]
  · exact absurd (jend_false.symm.trans he) (by decide)

/-! ### The join, verification and delivery (R188 to R199) -/

/-- Outside an emission, a cursor that moves on keeps the invariant of the join. -/
theorem joinInv_advance {s : State} (hs : JoinInv s) (hr : comparing s = true) {x y : Nat}
    (hx : s.i ≤ x) (hy : s.j ≤ y) (hxn : x ≤ s.params.n) (hyn : y ≤ s.params.n) :
    JoinInv { s with i := x, j := y } := by
  obtain ⟨-, hjend, hem, -, -⟩ := comparing_iff.mp hr
  refine ⟨hs.fwd, hs.bwd, cursorInv_advance hs.cursors hem hx hy hxn hyn, fun he => ?_, hs.verdicts, fun he => ?_⟩
  · obtain ⟨hi, hj⟩ := emitting_iff.mp he
    exact absurd (emitting_iff.mpr ⟨hx.trans_lt hi, hy.trans_lt hj⟩) (by simp [hem])
  · exact absurd (hjend.symm.trans he) (by decide)

/-- An emission begins on two runs of one value (R191). -/
theorem joinInv_emitBegin {s : State} (hs : JoinInv s) (hr : emitxReady s = true) : JoinInv (emitBegin s) := by
  obtain ⟨hcur, -⟩ := cursorInv_emitBegin hs.cursors hr
  obtain ⟨-, hjend, he | ⟨he, -, -, hv⟩⟩ := emitxReady_iff.mp hr
  · simpa [emitBegin, he] using hs
  · simp only [emitBegin, he, Bool.false_eq_true, if_false] at hcur ⊢
    exact ⟨hs.fwd, hs.bwd, hcur, fun _ => ⟨hv, rfl, rfl⟩, hs.verdicts, fun h => absurd (hjend.symm.trans h) (by decide)⟩

/-- A candidate enters `VQ` with no verdict (R34, R191). -/
theorem joinInv_emitPair {s : State} (hs : JoinInv s) : JoinInv (emitPair s) := by
  refine ⟨hs.fwd, hs.bwd, hs.cursors.congr rfl, hs.run, fun e he hne => ?_, hs.ended⟩
  rcases List.mem_append.mp he with he | he
  · exact hs.verdicts e he hne
  · obtain rfl := List.mem_singleton.mp he
    exact absurd rfl hne

/-- Inside an emission the runs stay; after the last pair the emission is over (R191, R193). -/
theorem joinInv_emitAdvance {s : State} (hs : JoinInv s) (he : emitting s = true) (hjend : s.jend = false) :
    JoinInv (emitAdvance s) := by
  have hcur := cursorInv_emitAdvance hs.cursors he
  unfold emitAdvance at hcur ⊢
  split_ifs at hcur ⊢
  · exact ⟨hs.fwd, hs.bwd, hcur, hs.run, hs.verdicts, hs.ended⟩
  · exact ⟨hs.fwd, hs.bwd, hcur, hs.run, hs.verdicts, hs.ended⟩
  · exact ⟨hs.fwd, hs.bwd, hcur, fun hin => absurd (emitting_iff.mp hin).1 (lt_irrefl _), hs.verdicts,
      fun h => absurd (hjend.symm.trans h) (by decide)⟩

theorem emitBegin_jend (s : State) : (emitBegin s).jend = s.jend := by rw [emitBegin_frame]

theorem joinInv_emit {s : State} (hs : JoinInv s) (hr : emitxReady s = true) :
    JoinInv (emitAdvance (emitPair (emitBegin s))) := by
  obtain ⟨-, hjend, -⟩ := emitxReady_iff.mp hr
  exact joinInv_emitAdvance (joinInv_emitPair (joinInv_emitBegin hs hr)) (cursorInv_emitBegin hs.cursors hr).2
    ((emitBegin_jend s).trans hjend)

/-- Verdicts of `VQ` that stand for those of R197, with the join where it was. -/
theorem joinInv_queue {s : State} (hs : JoinInv s) {q : List QueueEntry} (rf : List KeyPair) (ls : List CipherRegs)
    (hq : ∀ e ∈ q, e.verdict ≠ .pending → e.verdict = verdictOf s e.pair) :
    JoinInv { s with vq := q, rf := rf, lanes := ls } :=
  ⟨hs.fwd, hs.bwd, hs.cursors.congr rfl, hs.run, hq, hs.ended⟩

/-- A turn of an agent keeps the invariant of a search. -/
theorem SearchInv.of_agentStep {s t : State} (hs : SearchInv s) (h : AgentStep s t) : SearchInv t := by
  cases h with
  | idle => exact hs
  | micro m hp hm => exact searchInv_of_short ((microNext_frame hm).2.1.trans hp)
  | shortComplete | searchComplete => exact searchInv_of_idle rfl
  | gen w k hr =>
    obtain ⟨hp, -, hk, -⟩ := genReady_iff.mp hr
    exact searchInv_of_gen hp (genInv_gen (hs.genInv hp) hk _)
  | toSort hp hd => exact searchInv_of_sort rfl (sortInv_of_allGenerated (hs.genInv hp) hd)
  | sort hp => exact searchInv_of_sort hp (sortInv_sort (hs.sortInv hp))
  | toJoin hp hd => exact searchInv_of_join rfl (joinInv_of_tablesSorted (hs.sortInv hp) hd)
  | joinEnd hr =>
    obtain ⟨hp, -, hem, hend⟩ := joinAtEnd_iff.mp hr
    have hj := hs.joinInv hp
    exact searchInv_of_join hp
      ⟨hj.fwd, hj.bwd, hj.cursors.congr rfl, hj.run, hj.verdicts, fun _ => ⟨hem, hend⟩⟩
  | advf hr =>
    have hc := (advfReady_iff.mp hr).1
    obtain ⟨hp, -, -, hi, hj⟩ := comparing_iff.mp hc
    exact searchInv_of_join hp
      (joinInv_advance (hs.joinInv hp) hc (Nat.le_succ _) le_rfl hi hj.le)
  | advb hr =>
    have hc := (advbReady_iff.mp hr).1
    obtain ⟨hp, -, -, hi, hj⟩ := comparing_iff.mp hc
    exact searchInv_of_join hp
      (joinInv_advance (hs.joinInv hp) hc le_rfl (Nat.le_succ _) hi.le hj)
  | emitx hr _ =>
    have hp := (emitxReady_iff.mp hr).1
    have hp' : (emitAdvance (emitPair (emitBegin s))).phase = .join := by rw [emit_frame]; exact hp
    exact searchInv_of_join hp' (joinInv_emit (hs.joinInv hp) hr)
  | verify v n r hp _ hn =>
    have hj := hs.joinInv hp
    refine searchInv_of_join hp (joinInv_queue hj s.rf _ fun e he hne => ?_)
    rcases List.mem_or_eq_of_mem_set he with he | rfl
    · exact hj.verdicts e he hne
    · rfl
  | retireFail r q hp hq =>
    have hj := hs.joinInv hp
    exact searchInv_of_join hp
      (joinInv_queue hj s.rf s.lanes fun e he => hj.verdicts e (by rw [hq]; exact List.mem_cons_of_mem _ he))
  | retirePass r q hp hq _ =>
    have hj := hs.joinInv hp
    exact searchInv_of_join hp
      (joinInv_queue hj _ s.lanes fun e he => hj.verdicts e (by rw [hq]; exact List.mem_cons_of_mem _ he))

end Sys2Proof.Machine

end

section
/-! PROOF. What a search owes the host (44_mitm_engine.md R180, R199): no turn of an agent loses, doubles or reorders a
result, under any schedule. -/

namespace Sys2Proof.Machine

open Sys2Proof.Config

/-! ### The list owed, phase by phase -/

theorem owed_of_idle {s : State} (hp : s.phase = .idle) : owed s = s.rf := by simp [owed, hp]

theorem owed_of_short {s : State} (hp : s.phase = .short) : owed s = s.rf := by simp [owed, hp]

/-- While the tables are being made, the whole list is owed, after what is in `RF`. -/
theorem owed_of_making {s : State} (hp : s.phase = .gen ∨ s.phase = .sort) :
    owed s = s.rf ++ searchResult s.params s.p1 s.c1 s.p2 s.c2 := by
  rcases hp with hp | hp <;> simp only [owed, hp]

/-- What is on its way through `VQ` and the join, in order. -/
def underway (s : State) : List KeyPair := s.vq.map QueueEntry.pair ++ joinRest s

theorem owed_of_join {s : State} (hp : s.phase = .join) :
    owed s = s.rf ++ (underway s).filter (verifies s.params.tables s.p2 s.c2) := by
  simp [owed, hp, underway]

/-- In phase JOIN the list owed stands when `RF`, the second pair and what is on its way do. -/
theorem owed_congr_join {s t : State} (hp : s.phase = .join) (hp' : t.phase = .join) (hn : t.params = s.params)
    (hp2 : t.p2 = s.p2) (hc2 : t.c2 = s.c2) (hrf : t.rf = s.rf) (hu : underway t = underway s) : owed t = owed s := by
  rw [owed_of_join hp, owed_of_join hp', hn, hp2, hc2, hrf, hu]

/-! ### The candidates the join has still to emit -/

theorem joinRest_of_jend {s : State} (h : s.jend = true) : joinRest s = [] := by simp [joinRest, h]

/-- Outside an emission: the join of the entries from the cursors on. -/
theorem joinRest_of_not_emitting {s : State} (h : s.jend = false) (he : emitting s = false) :
    joinRest s = join ((tableEntries s .fwd).drop s.i) ((tableEntries s .bwd).drop s.j) := by simp [joinRest, h, he]

/-- Inside an emission: the rest of the backward run with entry `A`, the forward entries after `A` with the whole
backward run, and the join of what lies past both runs. -/
theorem joinRest_of_emitting {s : State} (h : s.jend = false) (he : emitting s = true) (ha : s.a < s.ie)
    (hn : s.ie ≤ s.params.n) :
    joinRest s =
      crossProduct [memRead s .fwd s.a] (slice (tableEntries s .bwd) s.b s.je) ++
          crossProduct (slice (tableEntries s .fwd) (s.a + 1) s.ie) (slice (tableEntries s .bwd) s.j s.je) ++
        join ((tableEntries s .fwd).drop s.ie) ((tableEntries s .bwd).drop s.je) := by
  simp only [joinRest, h, he, Bool.false_eq_true, if_false, if_true]
  rw [slice_eq_cons (Nat.lt_succ_self s.a) (tableEntries_getElem? (ha.trans_le hn)), slice_of_le le_rfl]

/-- At the end of the join nothing is left to emit (R192). -/
theorem joinRest_joinEnd {s : State} (hr : joinAtEnd s = true) : joinRest { s with jend := true } = joinRest s := by
  obtain ⟨-, hjend, he, hend⟩ := joinAtEnd_iff.mp hr
  rw [joinRest_of_jend rfl, joinRest_of_not_emitting hjend he]
  rcases hend with h | h <;> simp [tableEntries_drop_of_le h]

/-- `ADVF` skips an entry that no backward entry from `J` on matches (R189). -/
theorem joinRest_advf {s : State} (hr : advfReady s = true) : joinRest { s with i := s.i + 1 } = joinRest s := by
  obtain ⟨hc, hlt⟩ := advfReady_iff.mp hr
  obtain ⟨-, hjend, he, hi, hj⟩ := comparing_iff.mp hc
  have he' : emitting { s with i := s.i + 1 } = false := by
    simp only [emitting, Bool.and_eq_false_iff, decide_eq_false_iff_not] at he ⊢
    omega
  rw [joinRest_of_not_emitting hjend he, tableEntries_drop hi, tableEntries_drop hj, join_cons_of_lt hlt,
    ← tableEntries_drop hj]
  exact joinRest_of_not_emitting (s := { s with i := s.i + 1 }) hjend he'

/-- `ADVB` skips an entry that no forward entry from `I` on matches (R190). -/
theorem joinRest_advb {s : State} (hr : advbReady s = true) : joinRest { s with j := s.j + 1 } = joinRest s := by
  obtain ⟨hc, hlt⟩ := advbReady_iff.mp hr
  obtain ⟨-, hjend, he, hi, hj⟩ := comparing_iff.mp hc
  have he' : emitting { s with j := s.j + 1 } = false := by
    simp only [emitting, Bool.and_eq_false_iff, decide_eq_false_iff_not] at he ⊢
    omega
  rw [joinRest_of_not_emitting hjend he, tableEntries_drop hi, tableEntries_drop hj, join_cons_of_gt hlt,
    ← tableEntries_drop hi]
  exact joinRest_of_not_emitting (s := { s with j := s.j + 1 }) hjend he'

/-- At two entries of one value, the join is the cross product of the two runs that stand there, taken apart at the
first forward entry, and the join of what lies past them (R191). -/
theorem join_drop_run {F B : List Entry} {i j ie je : Nat} {f b : Entry} (hf : F[i]? = some f) (hb : B[j]? = some b)
    (hv : entryValue f = entryValue b)
    (hie : ie = i + ((F.drop i).takeWhile fun e => entryValue e == entryValue f).length)
    (hje : je = j + ((B.drop j).takeWhile fun e => entryValue e == entryValue f).length) :
    join (F.drop i) (B.drop j) =
      crossProduct [f] (slice B j je) ++ crossProduct (slice F (i + 1) ie) (slice B j je) ++
        join (F.drop ie) (B.drop je) := by
  have hF : F.drop i = f :: F.drop (i + 1) := by
    obtain ⟨hi, rfl⟩ := List.getElem?_eq_some_iff.mp hf
    exact List.drop_eq_getElem_cons hi
  have hB : B.drop j = b :: B.drop (j + 1) := by
    obtain ⟨hj, rfl⟩ := List.getElem?_eq_some_iff.mp hb
    exact List.drop_eq_getElem_cons hj
  have hlt : i < ie := by simp [hie, hF]
  have hruns : crossProduct [f] (slice B j je) ++ crossProduct (slice F (i + 1) ie) (slice B j je) =
      crossProduct (slice F i ie) (slice B j je) := by rw [slice_eq_cons hlt hf, ← crossProduct_cons]
  rw [hruns, hie, hje, slice_run, slice_run, drop_run, drop_run, hF, hB]
  exact join_cons_of_eq hv _ _

/-- Beginning an emission takes the two runs out of the join as their cross product (R191). -/
theorem joinRest_emitBegin {s : State} (hcur : CursorInv s) (hr : emitxReady s = true) :
    joinRest (emitBegin s) = joinRest s := by
  obtain ⟨hcur', hin⟩ := cursorInv_emitBegin hcur hr
  obtain ⟨-, hjend, he | ⟨he, hi, hj, hv⟩⟩ := emitxReady_iff.mp hr
  · rw [emitBegin, if_pos he]
  · obtain ⟨-, haie, -, -⟩ := hcur'.inside hin
    rw [joinRest_of_emitting ((emitBegin_jend s).trans hjend) hin haie hcur'.ie_le,
      joinRest_of_not_emitting hjend he]
    simp only [emitBegin, he, Bool.false_eq_true, if_false]
    exact (join_drop_run (tableEntries_getElem? hi) (tableEntries_getElem? hj) hv
      (runEnd_memRead s .fwd (valueF s) hcur.i_le) (runEnd_memRead s .bwd (valueF s) hcur.j_le)).symm

/-- An emission takes the first of the pairs left to emit, and goes to the next one (R191, R193). -/
theorem joinRest_emitAdvance {s : State} (hcur : CursorInv s) (hjend : s.jend = false) (he : emitting s = true) :
    joinRest s = ⟨entryKey (memRead s .fwd s.a), entryKey (memRead s .bwd s.b)⟩ :: joinRest (emitAdvance s) := by
  obtain ⟨-, haie, hjb, hbje⟩ := hcur.inside he
  rw [joinRest_of_emitting hjend he haie hcur.ie_le,
    slice_eq_cons hbje (tableEntries_getElem? (hbje.trans_le hcur.je_le)), crossProduct_singleton_cons]
  unfold emitAdvance
  split_ifs with hb ha
  · rw [joinRest_of_emitting (s := { s with b := s.b + 1 }) hjend he haie hcur.ie_le]
    rfl
  · rw [joinRest_of_emitting (s := { s with a := s.a + 1, b := s.j }) hjend he ha hcur.ie_le,
      slice_of_le (Nat.le_of_not_lt hb), slice_eq_cons ha (tableEntries_getElem? (ha.trans_le hcur.ie_le)),
      crossProduct_cons (memRead s .fwd (s.a + 1))]
    rfl
  · rw [joinRest_of_not_emitting (s := { s with i := s.ie, j := s.je }) hjend (by simp [emitting]),
      slice_of_le (Nat.le_of_not_lt hb), slice_of_le (Nat.le_of_not_lt ha)]
    rfl

/-- One emission moves one candidate from the join into `VQ` (R191, R199). -/
theorem underway_emitPair {s : State} (hcur : CursorInv s) (hjend : s.jend = false) (he : emitting s = true) :
    underway (emitAdvance (emitPair s)) = underway s := by
  have hrest : joinRest s = ⟨entryKey (memRead s .fwd s.a), entryKey (memRead s .bwd s.b)⟩ ::
      joinRest (emitAdvance (emitPair s)) := joinRest_emitAdvance (s := emitPair s) (hcur.congr rfl) hjend he
  have hvq : (emitAdvance (emitPair s)).vq =
      s.vq ++ [⟨⟨entryKey (memRead s .fwd s.a), entryKey (memRead s .bwd s.b)⟩, .pending⟩] := by
    rw [emitAdvance_frame]
    rfl
  rw [underway, underway, hvq, hrest, List.map_append, List.append_assoc]
  rfl

theorem underway_emit {s : State} (hcur : CursorInv s) (hr : emitxReady s = true) :
    underway (emitAdvance (emitPair (emitBegin s))) = underway s := by
  obtain ⟨hcur', he⟩ := cursorInv_emitBegin hcur hr
  have hvq : (emitBegin s).vq = s.vq := by rw [emitBegin_frame]
  rw [underway_emitPair hcur' ((emitBegin_jend s).trans (emitxReady_iff.mp hr).2.1) he, underway, underway, hvq,
    joinRest_emitBegin hcur hr]

/-- Before the join begins, all the candidates of the two tables are to come (R188). -/
theorem underway_of_notBegun {s : State} (h : NotBegun s) :
    underway s = join (tableEntries s .fwd) (tableEntries s .bwd) := by
  rw [underway, h.vq_nil, joinRest_of_not_emitting h.jend_false (by simp [emitting, h.i_zero, h.ie_zero]), h.i_zero,
    h.j_zero]
  rfl

/-- A verdict does not move a candidate (R197). -/
theorem map_pair_set {q : List QueueEntry} {n : Nat} {r : KeyPair} {v : Verdict} (h : q[n]? = some ⟨r, v⟩)
    (v' : Verdict) : (q.set n ⟨r, v'⟩).map QueueEntry.pair = q.map QueueEntry.pair := by
  have hr : (q.map QueueEntry.pair)[n]? = some r := by simp [h]
  obtain ⟨hn, hr⟩ := List.getElem?_eq_some_iff.mp hr
  rw [List.map_set]
  simp only [← hr, List.set_getElem_self]

/-! ### The turns of the agents -/

theorem microNext_rf {s : State} {m : MicroStep} (hm : (microProgram s.op)[s.upc]? = some m) :
    (microNext s m).rf = s.rf := by
  unfold microNext
  rw [(runMicro_frame (List.mem_of_getElem? hm) { s with upc := s.upc + 1 }).1]

theorem verdictOf_eq_pass {s : State} {r : KeyPair} :
    verdictOf s r = .pass ↔ verifies s.params.tables s.p2 s.c2 r = true := by
  unfold verdictOf
  split <;> simp_all

theorem underway_head {s : State} {r : KeyPair} {v : Verdict} {q : List QueueEntry} (h : s.vq = ⟨r, v⟩ :: q) :
    underway s = r :: underway { s with vq := q } := by
  rw [underway, h]
  rfl

/-- No turn of an agent changes what is owed (R75, R199, R206). -/
theorem AgentStep.owed_eq {s t : State} (h : AgentStep s t) (hs : SearchInv s) : owed t = owed s := by
  cases h with
  | idle => rfl
  | micro m hp hm =>
    rw [owed_of_short hp]
    exact (owed_of_short ((microNext_frame hm).2.1.trans hp)).trans (microNext_rf hm)
  | shortComplete hp _ => rw [owed_of_short hp]; exact owed_of_idle rfl
  | gen w k hr =>
    obtain ⟨hp, -⟩ := genReady_iff.mp hr
    rw [owed_of_making (.inl hp)]
    exact owed_of_making (.inl hp)
  | toSort hp _ =>
    rw [owed_of_making (.inl hp)]
    exact owed_of_making (.inr rfl)
  | sort hp =>
    rw [owed_of_making (.inr hp)]
    exact owed_of_making (.inr hp)
  | toJoin hp hd =>
    have hsort := hs.sortInv hp
    obtain ⟨hF, hB⟩ := hsort.tableEntries_eq hd
    have ht : owed { s with phase := .join } =
        s.rf ++ (underway s).filter (verifies s.params.tables s.p2 s.c2) := owed_of_join rfl
    rw [owed_of_making (.inr hp), ht, underway_of_notBegun hsort.begun, hF, hB]
    rfl
  | joinEnd hr =>
    have hp := (joinAtEnd_iff.mp hr).1
    exact owed_congr_join hp hp rfl rfl rfl rfl (congrArg (_ ++ ·) (joinRest_joinEnd hr))
  | advf hr =>
    have hp := (comparing_iff.mp (advfReady_iff.mp hr).1).1
    exact owed_congr_join hp hp rfl rfl rfl rfl (congrArg (_ ++ ·) (joinRest_advf hr))
  | advb hr =>
    have hp := (comparing_iff.mp (advbReady_iff.mp hr).1).1
    exact owed_congr_join hp hp rfl rfl rfl rfl (congrArg (_ ++ ·) (joinRest_advb hr))
  | emitx hr _ =>
    have hp := (emitxReady_iff.mp hr).1
    have hu := underway_emit (hs.joinInv hp).cursors hr
    rw [emit_frame] at hu ⊢
    exact owed_congr_join hp hp rfl rfl rfl rfl hu
  | verify v n r hp _ hn =>
    exact owed_congr_join hp hp rfl rfl rfl rfl (congrArg (· ++ joinRest s) (map_pair_set hn _))
  | retireFail r q hp hq =>
    have hv := (hs.joinInv hp).verdicts _ (hq ▸ List.mem_cons_self) (by simp)
    have hf : verifies s.params.tables s.p2 s.c2 r = false := by
      rw [← Bool.not_eq_true, ← verdictOf_eq_pass, ← hv]
      simp
    have hnew : owed { s with vq := q } =
        s.rf ++ (underway { s with vq := q }).filter (verifies s.params.tables s.p2 s.c2) := owed_of_join hp
    rw [hnew, owed_of_join hp, underway_head hq, List.filter_cons_of_neg (by simp [hf])]
  | retirePass r q hp hq _ =>
    have hv := (hs.joinInv hp).verdicts _ (hq ▸ List.mem_cons_self) (by simp)
    have ht : verifies s.params.tables s.p2 s.c2 r = true := verdictOf_eq_pass.mp hv.symm
    have hnew : owed { s with vq := q, rf := s.rf ++ [r] } =
        s.rf ++ [r] ++ (underway { s with vq := q }).filter (verifies s.params.tables s.p2 s.c2) := owed_of_join hp
    rw [hnew, owed_of_join hp, underway_head hq, List.filter_cons_of_pos ht, List.append_assoc,
      List.singleton_append]
  | searchComplete hp he hv =>
    rw [owed_of_join hp, underway, hv, joinRest_of_jend he]
    exact (owed_of_idle rfl).trans (List.append_nil _).symm

/-! ### The accesses of the host -/

theorem joinRest_congr {s t : State} (h : JoinInv s) (e : searchFields t = searchFields s) :
    joinRest t = joinRest s := by
  obtain ⟨hF, hB⟩ := h.tableEntries_eq
  obtain ⟨hF', hB'⟩ := (h.congr e).tableEntries_eq
  simp only [searchFields, Prod.mk.injEq] at e
  obtain ⟨⟨hp, hp1, hc1, -, -⟩, -, ⟨hi, hj, hie, hje, ha, hb⟩, hjend, -⟩ := e
  simp only [joinRest, emitting, hF, hB, hF', hB', hp, hp1, hc1, hi, hj, hie, hje, ha, hb, hjend]

/-- What is owed is what is in `RF`, and then a list that the fields of the search determine. -/
theorem owed_split {s t : State} (hs : SearchInv s) (e : searchFields t = searchFields s) :
    ∃ l, owed s = s.rf ++ l ∧ owed t = t.rf ++ l := by
  have e' := e
  simp only [searchFields, Prod.mk.injEq] at e'
  obtain ⟨⟨hn, hp1, hc1, hp2, hc2⟩, ⟨hph, -⟩, -, -, hvq⟩ := e'
  have making : s.phase = .gen ∨ s.phase = .sort → ∃ l, owed s = s.rf ++ l ∧ owed t = t.rf ++ l := fun hp =>
    ⟨_, owed_of_making hp, by rw [owed_of_making (hph ▸ hp), hn, hp1, hc1, hp2, hc2]⟩
  cases hp : s.phase with
  | idle => exact ⟨[], by rw [owed_of_idle hp, List.append_nil], by rw [owed_of_idle (hph.trans hp), List.append_nil]⟩
  | short =>
    exact ⟨[], by rw [owed_of_short hp, List.append_nil], by rw [owed_of_short (hph.trans hp), List.append_nil]⟩
  | gen => exact making (.inl hp)
  | sort => exact making (.inr hp)
  | join =>
    refine ⟨_, owed_of_join hp, ?_⟩
    rw [owed_of_join (hph.trans hp), underway, underway, hn, hp2, hc2, hvq, joinRest_congr (hs.joinInv hp) e]

/-- What is owed stands when the fields of the search and `RF` do. -/
theorem owed_congr {s t : State} (hs : SearchInv s) (e : searchFields t = searchFields s) (hrf : t.rf = s.rf) :
    owed t = owed s := by
  obtain ⟨l, hl, hl'⟩ := owed_split hs e
  rw [hl, hl', hrf]

/-- A pop takes the first of the pairs owed (R224). -/
theorem owed_pop {s : State} (hs : SearchInv s) {r : KeyPair} {q : List KeyPair} (hrf : s.rf = r :: q)
    (g : List Event) : owed s = r :: owed { s with rf := s.rf.tail, agenda := g } := by
  obtain ⟨l, hl, hl'⟩ := owed_split hs (t := { s with rf := s.rf.tail, agenda := g }) rfl
  rw [hl, hl', hrf]
  rfl

/-- Acceptance of `MITM` starts the list of the four operands (R180, R181). -/
theorem owed_accept_mitm (s : State) : owed (accept .mitm s) = searchResult s.params s.p1 s.c1 s.p2 s.c2 :=
  owed_of_making (.inl rfl)

end Sys2Proof.Machine

end

section
/-! PROOF. The runs of the host's scripts (30_encoding.md R101, R102; 43_cascade.md R178; 45_host_interface.md R228):
what the core keeps between the accesses of a script, and what `DRAIN`, the call of R228 and the composite of R102
return. -/

namespace Sys2Proof.Machine

open Sys2Proof.Config

/-! ### Between two accesses -/

/-- A scheduled agent makes its move. -/
theorem agentStep_of_step {g : Agent} {s t : State} (h : step { s with agenda := [.agent g] } = .next t) :
    AgentStep { s with agenda := [] } t := by
  obtain ⟨u, hu, hs⟩ := agentStep_turn g { s with agenda := [] }
  obtain rfl : u = t := Host.Outcome.next.inj (hu.symm.trans h)
  exact hs

/-- What the agenda does not touch and an agent's move keeps, turns keep. -/
theorem Turns.keeps {P : State → Prop} (hagenda : ∀ s l, P s → P { s with agenda := l })
    (hagent : ∀ s t, P s → AgentStep s t → P t) {s t : State} (h : Turns s t) (hs : P s) : P t := by
  induction h with
  | none => exact hs
  | more g _ hu ih => exact hagent _ _ (hagenda _ [] ih) (agentStep_of_step hu)

/-- Turns only add to `RF`, at the back (R199). -/
theorem Turns.rf_append {s t : State} (h : Turns s t) : ∃ q, t.rf = s.rf ++ q :=
  h.keeps (P := fun u => ∃ q, u.rf = s.rf ++ q) (fun _ _ hu => hu)
    (fun _ _ ⟨q, hq⟩ hg => by
      obtain ⟨q', hq'⟩ := hg.rf_append
      exact ⟨q ++ q', by rw [hq', hq, List.append_assoc]⟩)
    ⟨[], (List.append_nil _).symm⟩

/-- An idle core makes no move (R248). -/
theorem AgentStep.of_idle {s t : State} (h : AgentStep s t) (hp : s.phase = .idle) : t = s := by
  cases h with
  | idle => rfl
  | gen w k hr => simp [genReady_iff, hp] at hr
  | joinEnd hr => simp [joinAtEnd_iff, hp] at hr
  | advf hr => simp [advfReady_iff, comparing_iff, hp] at hr
  | advb hr => simp [advbReady_iff, comparing_iff, hp] at hr
  | emitx hr _ => simp [emitxReady_iff, hp] at hr
  | micro _ hq | shortComplete hq | toSort hq | sort hq | toJoin hq | verify _ _ _ hq | retireFail _ _ hq
  | retirePass _ _ hq | searchComplete hq => cases hp.symm.trans hq

/-- Turns leave an idle core as it is. -/
theorem Turns.of_idle {s t : State} (h : Turns s t) (hp : s.phase = .idle) :
    { t with agenda := [] } = { s with agenda := [] } := by
  induction h with
  | none => rfl
  | @more g t u _ hu ih =>
    have hpt : t.phase = .idle := (congrArg State.phase ih).trans hp
    rw [(agentStep_of_step hu).of_idle hpt]
    exact ih

/-- An access to an idle core sees it as it was before the turns. -/
theorem issue_of_idle {s m : State} (h : Turns s m) (hp : s.phase = .idle) (w : Txn) : issue w m = issue w s := by
  rw [issue_eq_exec, issue_eq_exec, h.of_idle hp]

/-! ### Reads -/

@[simp] theorem low24_zext32 (b : Block) : low24 (zext32 b) = b := by simp [low24, zext32]

theorem low24_eq (d : HostWord) : low24 d = d.extractLsb' 0 24 := by
  refine BitVec.eq_of_getLsbD_eq fun i hi => ?_
  simp [low24, hi]

/-- `RESK1` and `RESK2` read the pair at the head of `RF`, busy or not (R220). -/
theorem hostRead_result {s : State} {r : KeyPair} (h : s.rf.head? = some r) :
    hostRead s (RegName.index .resk1) = zext32 r.key1 ∧ hostRead s (RegName.index .resk2) = zext32 r.key2 := by
  obtain ⟨q, hq⟩ := List.head?_eq_some_iff.mp h
  simp [hostRead, drawsFree, isResultIndex, RegName.index, storedWord, hq]

/-- `DOUT` of a core that runs no command (R220). -/
theorem hostRead_dout {s : State} (h : s.busy = false) : hostRead s (RegName.index .dout) = zext32 s.dout := by
  simp [hostRead, drawsFree, h, RegName.index, storedWord]

/-- A read leaves `RF` alone, and its word is on the bus (R65, R220). -/
theorem of_issue_readTxn {s t : State} {r : RegName} (h : issue (readTxn r) s = .next t) :
    t.rf = s.rf ∧ t.rdata = hostRead s r.index := by
  obtain rfl := Host.Outcome.next.inj ((issue_readTxn r s).symm.trans h)
  exact ⟨rfl, rfl⟩

/-- A read of `STATUS` changes no flag, so the word read is still the `STATUS` word. -/
theorem rdata_of_readStatus {s t : State} (h : issue (readTxn .status) s = .next t) : t.rdata = statusWord t := by
  obtain rfl := Host.Outcome.next.inj ((issue_readTxn .status s).symm.trans h)
  exact hostRead_status s

/-- A poll of `STATUS` that stops leaves the core with the word that stopped it, and with what turns and reads of
`STATUS` keep. -/
theorem runs_poll {P : State → Prop} (hturns : ∀ s t, P s → Turns s t → P t)
    (hread : ∀ s t, P s → issue (readTxn .status) s = .next t → P t) {stop : HostWord → Bool} {n : Nat} {s t : State}
    {w : HostWord} (hs : P s) (h : Runs (pollStatus stop n) s w t) :
    P t ∧ w = statusWord t ∧ stop (statusWord t) = true := by
  obtain ⟨r, m, hr, hm, ht, rfl, hstop⟩ :=
    runs_pollStatus (fun a b c ha hb hc => hread b c (hturns a b ha hb) hc) hs h
  have hw := rdata_of_readStatus ht
  exact ⟨hread m t (hturns r m hr hm) ht, hw, hw ▸ hstop⟩

/-! ### The list a search owes, and `DRAIN` (R102, R200) -/

/-- The invariants hold, and the pairs of `l` are owed. -/
structure Owes (l : List KeyPair) (s : State) : Prop where
  status : StatusInv s
  search : SearchInv s
  owed_eq : owed s = l

theorem Owes.congr {l : List KeyPair} {s t : State} (h : Owes l s) (hst : statusFields t = statusFields s)
    (hse : searchFields t = searchFields s) (hrf : t.rf = s.rf) : Owes l t :=
  ⟨h.status.congr hst, h.search.congr hse fun hs => hrf.trans hs, (owed_congr h.search hse hrf).trans h.owed_eq⟩

theorem Owes.turns {l : List KeyPair} {s t : State} (h : Owes l s) (ht : Turns s t) : Owes l t :=
  ht.keeps (fun _ _ hu => hu.congr rfl rfl rfl)
    (fun _ _ hu hg => ⟨hu.status.of_agentStep hg, hu.search.of_agentStep hg, (hg.owed_eq hu.search).trans hu.owed_eq⟩) h

theorem Owes.read {l : List KeyPair} {s t : State} (h : Owes l s) {r : RegName} (ht : issue (readTxn r) s = .next t) :
    Owes l t := by
  obtain rfl := Host.Outcome.next.inj ((issue_readTxn r s).symm.trans ht)
  exact h.congr rfl rfl rfl

/-- `k1 = RD RESK1; k2 = RD RESK2; POP` returns the first pair owed, whatever the core does between the accesses: the
head of `RF` stays (R199). -/
theorem runs_takePair {l : List KeyPair} {s t : State} {x : Option KeyPair} (h : Owes l s) (hv : rvalid s = true)
    (hr : Runs takePair s x t) : ∃ r q, x = some r ∧ l = r :: q ∧ Owes q t := by
  obtain ⟨m, u, hm, hu, m', u', hm', hu', m'', u'', hm'', hu'', rfl, rfl⟩ := hr
  obtain ⟨r, hhead⟩ : ∃ r, s.rf.head? = some r := by
    rcases hs : s.rf with _ | ⟨r, q⟩
    · simp [rvalid, hs] at hv
    · exact ⟨r, rfl⟩
  have turn : ∀ {a b : State}, a.rf.head? = some r → Turns a b → b.rf.head? = some r := fun ha hab => by
    obtain ⟨q, hq⟩ := hab.rf_append
    simp [hq, ha]
  obtain ⟨hrf, hword⟩ := of_issue_readTxn hu
  obtain ⟨hrf', hword'⟩ := of_issue_readTxn hu'
  have hm1 := turn hhead hm
  have hm2 := turn (hrf ▸ hm1) hm'
  have hm3 := turn (hrf' ▸ hm2) hm''
  have howes := ((((h.turns hm).read hu).turns hm').read hu').turns hm''
  obtain ⟨q, hq⟩ := List.head?_eq_some_iff.mp hm3
  obtain rfl := Host.Outcome.next.inj ((issue_pop m'').symm.trans hu'')
  refine ⟨r, _, ?_, howes.owed_eq.symm.trans (owed_pop howes.search hq []), ?_⟩
  · rw [hword, hword', (hostRead_result hm1).1, (hostRead_result hm2).2, low24_zext32, low24_zext32]
  · have hpop := howes.congr (t := { m'' with agenda := [] }) rfl rfl rfl
    exact ⟨hpop.status.of_hostStep .popped, SearchInv.of_hostStep hpop.status hpop.search .popped, rfl⟩

/-- `NEXT` returns the first pair owed, or ends where nothing is owed. -/
theorem runs_nextPair {l : List KeyPair} {n : Nat} {s t : State} {x : Option KeyPair} (h : Owes l s)
    (hr : Runs (nextPair n) s x t) : (x = none ∧ l = [] ∧ Owes [] t) ∨ ∃ r q, x = some r ∧ l = r :: q ∧ Owes q t := by
  obtain ⟨w, m, hpoll, hr⟩ := (runs_bind _ _ _ _ _).mp hr
  obtain ⟨hm, rfl, hstop⟩ := runs_poll (fun _ _ => Owes.turns) (fun _ _ hs => hs.read) h hpoll
  simp only [rvalidBit_statusWord, doneBit_statusWord] at hr hstop
  by_cases hv : rvalid m = true
  · rw [if_pos hv] at hr
    exact .inr (runs_takePair hm hv hr)
  · rw [if_neg hv] at hr
    have hdone : m.done = true := by simpa [hv] using hstop
    have hready : m.busy = false := by simpa [hdone] using hm.status.not_both
    have hrf : m.rf = [] := by simpa [rvalid] using hv
    obtain rfl : l = [] := by rw [← hm.owed_eq, owed_of_idle (hm.status.idle_of_ready hready), hrf]
    obtain ⟨m', u, hm', hu, hr⟩ := hr
    have howes := (hm.turns hm').read hu
    simp only [rdata_of_readStatus hu, rvalidBit_statusWord] at hr
    split at hr
    · exact .inr (runs_takePair howes ‹_› hr)
    · obtain ⟨rfl, rfl⟩ := hr
      exact .inl ⟨rfl, rfl, howes⟩

/-- `DRAIN` returns the pairs owed, in order, and leaves none. -/
theorem runs_drain {n m : Nat} {l out : List KeyPair} {s t : State} (h : Owes l s) (hr : Runs (drain n m) s out t) :
    out = l ∧ Owes [] t := by
  induction m generalizing l out s with
  | zero => exact hr.elim
  | succ m ih =>
    obtain ⟨x, u, hx, hr⟩ := (runs_bind _ _ _ _ _).mp hr
    rcases runs_nextPair h hx with ⟨rfl, rfl, hu⟩ | ⟨r, q, rfl, rfl, hu⟩
    · obtain ⟨rfl, rfl⟩ := hr
      exact ⟨rfl, hu⟩
    · obtain ⟨rs, v, hrs, rfl, rfl⟩ := (runs_bind _ _ _ _ _).mp hr
      obtain ⟨rfl, hv⟩ := ih hu hrs
      exact ⟨rfl, hv⟩

/-! ### Writes to a core that runs no command (R221, R222) -/

/-- No command runs (R27). -/
structure Ready (s : State) : Prop where
  idle : s.phase = .idle
  busy : s.busy = false

theorem StatusInv.ready {s : State} (h : StatusInv s) (hb : s.busy = false) : Ready s := ⟨h.idle_of_ready hb, hb⟩

theorem Ready.setOperand {s : State} (h : Ready s) (r : OperandReg) (x : Block) :
    Ready (setOperand r x { s with agenda := [] }) :=
  ⟨(setOperand_phase _ _ _).trans h.idle, (setOperand_busy _ _ _).trans h.busy⟩

theorem runs_wr {α : Type} {s t : State} {r : OperandReg} {v : HostWord} {k : Script α} {a : α} (h : Ready s)
    (hr : Runs (.write (.wr r v) k) s a t) : Runs k (setOperand r (low24 v) { s with agenda := [] }) a t := by
  obtain ⟨m, u, hm, hu, hr⟩ := hr
  rw [issue_of_idle hm h.idle, issue_wr, writeOperand_of_ready (s := { s with agenda := [] }) h.busy] at hu
  cases hu
  exact hr

theorem runs_cmd {α : Type} {s t : State} {o : Op} {k : Script α} {a : α} (h : Ready s)
    (hr : Runs (.write (.cmd o) k) s a t) : Runs k (accept o { s with agenda := [] }) a t := by
  obtain ⟨m, u, hm, hu, hr⟩ := hr
  rw [issue_of_idle hm h.idle, issue_cmd, command_of_ready (s := { s with agenda := [] }) h.busy] at hu
  cases hu
  exact hr

/-- The call of R228 returns the result list of its operands' low 24 bits. -/
theorem runs_attack {n m : Nat} {x1 y1 x2 y2 : HostWord} {s t : State} {out : List KeyPair} (h : Ready s)
    (hr : Runs (attack n m x1 y1 x2 y2) s out t) :
    out = searchResult s.params (low24 x1) (low24 y1) (low24 x2) (low24 y2) := by
  have h1 := h.setOperand .p1 (low24 x1)
  have h2 := h1.setOperand .c1 (low24 y1)
  have h3 := h2.setOperand .p2 (low24 x2)
  have h4 := h3.setOperand .c2 (low24 y2)
  have hr := runs_cmd h4 (runs_wr h3 (runs_wr h2 (runs_wr h1 (runs_wr h hr))))
  exact (runs_drain ⟨statusInv_accept _ _, searchInv_accept _ _, owed_accept_mitm _⟩ hr).1

/-! ### Short commands in a script (R145, R160, R178) -/

/-- A short command with parameters `p` runs and is heading for `R`, or it has completed with `R` in `RK` and `DOUT`. -/
structure HeadingFor (p : Params) (R : Schedule × Block) (s : State) : Prop where
  status : StatusInv s
  params : s.params = p
  result : (s.phase = .short ∧ shortResult s = R) ∨ (s.phase = .idle ∧ (s.rk, s.dout) = R)

theorem HeadingFor.congr {p : Params} {R : Schedule × Block} {s t : State} (h : HeadingFor p R s)
    (hst : statusFields t = statusFields s) (hu : t.upc = s.upc) (hd : datapathPart t = datapathPart s) :
    HeadingFor p R t := by
  obtain ⟨hph, ho⟩ : t.phase = s.phase ∧ t.op = s.op := by
    simp only [statusFields, Prod.mk.injEq] at hst
    obtain ⟨-, -, -, -, hph, ho⟩ := hst
    exact ⟨hph, ho⟩
  have hn : t.params = s.params := congrArg (fun u => u.params) hd
  have hout : (t.rk, t.dout) = (s.rk, s.dout) := congrArg (fun u => (u.rk, u.dout)) hd
  refine ⟨h.status.congr hst, hn.trans h.params, ?_⟩
  rw [hph, hout, shortResult_congr ho hu hd]
  exact h.result

theorem HeadingFor.of_agentStep {p : Params} {R : Schedule × Block} {s t : State} (h : HeadingFor p R s)
    (hg : AgentStep s t) : HeadingFor p R t := by
  refine ⟨h.status.of_agentStep hg, hg.params_eq.trans h.params, ?_⟩
  rcases h.result with ⟨hp, hr⟩ | ⟨hp, hr⟩
  · rcases hg.keeps_or_delivers hp with ⟨hp', hr'⟩ | ⟨hp', -, -, hr'⟩
    · exact .inl ⟨hp', hr'.trans hr⟩
    · exact .inr ⟨hp', hr'.trans hr⟩
  · rw [hg.of_idle hp]
    exact .inr ⟨hp, hr⟩

theorem HeadingFor.turns {p : Params} {R : Schedule × Block} {s t : State} (h : HeadingFor p R s) (ht : Turns s t) :
    HeadingFor p R t :=
  ht.keeps (fun _ _ hu => hu.congr rfl rfl rfl) (fun _ _ hu hg => hu.of_agentStep hg) h

theorem HeadingFor.read {p : Params} {R : Schedule × Block} {s t : State} (h : HeadingFor p R s) {r : RegName}
    (ht : issue (readTxn r) s = .next t) : HeadingFor p R t := by
  obtain rfl := Host.Outcome.next.inj ((issue_readTxn r s).symm.trans ht)
  exact h.congr rfl rfl rfl

/-- `WAIT` ends when the command has completed. -/
theorem HeadingFor.of_runs_waitDone {p : Params} {R : Schedule × Block} {n : Nat} {s t : State} {w : HostWord}
    (h : HeadingFor p R s) (hr : Runs (waitDone n) s w t) :
    Ready t ∧ t.params = p ∧ (t.rk, t.dout) = R := by
  obtain ⟨ht, -, hdone⟩ := runs_poll (fun _ _ => HeadingFor.turns) (fun _ _ hs => hs.read) h hr
  rw [doneBit_statusWord] at hdone
  have hready : Ready t := ht.status.ready (by simpa [hdone] using ht.status.not_both)
  refine ⟨hready, ht.params, ?_⟩
  rcases ht.result with ⟨hp, -⟩ | ⟨-, hr⟩
  · cases hp.symm.trans hready.idle
  · exact hr

/-- A short command, accepted and waited for, leaves in `RK` and `DOUT` what its function gives. -/
theorem runs_waitDone_accept {n : Nat} {o : Op} (ho : o ≠ .mitm) {s t : State} {w : HostWord} (h : Ready s)
    (hr : Runs (waitDone n) (accept o { s with agenda := [] }) w t) :
    Ready t ∧ t.params = s.params ∧ (t.rk, t.dout) = shortEffect o s := by
  obtain ⟨hp, hres⟩ := aShortCommandIsHeadingForItsFunction { s with agenda := [] } o ho h.busy
  rw [command_of_ready (s := { s with agenda := [] }) h.busy] at hp hres
  have hn : (accept o { s with agenda := [] }).params = s.params := by rw [accept_short ho]; rfl
  exact HeadingFor.of_runs_waitDone ⟨statusInv_accept _ _, hn, .inl ⟨hp, hres⟩⟩ hr

/-- `LOADSCHED` leaves the schedule of its key in `RK` (R102, R145). -/
theorem runs_loadSched {n : Nat} {k w : HostWord} {s t : State} (h : Ready s) (hr : Runs (loadSched n k) s w t) :
    Ready t ∧ t.params = s.params ∧ t.rk = keySchedule s.params.tables (low24 k) := by
  obtain ⟨ht, hn, hres⟩ :=
    runs_waitDone_accept (by decide) (h.setOperand .k1 (low24 k)) (runs_cmd (h.setOperand .k1 _) (runs_wr h hr))
  exact ⟨ht, hn, congrArg Prod.fst hres⟩

/-- `WR DIN; CMD ENC; WAIT; RD DOUT` returns the encryption of its block under `RK` (R102, R160). -/
theorem runs_encryptBlock {n : Nat} {x w : HostWord} {s t : State} (h : Ready s) (hr : Runs (encryptBlock n x) s w t) :
    Ready t ∧ t.params = s.params ∧ w = zext32 (encrypt s.params.tables s.rk (low24 x)) := by
  obtain ⟨_, u, hwait, m, v, hm, hv, rfl, rfl⟩ :=
    (runs_bind _ _ _ _ _).mp (runs_cmd (h.setOperand .din _) (runs_wr h hr))
  obtain ⟨hu, hn, hres⟩ := runs_waitDone_accept (by decide) (h.setOperand .din _) hwait
  rw [issue_of_idle hm hu.idle, issue_readTxn, hostRead_dout hu.busy] at hv
  cases hv
  exact ⟨⟨hu.idle, hu.busy⟩, hn, congrArg (fun r => zext32 r.2) hres⟩

/-- The composite of R102 returns the cascade (R178). -/
theorem runs_cascadeByParts {n : Nat} {k1 k2 p word : HostWord} {s t : State} (h : Ready s)
    (hr : Runs (cascadeByParts n k1 k2 p) s word t) :
    word = zext32 (doubleEncrypt s.params.tables (low24 k1) (low24 k2) (low24 p)) := by
  obtain ⟨_, a, ha, hr⟩ := (runs_bind _ _ _ _ _).mp hr
  obtain ⟨y, b, hb, hr⟩ := (runs_bind _ _ _ _ _).mp hr
  obtain ⟨_, c, hc, hr⟩ := (runs_bind _ _ _ _ _).mp hr
  obtain ⟨hra, hna, hka⟩ := runs_loadSched h ha
  obtain ⟨hrb, hnb, rfl⟩ := runs_encryptBlock hra hb
  obtain ⟨hrc, hnc, hkc⟩ := runs_loadSched hrb hc
  obtain ⟨-, -, rfl⟩ := runs_encryptBlock hrc hr
  rw [low24_zext32, hkc, hnc, hnb, hka, hna, doubleEncrypt]

/-! ### The end of the list (R200) -/

/-- A host access adds nothing to `RF`, and sets no `DONE`. -/
theorem HostStep.rf_drop {s t : State} (h : HostStep s t) :
    (∃ n, t.rf = s.rf.drop n) ∧ (t.done = true → s.done = true) := by
  cases h with
  | store r x _ => exact ⟨⟨0, setOperand_rf r x s⟩, fun hd => (setOperand_done r x s).symm.trans hd⟩
  | accepted o _ =>
    by_cases ho : o = .mitm
    · subst ho
      exact ⟨⟨s.rf.length, List.drop_length.symm⟩, nofun⟩
    · rw [accept_short ho]
      exact ⟨⟨0, rfl⟩, nofun⟩
  | popped => exact ⟨⟨1, List.drop_one.symm⟩, id⟩
  | read | refused => exact ⟨⟨0, rfl⟩, id⟩

/-- Only a turn that leaves `DONE` alone, in phase JOIN, adds to `RF` (R198, R200). -/
theorem AgentStep.rf_eq_or {s t : State} (h : AgentStep s t) : t.rf = s.rf ∨ (s.phase = .join ∧ t.done = s.done) := by
  cases h with
  | micro m _ hm => exact .inl (microNext_rf hm)
  | emitx => rw [emit_frame]; exact .inl rfl
  | retirePass r q hp => exact .inr ⟨hp, rfl⟩
  | _ => exact .inl rfl

/-- The last push and the setting of `DONE` are two events, and nothing is pushed after `DONE`. -/
def EndsList (s t : State) : Prop :=
  (s.done = false → t.done = true → t.rf = s.rf) ∧ (s.done = true → ∃ n, t.rf = s.rf.drop n)

theorem HostStep.endsList {s t : State} (h : HostStep s t) : EndsList s t :=
  ⟨fun hs ht => absurd (hs.symm.trans (h.rf_drop.2 ht)) (by decide), fun _ => h.rf_drop.1⟩

theorem AgentStep.endsList {s t : State} (h : AgentStep s t) (hs : StatusInv s) : EndsList s t := by
  rcases h.rf_eq_or with hrf | ⟨hp, hd⟩
  · exact ⟨fun _ _ => hrf, fun _ => ⟨0, hrf⟩⟩
  · have hb : s.busy = true := hs.busy_iff.mpr (by simp [hp])
    exact ⟨fun h0 h1 => absurd (h0.symm.trans (hd.symm.trans h1)) (by decide),
      fun h1 => absurd ⟨hb, h1⟩ hs.not_both⟩

theorem step_endsList {s t : State} (hs : StatusInv s) (h : step s = .next t) : EndsList s t := by
  rcases step_cases h with ⟨w, rest, -, -, hw⟩ | ⟨rest, -, rfl⟩ | ⟨g, rest, -, hg⟩ | ⟨-, hg⟩
  · exact hw.endsList
  · exact ⟨fun _ => nofun, fun _ => ⟨s.rf.length, List.drop_length.symm⟩⟩
  · exact hg.endsList (hs.congr rfl)
  · exact hg.endsList hs

end Sys2Proof.Machine

open Sys2Proof Sys2Proof.Machine

/-- Settles O60, clause by clause: the cases of a step; `DRAIN`, by induction on its rounds, from what no turn of an agent
changes of the list owed; the call of R228 as an accepted `MITM` and `DRAIN`; the composite by its four commands. -/
theorem theScriptsReturnWhatTheyStandFor : Obligations.TheScriptsReturnWhatTheyStandFor := by
  refine ⟨fun s t => step_endsList, fun s t n m out _ hst hse hr => ?_, fun s t n m x1 y1 x2 y2 out _ hst hb hr => ?_,
    fun s t n k1 k2 p word hst hb hr => ?_⟩
  · obtain ⟨hout, ht⟩ := runs_drain ⟨hst, hse, rfl⟩ hr
    exact ⟨hout, ht.owed_eq⟩
  · simpa only [low24_eq] using runs_attack (hst.ready hb) hr
  · simpa only [low24_eq, zext32] using runs_cascadeByParts (hst.ready hb) hr

end

section
/-! PROOF. The layers and rounds of the cipher (40_layers.md R124 to R129; 42_block_cipher.md R155, R157): what they do
to each nibble and each bit, that they undo each other, and that a datapath's cipher state is all they change. -/

namespace Sys2Proof.Machine

open Sys2Proof.Config

/-! ### Nibble by nibble (R125, R126) -/

@[simp] theorem nibble_sLayer (T : Tables) (s : Block) (j : Fin 6) : nibble (sLayer T s) j = sbox T (nibble s j) :=
  nibble_ofNibbles _ j

@[simp] theorem nibble_invSLayer (T : Tables) (s : Block) (j : Fin 6) :
    nibble (invSLayer T s) j = invSbox T (nibble s j) :=
  nibble_ofNibbles _ j

theorem invSLayer_sLayer {T : Tables} (h : T.Ok) (s : Block) : invSLayer T (sLayer T s) = s :=
  eq_of_nibble fun j => by rw [nibble_invSLayer, nibble_sLayer, invSbox_sbox h]

theorem sLayer_invSLayer {T : Tables} (h : T.Ok) (s : Block) : sLayer T (invSLayer T s) = s :=
  eq_of_nibble fun j => by rw [nibble_sLayer, nibble_invSLayer, sbox_invSbox h]

/-! ### Bit by bit (R127, R128) -/

theorem getLsbD_pLayer {T : Tables} (h : T.Ok) (s : Block) (i : Fin 24) :
    (pLayer T s).getLsbD T.perm[i].val = s.getLsbD i.val :=
  getLsbD_scatter (perm_injective h) s i

/-- The loop of R128 writes along `INVPERM`; read at bit `i`, it took bit `PERM[i]`. -/
theorem getLsbD_invPLayer {T : Tables} (h : T.Ok) (s : Block) (i : Fin 24) :
    (invPLayer T s).getLsbD i.val = s.getLsbD T.perm[i].val := by
  have hbit := getLsbD_scatter (invperm_injective h) s T.perm[i]
  rwa [h.invperm_perm i] at hbit

theorem invPLayer_pLayer {T : Tables} (h : T.Ok) (s : Block) : invPLayer T (pLayer T s) = s := by
  refine BitVec.eq_of_getLsbD_eq fun i hi => ?_
  rw [getLsbD_invPLayer h _ ⟨i, hi⟩, getLsbD_pLayer h]

/-- Every bit is `PERM[j]` for one `j` (R21), so it is enough to look at those. -/
theorem pLayer_invPLayer {T : Tables} (h : T.Ok) (s : Block) : pLayer T (invPLayer T s) = s := by
  refine BitVec.eq_of_getLsbD_eq fun i hi => ?_
  have hbit := getLsbD_pLayer h (invPLayer T s) T.invperm[(⟨i, hi⟩ : Fin 24)]
  rwa [getLsbD_invPLayer h, perm_invperm h] at hbit

/-- Bit 23 is a fixed point of `PERM` (R21), read at an index of type `Fin 24` as the bit lemmas do. -/
theorem perm_top_fin {T : Tables} (h : T.Ok) : T.perm[(23 : Fin 24)] = 23 := h.perm_top

theorem getLsbD_pLayer_top {T : Tables} (h : T.Ok) (s : Block) : (pLayer T s).getLsbD 23 = s.getLsbD 23 := by
  have hbit := getLsbD_pLayer h s 23
  rwa [perm_top_fin h] at hbit

theorem getLsbD_invPLayer_top {T : Tables} (h : T.Ok) (s : Block) : (invPLayer T s).getLsbD 23 = s.getLsbD 23 := by
  have hbit := getLsbD_invPLayer h s 23
  rwa [perm_top_fin h] at hbit

/-! ### On the registers of a datapath (log 12) -/

/-- A micro-operation that is one write of a datapath's cipher state completes, and that write is all it does. -/
theorem completes_of_eq_setCipherState {r : Result} {p : Datapath} {b : Block} {s : State}
    (h : r = .next (setCipherState p b s)) :
    ∃ t, r = .next t ∧ OnlyRegs p s t ∧ cipherRegs t p = { cipherRegs s p with st := b } :=
  ⟨_, h, onlyRegs_setCipherRegs p _ s, cipherRegs_setCipherState p b s⟩

end Sys2Proof.Machine

open Sys2Proof Sys2Proof.Machine

/-- Settles O13, from the layers nibble by nibble and bit by bit, and the tables being mutual inverses (R20, R21). -/
theorem theLayersUndoEachOther : Obligations.TheLayersUndoEachOther := fun _ s h =>
  ⟨invSLayer_sLayer h s, sLayer_invSLayer h s, invPLayer_pLayer h s, pLayer_invPLayer h s, getLsbD_pLayer_top h s,
    getLsbD_invPLayer_top h s⟩

/-- Settles O14, from what each layer does to a nibble and to a bit. -/
theorem layersWorkNibbleByNibbleAndBitByBit : Obligations.LayersWorkNibbleByNibbleAndBitByBit := fun T s h =>
  ⟨fun j => ⟨nibble_sLayer T s j, nibble_invSLayer T s j⟩,
    fun n => ⟨getLsbD_pLayer h s n, getLsbD_invPLayer h s n⟩⟩

/-- Settles O42: each of the seven forms is one write of the cipher state of its datapath. -/
theorem layersAndRoundsTransformTheCipherState : Obligations.LayersAndRoundsTransformTheCipherState := fun _ _ _ =>
  ⟨completes_of_eq_setCipherState rfl, completes_of_eq_setCipherState rfl, completes_of_eq_setCipherState rfl,
    completes_of_eq_setCipherState rfl, completes_of_eq_setCipherState rfl, completes_of_eq_setCipherState rfl,
    completes_of_eq_setCipherState rfl⟩

end

section
/-! PROOF. The key schedule (41_key_schedule.md R140 to R148): its operations as shifts and masks, the bits of the master key
after the first three updates, and the round keys they give. -/

namespace Sys2Proof.Machine

open Sys2Proof.Config

/-! ### The key register as shifts and masks (R140 to R142, R147) -/

/-- `KSLOAD` as a shift of the widened key (R140). -/
theorem ksLoad_eq_shiftLeft (k : Block) : ksLoad k = k.setWidth 80 <<< 56 := by
  refine BitVec.eq_of_getLsbD_eq fun n hn => ?_
  rw [getLsbD_ksLoad]
  by_cases h : 56 ≤ n
  · simp [h, hn, show ¬ n < 56 by omega]
  · simp [h, show n < 56 by omega]

/-- `RKX` as a shift and a mask (R142). -/
theorem rkx_eq_shiftRight (r : KeyReg) : rkx r = (r >>> 16).setWidth 24 := by
  refine BitVec.eq_of_getLsbD_eq fun n hn => ?_
  rw [getLsbD_rkx r n hn]
  simp [hn]

/-- The substitution of `KSUPDATE` on its top nibble: the nibble moved to bits 79..76 beside the 76 bits kept (R141). -/
theorem subTop_eq_or (T : Tables) (r : KeyReg) :
    subTop T r = (sbox T (r.extractLsb' 76 4)).setWidth 80 <<< 76 ||| (r <<< 4) >>> 4 := by
  refine BitVec.eq_of_getLsbD_eq fun n hn => ?_
  simp only [subTop, BitVec.getLsbD_cast, BitVec.getLsbD_append, BitVec.getLsbD_or, BitVec.getLsbD_shiftLeft,
    BitVec.getLsbD_ushiftRight, BitVec.getLsbD_setWidth, BitVec.getLsbD_extractLsb', hn, decide_true]
  by_cases h : n < 76
  · simp [h, show 4 + n < 80 by omega]
  · simp [h, show ¬ 4 + n < 80 by omega, show n - 76 < 80 by omega]

/-- `KSUPDATE` as shifts, masks and the counter at bit 15 (R141, R147). -/
theorem ksUpdate_eq_shifts (T : Tables) (r : KeyReg) (i : BitVec 5) :
    ksUpdate T r i =
      ((sbox T ((r <<< 61 ||| r >>> 19).extractLsb' 76 4)).setWidth 80 <<< 76 |||
          ((r <<< 61 ||| r >>> 19) <<< 4) >>> 4) ^^^ i.setWidth 80 <<< 15 := by
  have hrot : r.rotateLeft 61 = r <<< 61 ||| r >>> 19 := BitVec.rotateLeft_def
  rw [ksUpdate, hrot, subTop_eq_or]

/-! ### Where the master key sits after the first updates (R148) -/

/-- Below bit 61 an update moves the register down by 19 bits and XORs the counter at bit 15. -/
theorem getLsbD_ksUpdate_low (T : Tables) (r : KeyReg) (i : BitVec 5) {n : Nat} (hn : n < 61) :
    (ksUpdate T r i).getLsbD n = (r.getLsbD (n + 19) ^^ (decide (15 ≤ n) && i.getLsbD (n - 15))) := by
  rw [getLsbD_ksUpdate T r i n (by omega), if_pos hn]

/-- The counters 1, 2 and 3 at bit 15 of the register: bit 15, bit 16, both. -/
theorem getLsbD_counter : ∀ n < 61,
    (decide (15 ≤ n) && (1 : BitVec 5).getLsbD (n - 15)) = decide (n = 15) ∧
      (decide (15 ≤ n) && (2 : BitVec 5).getLsbD (n - 15)) = decide (n = 16) ∧
      (decide (15 ≤ n) && (3 : BitVec 5).getLsbD (n - 15)) = decide (n = 15 ∨ n = 16) := by
  decide

/-- After update 1 the key is at bits 60..37, zeros below, the counter on bit 15. -/
theorem getLsbD_keyRegAfter_one (T : Tables) (k : Block) {n : Nat} (hn : n < 61) :
    (keyRegAfter T k 1).getLsbD n = ((decide (37 ≤ n) && k.getLsbD (n - 37)) ^^ decide (n = 15)) := by
  obtain ⟨h1, -, -⟩ := getLsbD_counter n hn
  have hreg : keyRegAfter T k 1 = ksUpdate T (ksLoad k) 1 := rfl
  rw [hreg, getLsbD_ksUpdate_low T _ _ hn, h1, getLsbD_ksLoad, show n + 19 - 56 = n - 37 by omega]
  simp only [show 56 ≤ n + 19 ↔ 37 ≤ n by omega]

/-- After update 2 the key is at bits 41..18, zeros below, the counter on bit 16. -/
theorem getLsbD_keyRegAfter_two (T : Tables) (k : Block) {n : Nat} (hn : n < 42) :
    (keyRegAfter T k 2).getLsbD n = ((decide (18 ≤ n) && k.getLsbD (n - 18)) ^^ decide (n = 16)) := by
  obtain ⟨-, h2, -⟩ := getLsbD_counter n (by omega)
  have hreg : keyRegAfter T k 2 = ksUpdate T (keyRegAfter T k 1) 2 := rfl
  rw [hreg, getLsbD_ksUpdate_low T _ _ (by omega), h2, getLsbD_keyRegAfter_one T k (by omega),
    show n + 19 - 37 = n - 18 by omega]
  simp [show 37 ≤ n + 19 ↔ 18 ≤ n by omega]

/-- After update 3 bits 23..1 of the key are at bits 22..0, the counter on bits 15 and 16. -/
theorem getLsbD_keyRegAfter_three (T : Tables) (k : Block) {n : Nat} (hn : n < 23) :
    (keyRegAfter T k 3).getLsbD n = (k.getLsbD (1 + n) ^^ decide (n = 15 ∨ n = 16)) := by
  obtain ⟨-, -, h3⟩ := getLsbD_counter n (by omega)
  have hreg : keyRegAfter T k 3 = ksUpdate T (keyRegAfter T k 2) 3 := rfl
  rw [hreg, getLsbD_ksUpdate_low T _ _ (by omega), h3, getLsbD_keyRegAfter_two T k (by omega),
    show n + 19 - 18 = 1 + n by omega]
  simp [show 18 ≤ n + 19 by omega, show n + 19 ≠ 16 by omega]

/-- Rotated, the loaded register has the key at bits 60..37 and nothing else. -/
theorem rotateLeft_ksLoad (k : Block) : (ksLoad k).rotateLeft 61 = k.setWidth 80 <<< 37 := by
  refine BitVec.eq_of_getLsbD_eq fun n hn => ?_
  rw [BitVec.getLsbD_rotateLeft, getLsbD_ksLoad, getLsbD_ksLoad, BitVec.getLsbD_shiftLeft, BitVec.getLsbD_setWidth]
  by_cases h : n < 61
  · by_cases h' : n < 37
    · simp [h, h', show ¬ 56 ≤ 19 + n by omega]
    · simp [h, h', hn, show 56 ≤ 19 + n by omega, show 19 + n - 56 = n - 37 by omega,
        show n - 37 < 80 by omega]
  · simp [h, show ¬ 56 ≤ n - 61 by omega, BitVec.getLsbD_of_ge k (n - 37) (by omega)]

/-- The S-box input of update 1 is 0. -/
theorem rotateLeft_ksLoad_top (k : Block) : ((ksLoad k).rotateLeft 61).extractLsb' 76 4 = 0 := by
  refine BitVec.eq_of_getLsbD_eq fun n hn => ?_
  rw [rotateLeft_ksLoad, BitVec.getLsbD_extractLsb', BitVec.getLsbD_shiftLeft, BitVec.getLsbD_setWidth]
  simp [show 24 ≤ 76 + n - 37 by omega]

/-- The 76 bits kept under the substituted nibble are all of it. -/
theorem shiftLeft_ushiftRight_key (k : Block) :
    ((k.setWidth 80 <<< 37 : KeyReg) <<< 4) >>> 4 = k.setWidth 80 <<< 37 := by
  refine BitVec.eq_of_getLsbD_eq fun n hn => ?_
  simp only [BitVec.getLsbD_ushiftRight, BitVec.getLsbD_shiftLeft, BitVec.getLsbD_setWidth]
  by_cases h : n < 61
  · simp [hn, show 4 + n < 80 by omega, show ¬ 4 + n < 4 by omega, show 4 + n - 4 = n by omega]
  · simp [BitVec.getLsbD_of_ge k (n - 37) (by omega)]

/-- The whole register after update 1: the substituted 0, the key, the counter, on bits that do not meet. -/
theorem keyRegAfter_one (T : Tables) (k : Block) :
    keyRegAfter T k 1 = (sbox T 0).setWidth 80 <<< 76 ||| k.setWidth 80 <<< 37 ||| 0x8000 := by
  have hreg : keyRegAfter T k 1 = subTop T ((ksLoad k).rotateLeft 61) ^^^ BitVec.twoPow 80 15 := rfl
  have hcounter : (0x8000 : KeyReg) = BitVec.twoPow 80 15 := rfl
  rw [hreg, hcounter, subTop_eq_or, rotateLeft_ksLoad_top, rotateLeft_ksLoad, shiftLeft_ushiftRight_key]
  refine BitVec.eq_of_getLsbD_eq fun n hn => ?_
  by_cases h15 : n = 15
  · subst h15; simp
  · simp [Ne.symm h15]

theorem keySchedule_getElem_nat (T : Tables) (k : Block) {i : Nat} (hi : i < 11) :
    (keySchedule T k)[i] = rkx (keyRegAfter T k i) := keySchedule_getElem T k ⟨i, hi⟩

/-- The window of `RKX` on the loaded register lies below the key (R144). -/
theorem rkx_ksLoad (k : Block) : rkx (ksLoad k) = 0 := by
  refine BitVec.eq_of_getLsbD_eq fun n hn => ?_
  rw [getLsbD_rkx _ n hn, getLsbD_ksLoad]
  simp [show ¬ 56 ≤ 16 + n by omega]

theorem keySchedule_zero (T : Tables) (k : Block) : (keySchedule T k)[0] = 0 :=
  (keySchedule_getElem T k 0).trans (rkx_ksLoad k)

/-- Round key 1 is the low three bits of the key, at its top (R148). -/
theorem keySchedule_one (T : Tables) (k : Block) : (keySchedule T k)[1] = (k &&& 7) <<< 21 := by
  refine BitVec.eq_of_getLsbD_eq fun n hn => ?_
  have hmask : ∀ m < 3, (7 : Block).getLsbD m = true := by decide
  rw [keySchedule_getElem_nat, getLsbD_rkx _ n hn, getLsbD_keyRegAfter_one T k (by omega)]
  by_cases h : n < 21
  · simp [h, show ¬ 37 ≤ 16 + n by omega, show 16 + n ≠ 15 by omega]
  · rw [BitVec.getLsbD_shiftLeft, BitVec.getLsbD_and, hmask (n - 21) (by omega)]
    simp [h, hn, show 37 ≤ 16 + n by omega, show 16 + n - 37 = n - 21 by omega, show 16 + n ≠ 15 by omega]

/-- Round key 2 is the low 22 bits of the key above the counter's bit (R148). -/
theorem getLsbD_keySchedule_two (T : Tables) (k : Block) {n : Nat} (hn : n < 24) :
    (keySchedule T k)[2].getLsbD n = ((decide (2 ≤ n) && k.getLsbD (n - 2)) ^^ decide (n = 0)) := by
  rw [keySchedule_getElem_nat, getLsbD_rkx _ n hn, getLsbD_keyRegAfter_two T k (by omega),
    show 16 + n - 18 = n - 2 by omega]
  simp [show 18 ≤ 16 + n ↔ 2 ≤ n by omega]

theorem keySchedule_two_high (T : Tables) (k : Block) :
    (keySchedule T k)[2].extractLsb' 2 22 = k.extractLsb' 0 22 := by
  refine BitVec.eq_of_getLsbD_eq fun n hn => ?_
  rw [BitVec.getLsbD_extractLsb', BitVec.getLsbD_extractLsb', getLsbD_keySchedule_two T k (by omega)]
  simp [hn]

theorem keySchedule_two_low (T : Tables) (k : Block) : (keySchedule T k)[2].extractLsb' 0 2 = 1 := by
  refine BitVec.eq_of_getLsbD_eq fun n hn => ?_
  rw [BitVec.getLsbD_extractLsb', getLsbD_keySchedule_two T k (by omega)]
  simp [hn, show ¬ 2 ≤ n by omega]

theorem keySchedule_three_low (T : Tables) (k : Block) :
    (keySchedule T k)[3].extractLsb' 0 7 = k.extractLsb' 17 7 ^^^ 1 := by
  refine BitVec.eq_of_getLsbD_eq fun n hn => ?_
  rw [keySchedule_getElem_nat, BitVec.getLsbD_extractLsb', getLsbD_rkx _ _ (by omega),
    getLsbD_keyRegAfter_three T k (by omega), show 1 + (16 + (0 + n)) = 17 + n by omega]
  simp [hn, show 16 + n ≠ 15 by omega]

/-- A schedule has only one key: bits 21..0 of it are in round key 2, bits 23..17 in round key 3 (R148). -/
theorem eq_of_keySchedule_eq {T : Tables} {k k' : Block} (h : keySchedule T k = keySchedule T k') : k = k' := by
  have hlow : k.extractLsb' 0 22 = k'.extractLsb' 0 22 := by
    rw [← keySchedule_two_high T, h, keySchedule_two_high]
  have htop : k.extractLsb' 17 7 = k'.extractLsb' 17 7 := by
    rw [← BitVec.xor_left_inj (1 : BitVec 7), ← keySchedule_three_low T, h, keySchedule_three_low]
  refine BitVec.eq_of_getLsbD_eq fun n hn => ?_
  by_cases hn' : n < 22
  · simpa [hn'] using congrArg (fun x => x.getLsbD n) hlow
  · have := congrArg (fun x => x.getLsbD (n - 17)) htop
    simpa [show n - 17 < 7 by omega, show 17 + (n - 17) = n by omega] using this

theorem keyRegAfter_one_key (T : Tables) (k : Block) : (keyRegAfter T k 1).extractLsb' 37 24 = k := by
  refine BitVec.eq_of_getLsbD_eq fun n hn => ?_
  rw [BitVec.getLsbD_extractLsb', getLsbD_keyRegAfter_one T k (by omega)]
  simp [hn, show 37 + n ≠ 15 by omega]

theorem keyRegAfter_two_key (T : Tables) (k : Block) : (keyRegAfter T k 2).extractLsb' 18 24 = k := by
  refine BitVec.eq_of_getLsbD_eq fun n hn => ?_
  rw [BitVec.getLsbD_extractLsb', getLsbD_keyRegAfter_two T k (by omega)]
  simp [hn, show 18 + n ≠ 16 by omega]

theorem keyRegAfter_three_key (T : Tables) (k : Block) :
    (keyRegAfter T k 3).extractLsb' 0 23 = k.extractLsb' 1 23 ^^^ 0x18000 := by
  have hcounters : ∀ m < 23, (0x18000 : BitVec 23).getLsbD m = decide (m = 15 ∨ m = 16) := by decide
  refine BitVec.eq_of_getLsbD_eq fun n hn => ?_
  rw [BitVec.getLsbD_extractLsb', Nat.zero_add, getLsbD_keyRegAfter_three T k hn, BitVec.getLsbD_xor,
    BitVec.getLsbD_extractLsb', hcounters n hn, decide_eq_true hn, Bool.true_and, Bool.true_and]

/-! ### On the registers of a datapath (R143 to R147; log 12) -/

/-- A function or micro-operation that is one write of a datapath's registers completes, and that write is all it does. -/
theorem completes_of_eq_setCipherRegs {r : Result} {p : Datapath} {c : CipherRegs} {s : State}
    (h : r = .next (setCipherRegs p c s)) : ∃ t, r = .next t ∧ OnlyRegs p s t ∧ cipherRegs t p = c :=
  ⟨_, h, onlyRegs_setCipherRegs p c s, cipherRegs_setCipherRegs p c s⟩

end Sys2Proof.Machine

open Sys2Proof Sys2Proof.Machine

/-- Settles O15: the window of `RKX` on the loaded register is zero, and XOR with zero changes nothing. -/
theorem roundKeyZeroIsZero : Obligations.RoundKeyZeroIsZero := by
  intro T k s
  have hkey (x : Block) : addKey x (keySchedule T k)[0] = x := by
    rw [keySchedule_zero]
    exact BitVec.xor_zero
  refine ⟨keySchedule_zero T k, rkx_ksLoad k, hkey s, ?_, hkey _⟩
  rw [encRound, hkey]

/-- Settles O16, from the bits of the key register after updates 1, 2 and 3. -/
theorem theFirstRoundKeysDetermineTheKey : Obligations.TheFirstRoundKeysDetermineTheKey := by
  refine fun T => ⟨fun k => ⟨keyRegAfter_one_key T k, rotateLeft_ksLoad_top k, keyRegAfter_two_key T k,
    keyRegAfter_three_key T k, keySchedule_one T k, keySchedule_two_high T k, keySchedule_two_low T k,
    keySchedule_three_low T k⟩, fun _ _ => eq_of_keySchedule_eq, fun hbox k => ?_⟩
  rw [keyRegAfter_one, hbox]
  rfl

/-- Settles O43: each of the three is one write of its datapath's registers, of a value the shifts and masks give. -/
theorem keyMicroOperationsTransformTheKeyRegister : Obligations.KeyMicroOperationsTransformTheKeyRegister := by
  intro s p k n x
  dsimp only
  rw [← ksLoad_eq_shiftLeft, ← ksUpdate_eq_shifts, ← rkx_eq_shiftRight]
  exact ⟨completes_of_eq_setCipherRegs rfl, completes_of_eq_setCipherRegs rfl, completes_of_eq_setCipherRegs rfl⟩

end

section
/-! PROOF. What `KSCHED`, `key_schedule`, `encrypt`, `decrypt` and `double_encrypt` leave in the registers, all their work
done (41_key_schedule.md R143, R145; 42_block_cipher.md R156, R158; 43_cascade.md R175). -/

namespace Sys2Proof.Machine

open Sys2Proof.Config

/-! ### A short command from acceptance to completion (R222, R227) -/

/-- Two states differ at most in the cipher registers, `DOUT` and the place in the program: what a run of micro-steps
may change. -/
def OnlyMicro (s t : State) : Prop :=
  t = { s with kreg := t.kreg, rk := t.rk, cst := t.cst, denc1 := t.denc1, denc2 := t.denc2, dout := t.dout,
               upc := t.upc }

theorem onlyMicro_microNext {s : State} {m : MicroStep} (hm : (microProgram s.op)[s.upc]? = some m) :
    OnlyMicro s (microNext s m) := by
  obtain ⟨hframe, -, -⟩ := runMicro_frame (List.mem_of_getElem? hm) { s with upc := s.upc + 1 }
  unfold OnlyMicro microNext
  rw [hframe]

theorem OnlyMicro.trans {s t u : State} (h : OnlyMicro s t) (h' : OnlyMicro t u) : OnlyMicro s u := by
  unfold OnlyMicro at h'
  rw [h] at h'
  exact h'

/-- The micro-steps a running short command has left, done in order, leave what it is heading for in `RK` and `DOUT`. -/
theorem foldl_microNext_delivers (l : List MicroStep) :
    ∀ {s : State}, (microProgram s.op).drop s.upc = l →
      OnlyMicro s (l.foldl microNext s) ∧ ((l.foldl microNext s).rk, (l.foldl microNext s).dout) = shortResult s := by
  induction l with
  | nil =>
    intro s hl
    have hdone : shortDone s = true := decide_eq_true (List.drop_eq_nil_iff.mp hl)
    exact ⟨rfl, (shortResult_of_shortDone hdone).symm⟩
  | cons m l ih =>
    intro s hl
    have hm : (microProgram s.op)[s.upc]? = some m := by
      rw [← List.head?_drop, hl]
      rfl
    obtain ⟨-, -, ho, hu, -⟩ := microNext_frame hm
    obtain ⟨hframe, hresult⟩ := ih (s := microNext s m) (by rw [ho, hu, ← List.tail_drop, hl]; rfl)
    exact ⟨(onlyMicro_microNext hm).trans hframe, hresult.trans (shortResult_microNext hm)⟩

/-- A short command accepted with nothing scheduled completes in one turn more than it has micro-steps; it leaves its
function's results in `RK` and `DOUT`, and changes nothing else the host can see but the flags. -/
theorem run_command {o : Op} (ho : o ≠ .mitm) {s : State} (hb : s.busy = false) (ha : s.agenda = []) :
    ∃ u, Host.Core.run core ((microProgram o).length + 1) (command o s) = .next u ∧
      (u.rk, u.dout) = shortEffect o s ∧
      u = { s with rk := u.rk, dout := u.dout, kreg := u.kreg, cst := u.cst, denc1 := u.denc1, denc2 := u.denc2,
                   op := o, upc := u.upc, busy := false, done := true, err := false, cause := .noCause,
                   phase := .idle } := by
  obtain ⟨-, hresult⟩ := aShortCommandIsHeadingForItsFunction s o ho hb
  rw [command_of_ready hb, accept_short ho] at hresult ⊢
  obtain ⟨hframe, hdelivered⟩ := foldl_microNext_delivers (microProgram o) (s := beginCommand o .short s) rfl
  refine ⟨_, run_short (microProgram o) (s := beginCommand o .short s) ha rfl rfl, hdelivered.trans hresult, ?_⟩
  exact congrArg complete hframe

/-! ### The loops of encryption and decryption (R156, R158) -/

/-- The block after the first `n` rounds of encryption of `x`. -/
def afterEncRounds (T : Tables) (rk : Schedule) (x : Block) (n : Nat) : Block :=
  (roundIndices.take n).foldl (fun s i => encRound T s rk[i]) x

/-- The block of decryption of `y` when the rounds down to `n` are done. -/
def afterDecRounds (T : Tables) (rk : Schedule) (y : Block) (n : Nat) : Block :=
  (roundIndices.drop n).reverse.foldl (fun s i => decRound T s rk[i]) (addKey y rk[10])

theorem roundIndices_length : roundIndices.length = 10 := rfl

theorem roundIndices_getElem (n : Fin 10) :
    roundIndices[n.val]'(n.isLt.trans_eq roundIndices_length.symm) = n.castSucc := by
  simp [roundIndices]

theorem afterEncRounds_succ (T : Tables) (rk : Schedule) (x : Block) (n : Fin 10) :
    afterEncRounds T rk x (n.val + 1) = encRound T (afterEncRounds T rk x n.val) rk[n.val] := by
  have hlt : n.val < roundIndices.length := n.isLt.trans_eq roundIndices_length.symm
  rw [afterEncRounds, List.take_succ_eq_append_getElem hlt, roundIndices_getElem, List.foldl_append]
  rfl

theorem afterDecRounds_succ (T : Tables) (rk : Schedule) (y : Block) (n : Fin 10) :
    afterDecRounds T rk y n.val = decRound T (afterDecRounds T rk y (n.val + 1)) rk[n.val] := by
  have hlt : n.val < roundIndices.length := n.isLt.trans_eq roundIndices_length.symm
  rw [afterDecRounds, List.drop_eq_getElem_cons hlt, roundIndices_getElem, List.reverse_cons, List.foldl_append]
  rfl

theorem afterDecRounds_ten (T : Tables) (rk : Schedule) (y : Block) : afterDecRounds T rk y 10 = addKey y rk[10] := rfl

/-- All ten rounds done, the final whitening makes the ciphertext. -/
theorem encrypt_eq_addKey (T : Tables) (rk : Schedule) (x : Block) :
    encrypt T rk x = addKey (afterEncRounds T rk x 10) rk[10] := rfl

theorem decrypt_eq_afterDecRounds (T : Tables) (rk : Schedule) (y : Block) :
    decrypt T rk y = afterDecRounds T rk y 0 := rfl

end Sys2Proof.Machine

open Sys2Proof Sys2Proof.Machine

/-- Settles O36: `KSCHED` has 22 micro-steps, and completes in the turn after them. -/
theorem kschedLoadsTheSchedule : Obligations.KschedLoadsTheSchedule := by
  intro s hb ha
  obtain ⟨u, hrun, hresult, hframe⟩ := run_command (o := .ksched) (by decide) hb ha
  obtain ⟨hrk, hdout⟩ := Prod.mk.inj hresult
  rw [hdout] at hframe
  exact ⟨command .ksched s, u, rfl, hrun, hrk, hframe⟩

/-- Settles O44: each function is one write of registers; the loops' values are the registers after each update, and the
blocks after each round. -/
theorem theFunctionsRunTheirLoops : Obligations.TheFunctionsRunTheirLoops := by
  intro s p k x
  refine ⟨?_, ?_, ?_, _, rfl, rfl, rfl⟩
  · obtain ⟨t, ht, honly, hregs⟩ := completes_of_eq_setCipherRegs (s := s) (r := exec (.keySchedule p k) s) rfl
    refine ⟨t, ht, honly, by rw [hregs], keyRegAfter _ _, rfl, fun _ _ => rfl, fun n => ?_⟩
    rw [hregs]
    exact keySchedule_getElem _ _ n
  · obtain ⟨t, ht, honly, hregs⟩ := completes_of_eq_setCipherState (s := s) (r := exec (.encrypt p x) s) rfl
    refine ⟨t, ht, honly, by rw [hregs], afterEncRounds _ _ _, rfl, afterEncRounds_succ _ _ _, ?_⟩
    rw [hregs]
    exact encrypt_eq_addKey _ _ _
  · obtain ⟨t, ht, honly, hregs⟩ := completes_of_eq_setCipherState (s := s) (r := exec (.decrypt p x) s) rfl
    refine ⟨t, ht, honly, by rw [hregs], afterDecRounds _ _ _, afterDecRounds_ten _ _ _, afterDecRounds_succ _ _ _, ?_⟩
    rw [hregs]
    exact decrypt_eq_afterDecRounds _ _ _

end

section
/-! PROOF. The block cipher (42_block_cipher.md R155 to R163): decryption and encryption undo each other round by round,
and what `ENC` and `DEC` leave in `DOUT`. -/

namespace Sys2Proof.Machine

open Sys2Proof.Config

/-! ### Round by round (R159, R163) -/

theorem addKey_addKey (s k : Block) : addKey (addKey s k) k = s := by
  rw [addKey, addKey, BitVec.xor_assoc, BitVec.xor_self, BitVec.xor_zero]

theorem decRound_encRound {T : Tables} (h : T.Ok) (s k : Block) : decRound T (encRound T s k) k = s := by
  rw [decRound, encRound, invPLayer_pLayer h, invSLayer_sLayer h, addKey_addKey]

theorem encRound_decRound {T : Tables} (h : T.Ok) (s k : Block) : encRound T (decRound T s k) k = s := by
  rw [encRound, decRound, addKey_addKey, sLayer_invSLayer h, pLayer_invPLayer h]

/-- When `g` undoes a turn of `f`, the turns of `g` in the opposite order undo a loop of `f`. -/
theorem foldl_reverse_foldl {α ι : Type} {f g : α → ι → α} (h : ∀ a i, g (f a i) i = a) (l : List ι) (a : α) :
    l.reverse.foldl g (l.foldl f a) = a := by
  induction l generalizing a with
  | nil => rfl
  | cons i l ih =>
    rw [List.foldl_cons, List.reverse_cons, List.foldl_append, ih]
    exact h a i

/-- R159: the whitening goes first, then the rounds in the opposite order. -/
theorem decrypt_encrypt {T : Tables} (h : T.Ok) (rk : Schedule) (x : Block) : decrypt T rk (encrypt T rk x) = x := by
  rw [decrypt, encrypt, addKey_addKey]
  exact foldl_reverse_foldl (fun s i => decRound_encRound h s rk[i]) roundIndices x

/-- R163: the loop of encryption is the reverse of decryption's. -/
theorem encrypt_decrypt {T : Tables} (h : T.Ok) (rk : Schedule) (y : Block) : encrypt T rk (decrypt T rk y) = y := by
  have hrounds := foldl_reverse_foldl (f := fun s (i : Fin 11) => decRound T s rk[i]) (g := fun s i => encRound T s rk[i])
    (fun s i => encRound_decRound h s rk[i]) roundIndices.reverse (addKey y rk[10])
  rw [List.reverse_reverse] at hrounds
  rw [encrypt, decrypt, hrounds, addKey_addKey]

/-! ### `ENC` and `DEC` from acceptance to completion (R160, R161, R227) -/

/-- A command word whose short command leaves `RK` alone is accepted; the command completes with its value in `DOUT`, and
changes nothing else the host can see but the flags. -/
theorem exec_command_dout {c : Instr} {o : Op} {s : State} {b : Block} (hexec : exec c s = .next (command o s))
    (ho : o ≠ .mitm) (hb : s.busy = false) (ha : s.agenda = []) (heffect : shortEffect o s = (s.rk, b)) :
    ∃ t u, exec c s = .next t ∧ Host.Core.run core ((microProgram o).length + 1) t = .next u ∧ u.dout = b ∧
      u = { s with dout := u.dout, kreg := u.kreg, cst := u.cst, denc1 := u.denc1, denc2 := u.denc2, op := o,
                   upc := u.upc, busy := false, done := true, err := false, cause := .noCause, phase := .idle } := by
  obtain ⟨u, hrun, hresult, hframe⟩ := run_command ho hb ha
  obtain ⟨hrk, hdout⟩ := Prod.mk.inj (hresult.trans heffect)
  rw [hrk] at hframe
  exact ⟨_, u, hexec, hrun, hdout, hframe⟩

end Sys2Proof.Machine

open Sys2Proof Sys2Proof.Machine

/-- Settles O17: each round is undone by its inverse, in the opposite order, and the final whitening by itself. -/
theorem encryptAndDecryptUndoEachOther : Obligations.EncryptAndDecryptUndoEachOther := fun _ rk x h =>
  ⟨decrypt_encrypt h rk x, encrypt_decrypt h rk x⟩

/-- Settles O37: `ENC` and `DEC` have 13 micro-steps each, and complete in the turn after them. -/
theorem encAndDecWriteDout : Obligations.EncAndDecWriteDout := fun _ hb ha =>
  ⟨exec_command_dout (o := .enc) rfl (by decide) hb ha rfl, exec_command_dout (o := .dec) rfl (by decide) hb ha rfl⟩

end

section
/-! PROOF. The cascade (43_cascade.md R176, R177): the meet-in-the-middle identity, and what `DENC` leaves in `DOUT`. -/

namespace Sys2Proof.Machine

open Sys2Proof.Config

/-- Under one schedule, a block's encryption is `y` exactly when the block is the decryption of `y` (R159, R163). -/
theorem encrypt_eq_iff {T : Tables} (h : T.Ok) (rk : Schedule) (x y : Block) :
    encrypt T rk x = y ↔ x = decrypt T rk y := by
  constructor
  · rintro rfl
    exact (decrypt_encrypt h rk x).symm
  · rintro rfl
    exact encrypt_decrypt h rk y

end Sys2Proof.Machine

open Sys2Proof Sys2Proof.Machine

/-- Settles O18: the outer encryption, under the second key's schedule, moves to the other side as a decryption. -/
theorem theCascadeMeetsInTheMiddle : Obligations.TheCascadeMeetsInTheMiddle := fun T k1 k2 x y h =>
  encrypt_eq_iff h (keySchedule T k2) (encrypt T (keySchedule T k1) x) y

/-- Settles O38: `DENC` has 5 micro-steps, all on its private registers but the last, and completes in the turn after
them. -/
theorem dencWritesDoutAndLeavesTheSchedule : Obligations.DencWritesDoutAndLeavesTheSchedule := fun _ hb ha =>
  exec_command_dout (o := .denc) rfl (by decide) hb ha rfl

end

section
/-! PROOF. Under every schedule (44_mitm_engine.md R180, R183 to R199): the invariant of a search, and the list of pairs
the host is owed, through a whole step. -/

namespace Sys2Proof.Machine

/-- The invariant of a search holds after every step, beside the invariants of the flags. -/
theorem step_searchInv {s t : State} (hst : StatusInv s) (hs : SearchInv s) (h : step s = .next t) : SearchInv t :=
  (step_keeps (P := fun u => StatusInv u ∧ SearchInv u) (fun _ _ hu => ⟨hu.1.congr rfl, hu.2.congr rfl id⟩)
    (fun _ _ hu hw => ⟨hu.1.of_hostStep hw, .of_hostStep hu.1 hu.2 hw⟩)
    (fun u _ => ⟨(statusInv_resetOf u.params).congr rfl, searchInv_of_idle rfl⟩)
    (fun _ _ hu hg => ⟨hu.1.of_agentStep hg, hu.2.of_agentStep hg⟩) ⟨hst, hs⟩ h).2

/-! ### The list owed through an access of the host -/

theorem owed_refuse {s : State} (hs : SearchInv s) (c : Cause) : owed (refuse c s) = owed s := owed_congr hs rfl rfl

/-- An operand write changes no list owed: while a search runs it is refused (R72, R221). -/
theorem owed_writeOperand {s : State} (hst : StatusInv s) (hs : SearchInv s) (r : OperandReg) (d : HostWord) :
    owed (writeOperand r d s) = owed s := by
  cases hb : s.busy with
  | true => rw [writeOperand_of_busy hb, owed_refuse hs]
  | false =>
    have hp := hst.idle_of_ready hb
    rw [writeOperand_of_ready hb, owed_of_idle hp, owed_of_idle ((setOperand_phase _ _ _).trans hp), setOperand_rf]

/-- A command changes no list owed unless it is an accepted `MITM` (R181). -/
theorem owed_command {s : State} (hst : StatusInv s) (hs : SearchInv s) {o : Op} (h : o = .mitm → s.busy = true) :
    owed (command o s) = owed s := by
  cases hb : s.busy with
  | true => rw [command_of_busy hb, owed_refuse hs]
  | false =>
    have ho : o ≠ .mitm := fun ho => absurd (hb.symm.trans (h ho)) (by decide)
    rw [command_of_ready hb, accept_short ho, owed_of_idle (hst.idle_of_ready hb)]
    exact owed_of_short rfl

/-- No host access but a pop and an accepted `MITM` changes the list owed (R65, R244). -/
theorem owed_exec_host {i : Instr} (hi : (encode i).isSome = true) {s t : State} (hst : StatusInv s) (hs : SearchInv s)
    (h : exec i s = .next t) (hpop : i ≠ .pop) (hmitm : i = .mitm → s.busy = true) : owed t = owed s := by
  cases i <;> simp only [encode, Option.isSome_some, Option.isSome_none, Bool.false_eq_true] at hi <;>
    obtain rfl := Host.Outcome.next.inj h
  case pop => exact absurd rfl hpop
  case rd | illcmd | badwr => exact owed_congr hs rfl rfl
  case mitm => exact owed_command hst hs fun _ => hmitm rfl
  case nop | ksched | enc | dec | denc => exact owed_command hst hs nofun
  all_goals exact owed_writeOperand hst hs _ _

theorem owed_exec_pop {s t : State} (hs : SearchInv s) (h : exec .pop s = .next t) :
    owed t = if s.rf = [] then owed s else (owed s).tail := by
  cases h
  split_ifs with hrf
  · exact owed_congr hs rfl (by simp [hrf])
  · obtain ⟨r, q, hrf⟩ := List.exists_cons_of_ne_nil hrf
    rw [owed_pop hs hrf s.agenda]
    rfl

theorem owed_exec_mitm {s t : State} (hst : StatusInv s) (hs : SearchInv s) (h : exec .mitm s = .next t) :
    owed t = if s.busy = true then owed s else searchResult s.params s.p1 s.c1 s.p2 s.c2 := by
  cases h
  split_ifs with hb
  · exact owed_command hst hs fun _ => hb
  · rw [command_of_ready (by simpa using hb), owed_accept_mitm]

end Sys2Proof.Machine

open Sys2Proof Sys2Proof.Machine

/-- Settles O57, by the cases of a step: a host access and every agent's turn keep the invariant of a search, and after
reset the core is idle. -/
theorem everyStepKeepsTheSearchInvariant : Obligations.EveryStepKeepsTheSearchInvariant := fun _ _ _ =>
  step_searchInv

/-- Settles O58, by the event at the head of the agenda: no agent's turn changes the list owed, and of the host accesses
only a pop and an accepted `MITM` do. -/
theorem noResultIsLostDoubledOrReordered : Obligations.NoResultIsLostDoubledOrReordered := by
  intro s t _ hst hs h
  rcases step_cases h with ⟨w, rest, ha, hexec, -⟩ | ⟨rest, ha, rfl⟩ | ⟨g, rest, ha, hg⟩ | ⟨ha, hg⟩
  · have hst' : StatusInv { s with agenda := rest } := hst.congr rfl
    have hs' : SearchInv { s with agenda := rest } := hs.congr rfl id
    have howed : owed { s with agenda := rest } = owed s := owed_congr hs rfl rfl
    simp only [ha]
    split
    next hw => exact (owed_exec_pop hs' (hw ▸ hexec)).trans (by rw [howed])
    next hw => exact (owed_exec_mitm hst' hs' (hw ▸ hexec)).trans (by rw [howed])
    next hpop hmitm =>
      exact (owed_exec_host (encode_decode_isSome w) hst' hs' hexec hpop fun hw => absurd hw hmitm).trans howed
  · simp only [ha]
    exact owed_of_idle rfl
  · simp only [ha]
    exact (hg.owed_eq (hs.congr rfl id)).trans (owed_congr hs rfl rfl)
  · simp only [ha]
    exact hg.owed_eq hs

end

section
/-! PROOF. The micro-operations of the search engine, one by one (44_mitm_engine.md R181 to R198): what each does where
its condition holds, and that it waits where it does not (log 3). -/

namespace Sys2Proof.Machine

open Sys2Proof.Config

/-! ### `GEN` and `SORT` (R182 to R187) -/

theorem exec_gen_of_ready {s : State} {w : Nat} {k : Block} (h : genReady s w k = true) :
    exec (.gen w k) s = .next
      { memWrite .bwd k.toNat (backwardEntry s.params.tables s.c1 k)
          (memWrite .fwd k.toNat (forwardEntry s.params.tables s.p1 k) s) with
        gdone := markKey s.gdone k.toNat,
        workers := s.workers.set w (regsAfter s.params.tables k (backwardValue s.params.tables s.c1 k)) } := if_pos h

theorem exec_gen_of_not {s : State} {w : Nat} {k : Block} (h : ¬genReady s w k = true) :
    exec (.gen w k) s = .next s := if_neg h

/-- The state `SORT` leaves: each table in its ascending arrangement (R186). -/
def sorted (s : State) : State :=
  { s with tf := Memory.ofEntriesFrom 0 (sortEntries (tableEntries s .fwd)),
           tb := Memory.ofEntriesFrom 0 (sortEntries (tableEntries s .bwd)) }

theorem exec_sort_of_phase {s : State} (h : s.phase = .sort) : exec .sort s = .next (sorted s) := if_pos h

theorem exec_sort_of_not {s : State} (h : s.phase ≠ .sort) : exec .sort s = .next s := if_neg h

/-- A table that `SORT` wrote reads back as the sorted list. -/
theorem tableEntries_sorted (s : State) (side : Side) :
    tableEntries (sorted s) side = sortEntries (tableEntries s side) := by
  have hlen : (sortEntries (tableEntries s side)).length = s.params.n :=
    (sortEntries_perm _).length_eq.trans (tableEntries_length s side)
  cases side <;> exact tableEntries_eq hlen fun x _ => Memory.lookup_ofEntries _ x

/-! ### The transitions of the join unit (R188 to R193) -/

theorem exec_advf_of_ready {s : State} (h : advfReady s = true) : exec .advf s = .next { s with i := s.i + 1 } :=
  if_pos h

theorem exec_advf_of_not {s : State} (h : ¬advfReady s = true) : exec .advf s = .next s := if_neg h

theorem exec_advb_of_ready {s : State} (h : advbReady s = true) : exec .advb s = .next { s with j := s.j + 1 } :=
  if_pos h

theorem exec_advb_of_not {s : State} (h : ¬advbReady s = true) : exec .advb s = .next s := if_neg h

theorem exec_advances_of_not_comparing {s : State} (h : ¬comparing s = true) :
    exec .advf s = .next s ∧ exec .advb s = .next s :=
  ⟨exec_advf_of_not fun hr => h (advfReady_iff.mp hr).1, exec_advb_of_not fun hr => h (advbReady_iff.mp hr).1⟩

theorem exec_emitx_of_ready {s : State} (h : emitxReady s = true) (hv : s.vq.length < s.params.lanes) :
    exec .emitx s = .next (emitAdvance (emitPair (emitBegin s))) := if_pos (by simp [h, hv])

theorem exec_emitx_of_not {s : State} (h : ¬emitxReady s = true) : exec .emitx s = .next s := if_neg (by simp [h])

theorem exec_emitx_of_full {s : State} (h : s.params.lanes ≤ s.vq.length) : exec .emitx s = .next s :=
  if_neg (by simp [h])

/-- The end of the run that stands at index `x` is where the join unit finds it (R191). -/
theorem IsRunEnd.runEnd_eq {s : State} {side : Side} {x y : Nat} (h : IsRunEnd s side x y) :
    runEnd (memRead s side) (entryValue (memRead s side x)) (s.params.n - x) x = y := by
  obtain ⟨hlt, hle, hsame, hstop⟩ := h
  exact runEnd_unique hlt.le (by omega) hsame fun hy => hstop (by omega)

/-- Where an emission stands or begins: the run ends `ie`, `je` and the place `a`, `b` of its next pair (R191). -/
theorem emitBegin_eq {s : State} {ie je a b : Nat}
    (h : (emitting s = true ∧ ie = s.ie ∧ je = s.je ∧ a = s.a ∧ b = s.b) ∨
      (emitting s = false ∧ valueF s = valueB s ∧ IsRunEnd s .fwd s.i ie ∧ IsRunEnd s .bwd s.j je ∧ a = s.i ∧
        b = s.j)) : emitBegin s = { s with ie := ie, je := je, a := a, b := b } := by
  rcases h with ⟨he, rfl, rfl, rfl, rfl⟩ | ⟨he, hv, hie, hje, rfl, rfl⟩
  · exact if_pos he
  · have hf : runEnd (memRead s .fwd) (valueF s) (s.params.n - s.i) s.i = ie := hie.runEnd_eq
    have hb : runEnd (memRead s .bwd) (valueF s) (s.params.n - s.j) s.j = je := hv ▸ hje.runEnd_eq
    rw [emitBegin, he, hf, hb]
    rfl

/-- The place of the next pair, the backward run inner; after the last pair both cursors go past their runs (R193). -/
theorem emitAdvance_eq (s : State) :
    emitAdvance s = { s with
      a := if s.b + 1 < s.je then s.a else if s.a + 1 < s.ie then s.a + 1 else s.a
      b := if s.b + 1 < s.je then s.b + 1 else if s.a + 1 < s.ie then s.j else s.b
      i := if s.b + 1 < s.je ∨ s.a + 1 < s.ie then s.i else s.ie
      j := if s.b + 1 < s.je ∨ s.a + 1 < s.ie then s.j else s.je } := by
  unfold emitAdvance
  by_cases hb : s.b + 1 < s.je
  · simp only [hb, true_or, if_true]
  · by_cases ha : s.a + 1 < s.ie
    · simp only [hb, ha, or_true, if_true, if_false]
    · simp only [hb, ha, or_self, if_false]

/-! ### `VERIFY` and `RETIRE` (R197 to R199) -/

theorem exec_verify_of_pending {s : State} {v n : Nat} {r : KeyPair} (hp : s.phase = .join) (hv : v < s.params.lanes)
    (hn : s.vq[n]? = some ⟨r, .pending⟩) :
    exec (.verify v n) s = .next
      { s with vq := s.vq.set n ⟨r, verdictOf s r⟩,
               lanes := s.lanes.set v
                 (regsAfter s.params.tables r.key2 (doubleEncrypt s.params.tables r.key1 r.key2 s.p2)) } := by
  simp [exec, execVerify, hn, hp, hv]

theorem exec_verify_of_not {s : State} {v n : Nat}
    (h : s.phase ≠ .join ∨ s.params.lanes ≤ v ∨ ∀ r, s.vq[n]? ≠ some ⟨r, .pending⟩) :
    exec (.verify v n) s = .next s := by
  simp only [exec, execVerify]
  split
  next r hn =>
    refine if_neg fun ⟨hp, hv⟩ => ?_
    rcases h with h | h | h
    · exact h hp
    · exact absurd hv (Nat.not_lt.mpr h)
    · exact h r hn
  next => rfl

theorem verdictOf_eq (s : State) (r : KeyPair) :
    verdictOf s r = if doubleEncrypt s.params.tables r.key1 r.key2 s.p2 = s.c2 then .pass else .fail := by
  simp [verdictOf, verifies]

theorem exec_retire_fail {s : State} {r : KeyPair} {q : List QueueEntry} (hp : s.phase = .join)
    (hq : s.vq = ⟨r, .fail⟩ :: q) : exec .retire s = .next { s with vq := q } := by simp only [exec, execRetire, hp, hq]

theorem exec_retire_pass {s : State} {r : KeyPair} {q : List QueueEntry} (hp : s.phase = .join)
    (hq : s.vq = ⟨r, .pass⟩ :: q) :
    exec .retire s =
      if s.rf.length < s.params.fifoDepth then .next { s with vq := q, rf := s.rf ++ [r] } else .next s := by
  simp only [exec, execRetire, hp, hq]

theorem exec_retire_of_not {s : State}
    (h : s.phase ≠ .join ∨ s.vq = [] ∨ ∃ r q, s.vq = ⟨r, .pending⟩ :: q) : exec .retire s = .next s := by
  simp only [exec, execRetire]
  split
  next hp hq => simp [hp, hq] at h
  next hp hq => simp [hp, hq] at h
  next => rfl

end Sys2Proof.Machine

open Sys2Proof Sys2Proof.Machine Sys2Proof.Config

/-- Settles O25: the word decodes to `MITM`, and acceptance is the flush with the protocol bits. -/
theorem mitmIsAcceptedWithAFlush : Obligations.MitmIsAcceptedWithAFlush :=
  ⟨by decide, fun s hb => ⟨0, congrArg Host.Outcome.next (command_of_ready hb .mitm)⟩⟩

/-- Settles O45, by what a read of each table returns after its one write. -/
theorem genWritesBothEntriesOfItsKey : Obligations.GenWritesBothEntriesOfItsKey := by
  intro s w k hp hw hk hg
  refine ⟨_, exec_gen_of_ready (genReady_iff.mpr ⟨hp, hw, hk, hg⟩), rfl, fun x => ?_, fun x => ?_, fun m => mem_markKey,
    fun v hv => List.getElem?_set_ne hv.symm⟩
  · exact Memory.lookup_write s.tf k.toNat _ x
  · exact Memory.lookup_write s.tb k.toNat _ x

/-- Settles O46: each table reads back as the sorted list of its entries. -/
theorem sortArrangesBothTablesAscending : Obligations.SortArrangesBothTablesAscending := by
  refine fun s hp => ⟨_, exec_sort_of_phase hp, rfl, fun side => ?_⟩
  rw [tableEntries_sorted]
  exact ⟨sortEntries_perm _, sortEntries_ascending _⟩

/-- Settles O47: each advance is enabled, and moves its cursor. -/
theorem advancesMoveOneCursor : Obligations.AdvancesMoveOneCursor := by
  intro s hp hjend he hi hj
  have hc : comparing s = true := comparing_iff.mpr ⟨hp, hjend, he, hi, hj⟩
  exact ⟨fun h => exec_advf_of_ready (advfReady_iff.mpr ⟨hc, h⟩),
    fun h => exec_advb_of_ready (advbReady_iff.mpr ⟨hc, h⟩)⟩

/-- Settles O48, by where the emission stands or begins and by the place of the pair after the one emitted. -/
theorem emitxEmitsTheCrossProductPairByPair : Obligations.EmitxEmitsTheCrossProductPairByPair := by
  intro s ie je a b hp hjend hroom h
  have hready : emitxReady s = true := by
    refine emitxReady_iff.mpr ⟨hp, hjend, ?_⟩
    rcases h with ⟨he, -⟩ | ⟨he, hi, hj, hv, -⟩
    · exact .inl he
    · exact .inr ⟨he, hi, hj, hv⟩
  have hbegin : emitBegin s = { s with ie := ie, je := je, a := a, b := b } := by
    refine emitBegin_eq ?_
    rcases h with h | ⟨he, -, -, hv, hruns⟩
    · exact .inl h
    · exact .inr ⟨he, hv, hruns⟩
  rw [exec_emitx_of_ready hready hroom, hbegin, emitAdvance_eq]
  rfl

/-- Settles O49: the lane's registers are the one other change. -/
theorem verifyJudgesByTheSecondPair : Obligations.VerifyJudgesByTheSecondPair := by
  intro s v n r hp hv hn
  refine ⟨s.lanes.set v (regsAfter s.params.tables r.key2 (doubleEncrypt s.params.tables r.key1 r.key2 s.p2)),
    fun u hu => List.getElem?_set_ne hu.symm, ?_⟩
  rw [exec_verify_of_pending hp hv hn, verdictOf_eq]

/-- Settles O50, by the verdict of the head of `VQ` and the room in `RF`. -/
theorem retireDeliversInOrder : Obligations.RetireDeliversInOrder := fun _ _ _ hp =>
  ⟨exec_retire_fail hp, fun hq hroom => (exec_retire_pass hp hq).trans (if_pos hroom),
    fun hq hfull => (exec_retire_pass hp hq).trans (if_neg (Nat.not_lt.mpr hfull))⟩

/-- Settles O52, condition by condition: each one named rules the micro-operation out. -/
theorem aMicroOperationThatIsNotEnabledWaits : Obligations.AMicroOperationThatIsNotEnabledWaits := by
  intro s w v n k vf vb
  refine ⟨fun h => exec_gen_of_not fun hr => ?_, exec_sort_of_not, fun h => ?_,
    fun h => exec_advances_of_not_comparing fun hc => ?_, fun h => exec_advf_of_not fun hr => ?_,
    fun h => exec_advb_of_not fun hr => ?_, fun he h => exec_emitx_of_not fun hr => ?_, exec_emitx_of_full,
    exec_verify_of_not, exec_retire_of_not⟩
  · obtain ⟨hp, hw, hk, hg⟩ := genReady_iff.mp hr
    rcases h with h | h | h | h
    · exact h hp
    · exact absurd hw (Nat.not_lt.mpr h)
    · exact absurd hk (Nat.not_lt.mpr h)
    · exact hg h
  · have off : ¬(s.phase = .join ∧ s.jend = false) := by rintro ⟨hp, hjend⟩; simp [hp, hjend] at h
    obtain ⟨hf, hb⟩ := exec_advances_of_not_comparing (s := s) fun hc =>
      off ⟨(comparing_iff.mp hc).1, (comparing_iff.mp hc).2.1⟩
    exact ⟨hf, hb, exec_emitx_of_not fun hr => off ⟨(emitxReady_iff.mp hr).1, (emitxReady_iff.mp hr).2.1⟩⟩
  · obtain ⟨-, -, he, hi, hj⟩ := comparing_iff.mp hc
    rcases h with h | h | h
    · exact absurd (he.symm.trans h) (by decide)
    · exact absurd hi (Nat.not_lt.mpr h)
    · exact absurd hj (Nat.not_lt.mpr h)
  · exact BitVec.not_lt.mpr h (advfReady_iff.mp hr).2
  · exact BitVec.not_lt.mpr h (advbReady_iff.mp hr).2
  · obtain ⟨-, -, he' | ⟨-, hi, hj, hv⟩⟩ := emitxReady_iff.mp hr
    · exact absurd (he.symm.trans he') (by decide)
    · rcases h with h | h | h
      · exact absurd hi (Nat.not_lt.mpr h)
      · exact absurd hj (Nat.not_lt.mpr h)
      · exact h hv

end

section
/-! PROOF. The turns of the join unit and of the sequencer (44_mitm_engine.md R183, R186, R188 to R192, R200;
45_host_interface.md R227; 60_exceptions.md R248), each by the condition that picks its move. -/

namespace Sys2Proof.Machine

theorem step_agent {s : State} {g : Agent} {rest : List Event} (ha : s.agenda = .agent g :: rest) :
    step s = runTurn (turn g { s with agenda := rest }) := by simp only [step_eq_runTurn, fetch, ha]

/-! ### The join unit (R188, R191, R192) -/

theorem comparing_of_join {s : State} (hp : s.phase = .join) (hjend : s.jend = false) (he : emitting s = false)
    (hi : s.i < s.params.n) (hj : s.j < s.params.n) : comparing s = true :=
  comparing_iff.mpr ⟨hp, hjend, he, hi, hj⟩

theorem not_joinAtEnd_of_emitting {s : State} (he : emitting s = true) : ¬joinAtEnd s = true := by
  simp [joinAtEnd_iff, he]

theorem not_joinAtEnd_of_comparing {s : State} (hc : comparing s = true) : ¬joinAtEnd s = true := by
  obtain ⟨-, -, -, hi, hj⟩ := comparing_iff.mp hc
  simp [joinAtEnd_iff, hi, hj]

theorem not_comparing_of_emitting {s : State} (he : emitting s = true) : ¬comparing s = true := by
  simp [comparing_iff, he]

theorem runTurn_join_atEnd {s : State} (h : joinAtEnd s = true) :
    runTurn (turn .join s) = .next { s with jend := true } := by
  rw [turn, joinTurn, if_pos h]
  rfl

theorem runTurn_join_advf {s : State} (h : advfReady s = true) :
    runTurn (turn .join s) = .next { s with i := s.i + 1 } := by
  have hend := not_joinAtEnd_of_comparing (advfReady_iff.mp h).1
  rw [turn, joinTurn, if_neg hend, if_pos h]
  exact exec_advf_of_ready h

theorem runTurn_join_advb {s : State} (h : advbReady s = true) :
    runTurn (turn .join s) = .next { s with j := s.j + 1 } := by
  obtain ⟨hc, hlt⟩ := advbReady_iff.mp h
  have hend := not_joinAtEnd_of_comparing hc
  have hadvf : ¬advfReady s = true := fun ha => BitVec.lt_asymm hlt (advfReady_iff.mp ha).2
  rw [turn, joinTurn, if_neg hend, if_neg hadvf, if_pos h]
  exact exec_advb_of_ready h

theorem runTurn_join_emitx {s : State} (h : emitxReady s = true) :
    runTurn (turn .join s) = exec .emitx s := by
  obtain ⟨hend, hadvf, hadvb⟩ : ¬joinAtEnd s = true ∧ ¬advfReady s = true ∧ ¬advbReady s = true := by
    obtain ⟨hp, hjend, he | ⟨he, hi, hj, hv⟩⟩ := emitxReady_iff.mp h
    · have hc := not_comparing_of_emitting he
      exact ⟨not_joinAtEnd_of_emitting he, fun ha => hc (advfReady_iff.mp ha).1, fun ha => hc (advbReady_iff.mp ha).1⟩
    · refine ⟨not_joinAtEnd_of_comparing (comparing_of_join hp hjend he hi hj), fun ha => ?_, fun ha => ?_⟩
      · exact BitVec.ne_of_lt (advfReady_iff.mp ha).2 hv
      · exact BitVec.ne_of_lt (advbReady_iff.mp ha).2 hv.symm
  rw [turn, joinTurn, if_neg hend, if_neg hadvf, if_neg hadvb]
  rfl

/-! ### The sequencer (R183, R186, R200, R227) -/

theorem sequencerTurn_of_idle {s : State} (hp : s.phase = .idle) : sequencerTurn s = s := by
  simp only [sequencerTurn, hp]

theorem sequencerTurn_of_short {s : State} (hp : s.phase = .short) :
    sequencerTurn s = if (microProgram s.op).length ≤ s.upc then complete s else s := by
  simp only [sequencerTurn, hp, shortDone, decide_eq_true_eq]

theorem sequencerTurn_of_gen {s : State} (hp : s.phase = .gen) :
    sequencerTurn s = if allGenerated s then { s with phase := .sort } else s := by simp only [sequencerTurn, hp]

theorem sequencerTurn_of_sort {s : State} (hp : s.phase = .sort) :
    sequencerTurn s = if tablesSorted s then { s with phase := .join } else s := by simp only [sequencerTurn, hp]

theorem sequencerTurn_of_join {s : State} (hp : s.phase = .join) :
    sequencerTurn s = if s.jend = true ∧ s.vq = [] then completeSearch s else s := by
  simp only [sequencerTurn, hp, Bool.and_eq_true, List.isEmpty_iff]

theorem tablesSorted_iff {s : State} :
    tablesSorted s = true ↔ (tableEntries s .fwd).Pairwise (· ≤ ·) ∧ (tableEntries s .bwd).Pairwise (· ≤ ·) := by
  simp only [tablesSorted, Bool.and_eq_true, ascending_iff]

end Sys2Proof.Machine

open Sys2Proof Sys2Proof.Machine

/-- Settles O7: each clause's condition is the one that picks the join unit's move. -/
theorem theJoinUnitComparesValuesOnly : Obligations.TheJoinUnitComparesValuesOnly := by
  intro s rest ha hp hjend u vf vb
  rw [step_agent ha]
  refine ⟨fun he => runTurn_join_emitx (emitxReady_iff.mpr ⟨hp, hjend, .inl he⟩),
    fun he => ⟨fun hend => ?_, fun hi hj => ?_⟩⟩
  · exact runTurn_join_atEnd (joinAtEnd_iff.mpr ⟨hp, hjend, he, hend⟩)
  · have hc : comparing u = true := comparing_of_join hp hjend he hi hj
    exact ⟨fun h => runTurn_join_advf (advfReady_iff.mpr ⟨hc, h⟩),
      fun h => runTurn_join_advb (advbReady_iff.mpr ⟨hc, h⟩),
      fun h => runTurn_join_emitx (emitxReady_iff.mpr ⟨hp, hjend, .inr ⟨he, hi, hj, h⟩⟩)⟩

/-- Settles O51, phase by phase: the turn of the sequencer is one choice, by the condition the statement gives. -/
theorem theSequencerMovesOnExactlyWhenThePhaseIsDone :
    Obligations.TheSequencerMovesOnExactlyWhenThePhaseIsDone := by
  intro s rest ha u finished
  have hstep : step s = .next (sequencerTurn u) := step_agent ha
  rw [hstep]
  refine ⟨fun hp => ?_, fun hp => ?_, fun hp hrising => ?_, fun hp => ?_, fun hp => ?_⟩
  · rw [sequencerTurn_of_idle (s := u) hp]
  · rw [sequencerTurn_of_short (s := u) hp]
    rfl
  · have hall : allGenerated u = true ↔ ∀ k, k < s.params.n → k ∈ s.gdone := allGenerated_iff (s := u) hrising
    rw [sequencerTurn_of_gen (s := u) hp]
    exact ⟨fun h => congrArg _ (if_pos (hall.mpr h)), fun h => congrArg _ (if_neg fun hd => h (hall.mp hd))⟩
  · have hsorted := tablesSorted_iff (s := u)
    rw [sequencerTurn_of_sort (s := u) hp]
    exact ⟨fun h => congrArg _ (if_pos (hsorted.mpr h)), fun h => congrArg _ (if_neg fun hd => h (hsorted.mp hd))⟩
  · rw [sequencerTurn_of_join (s := u) hp]
    exact ⟨fun h => ⟨completeSearch u, congrArg _ (if_pos h), rfl⟩, fun h => congrArg _ (if_neg h)⟩

end

section
/-! PROOF. The search at the functional level (44_mitm_engine.md R180, R193 to R195, R201 to R203): the merge-join of
two ascending tables lists the pairs of entries of one value, and the result list is that of the consistent key pairs,
in order. -/

namespace Sys2Proof.Machine

open Sys2Proof.Config

/-! ### The pairs of entries of one value (R194) -/

/-- The key pairs of the entries of `fs` and `bs` with one value, forward-major (R193, R194). -/
def matchingPairs (fs bs : List Entry) : List KeyPair :=
  fs.flatMap fun f => (bs.filter fun b => entryValue b == entryValue f).map fun b => ⟨entryKey f, entryKey b⟩

theorem mem_matchingPairs {fs bs : List Entry} {r : KeyPair} :
    r ∈ matchingPairs fs bs ↔ ∃ f ∈ fs, ∃ b ∈ bs, entryValue b = entryValue f ∧ r = ⟨entryKey f, entryKey b⟩ := by
  simp only [matchingPairs, List.mem_flatMap, List.mem_map, List.mem_filter, beq_iff_eq, and_assoc, @eq_comm _ r]

theorem matchingPairs_append_left (fs fs' bs : List Entry) :
    matchingPairs (fs ++ fs') bs = matchingPairs fs bs ++ matchingPairs fs' bs := List.flatMap_append

/-- Entries that no entry of the other table matches give no pair. -/
theorem matchingPairs_eq_nil {fs bs : List Entry} (h : ∀ f ∈ fs, ∀ b ∈ bs, entryValue b ≠ entryValue f) :
    matchingPairs fs bs = [] := by
  refine List.eq_nil_iff_forall_not_mem.mpr fun r hr => ?_
  obtain ⟨f, hf, b, hb, hv, -⟩ := mem_matchingPairs.mp hr
  exact h f hf b hb hv

/-- Backward entries that no forward entry matches can be left out. -/
theorem matchingPairs_append_right {fs ds : List Entry} (h : ∀ f ∈ fs, ∀ d ∈ ds, entryValue d ≠ entryValue f)
    (bs : List Entry) : matchingPairs fs (ds ++ bs) = matchingPairs fs bs := by
  refine List.flatMap_congr fun f hf => ?_
  have hnil : ds.filter (fun d => entryValue d == entryValue f) = [] :=
    List.filter_eq_nil_iff.mpr fun d hd => by simpa using h f hf d hd
  rw [List.filter_append, hnil, List.nil_append]

/-- Two runs of one value, the backward one with entries of other values after it, give their cross product (R191). -/
theorem matchingPairs_run {fs ds bs : List Entry} {v : Block} (hf : ∀ f ∈ fs, entryValue f = v)
    (hd : ∀ d ∈ ds, entryValue d = v) (hb : ∀ b ∈ bs, entryValue b ≠ v) :
    matchingPairs fs (ds ++ bs) = crossProduct fs ds := by
  refine List.flatMap_congr fun f hff => ?_
  have hall : ds.filter (fun d => entryValue d == entryValue f) = ds :=
    List.filter_eq_self.mpr fun d hdd => by simp [hd d hdd, hf f hff]
  have hnil : bs.filter (fun b => entryValue b == entryValue f) = [] :=
    List.filter_eq_nil_iff.mpr fun b hbb => by simpa [hf f hff] using hb b hbb
  rw [List.filter_append, hall, hnil, List.append_nil]

/-! ### The merge-join lists them (R188 to R195) -/

/-- The entries of a table ascend by value. -/
abbrev ValuesAscend (l : List Entry) : Prop := l.Pairwise fun e d => entryValue e ≤ entryValue d

/-- In an ascending table, the entries past the run of the least value are above it. -/
theorem lt_of_mem_dropWhile {l : List Entry} (h : ValuesAscend l) {v : Block} (hv : ∀ e ∈ l, v ≤ entryValue e)
    {d : Entry} (hd : d ∈ l.dropWhile fun e => entryValue e == v) : v < entryValue d := by
  induction l with
  | nil => simp at hd
  | cons e l ih =>
    obtain ⟨he, hl⟩ := List.pairwise_cons.mp h
    obtain ⟨hve, hvl⟩ := List.forall_mem_cons.mp hv
    rw [List.dropWhile_cons] at hd
    split_ifs at hd with hev
    · exact ih hl hvl hd
    · have hlt : v < entryValue e := BitVec.lt_of_le_ne hve fun hc => hev (beq_iff_eq.mpr hc.symm)
      rcases List.mem_cons.mp hd with rfl | hd
      · exact hlt
      · exact Nat.lt_of_lt_of_le hlt (he d hd)

theorem eq_of_mem_takeWhile {l : List Entry} {v : Block} {e : Entry}
    (he : e ∈ l.takeWhile fun e => entryValue e == v) : entryValue e = v := 
  beq_iff_eq.mp (List.mem_takeWhile_imp (p := fun e => entryValue e == v) he)

/-- The least value of an ascending table is that of its first entry. -/
theorem le_of_mem_cons {e d : Entry} {l : List Entry} (h : ValuesAscend (e :: l)) (hd : d ∈ e :: l) :
    entryValue e ≤ entryValue d := by
  rcases List.mem_cons.mp hd with rfl | hd
  · exact BitVec.le_refl _
  · exact (List.pairwise_cons.mp h).1 d hd

/-- The merge-join compares the two first entries: the smaller one matches nothing, and equal ones stand before two runs
whose cross product comes first (R188 to R191). -/
theorem join_eq_matchingPairs : ∀ fs bs : List Entry, ValuesAscend fs → ValuesAscend bs →
    join fs bs = matchingPairs fs bs
  | [], bs, _, _ => join_nil_left bs
  | f :: fs, [], _, _ => by rw [join_nil_right, matchingPairs_eq_nil fun _ _ => List.forall_mem_nil _]
  | f :: fs, b :: bs, hf, hb => by
    rcases BitVec.lt_trichotomy (entryValue f) (entryValue b) with hlt | heq | hgt
    · have hno : ∀ x ∈ [f], ∀ d ∈ b :: bs, entryValue d ≠ entryValue x := fun x hx d hd => by
        obtain rfl := List.mem_singleton.mp hx
        exact (BitVec.ne_of_lt (Nat.lt_of_lt_of_le hlt (le_of_mem_cons hb hd))).symm
      rw [join_cons_of_lt hlt, join_eq_matchingPairs fs (b :: bs) hf.of_cons hb, ← List.singleton_append (l := fs),
        matchingPairs_append_left, matchingPairs_eq_nil hno, List.nil_append]
    · have hdf := length_dropWhile_run_le f fs
      have hdb : ((b :: bs).dropWhile fun d => entryValue d == entryValue f).length ≤ bs.length :=
        heq ▸ length_dropWhile_run_le b bs
      have hbv : ∀ d ∈ b :: bs, entryValue f ≤ entryValue d := fun d hd => heq ▸ le_of_mem_cons hb hd
      rw [join_cons_of_eq heq, join_eq_matchingPairs _ _ (hf.sublist (List.dropWhile_sublist _))
        (hb.sublist (List.dropWhile_sublist _))]
      conv_rhs =>
        rw [← List.takeWhile_append_dropWhile (p := fun e => entryValue e == entryValue f) (l := f :: fs),
          ← List.takeWhile_append_dropWhile (p := fun e => entryValue e == entryValue f) (l := b :: bs)]
      rw [matchingPairs_append_left, matchingPairs_run (fun _ => eq_of_mem_takeWhile) (fun _ => eq_of_mem_takeWhile)
        fun d hd => (BitVec.ne_of_lt (lt_of_mem_dropWhile hb hbv hd)).symm, matchingPairs_append_right]
      intro x hx d hd
      rw [eq_of_mem_takeWhile hd]
      exact BitVec.ne_of_lt (lt_of_mem_dropWhile hf (fun _ => le_of_mem_cons hf) hx)
    · have hno : ∀ x ∈ f :: fs, ∀ d ∈ [b], entryValue d ≠ entryValue x := fun x hx d hd => by
        obtain rfl := List.mem_singleton.mp hd
        exact BitVec.ne_of_lt (Nat.lt_of_lt_of_le hgt (le_of_mem_cons hf hx))
      rw [join_cons_of_gt hgt, join_eq_matchingPairs (f :: fs) bs hf hb.of_cons, ← List.singleton_append (l := bs),
        matchingPairs_append_right hno]
  termination_by fs bs => fs.length + bs.length
  decreasing_by all_goals simp only [List.length_cons]; omega

/-! ### The sorted tables of a run (R180, R186) -/

theorem pack_entry (e : Entry) : pack (entryValue e) (entryKey e) = e := by
  refine BitVec.eq_of_toNat_eq ?_
  rw [toNat_pack, entryValue, entryKey, BitVec.extractLsb'_toNat, BitVec.extractLsb'_toNat]
  omega

/-- The unsigned order of entries is the order of (value, key) (R96). -/
theorem entry_lt_iff {e d : Entry} :
    e < d ↔ entryValue e < entryValue d ∨ (entryValue e = entryValue d ∧ entryKey e < entryKey d) := by
  conv_lhs => rw [← pack_entry e, ← pack_entry d]
  exact pack_lt_pack _ _ _ _

theorem n_le_of_ok {p : Params} (h : p.Ok) : p.n ≤ 2 ^ 24 := Nat.pow_le_pow_right (by decide) h.kbits_le

theorem mem_keySpace {p : Params} {k : Block} : k ∈ keySpace p ↔ k.toNat < p.n := by
  simp only [keySpace, List.mem_map, List.mem_range]
  constructor
  · rintro ⟨m, hm, rfl⟩
    exact (Nat.mod_le m _).trans_lt hm
  · exact fun hk => ⟨k.toNat, hk, BitVec.ofNat_toNat _ _⟩

/-- A key stands once in the key space, as `N` is at most `2^24` (R6). -/
theorem keySpace_nodup {p : Params} (h : p.Ok) : (keySpace p).Nodup := by
  refine (List.nodup_map_iff_inj_on List.nodup_range).mpr fun x hx y hy hxy => ?_
  have hle := n_le_of_ok h
  rw [List.mem_range] at hx hy
  have hmod : x % 2 ^ 24 = y % 2 ^ 24 := congrArg BitVec.toNat hxy
  rwa [Nat.mod_eq_of_lt (hx.trans_le hle), Nat.mod_eq_of_lt (hy.trans_le hle)] at hmod

/-- The sorted table of the entries that stand for the keys of the key space, the value of key `k` being `V k`. -/
def valueTable (p : Params) (V : Block → Block) : List Entry := sortEntries ((keySpace p).map fun k => pack (V k) k)

theorem forwardTable_eq (p : Params) (x : Block) : forwardTable p x = valueTable p (forwardValue p.tables x) := rfl

theorem backwardTable_eq (p : Params) (y : Block) : backwardTable p y = valueTable p (backwardValue p.tables y) := rfl

theorem mem_valueTable {p : Params} {V : Block → Block} {e : Entry} :
    e ∈ valueTable p V ↔ (entryKey e).toNat < p.n ∧ entryValue e = V (entryKey e) := by
  rw [valueTable, (sortEntries_perm _).mem_iff, List.mem_map]
  constructor
  · rintro ⟨k, hk, rfl⟩
    rw [entryKey_pack, entryValue_pack]
    exact ⟨mem_keySpace.mp hk, rfl⟩
  · exact fun ⟨hk, hv⟩ => ⟨entryKey e, mem_keySpace.mpr hk, by rw [← hv, pack_entry]⟩

/-- No two entries of a table are equal, since their keys differ. -/
theorem valueTable_strict {p : Params} (h : p.Ok) (V : Block → Block) : (valueTable p V).Pairwise (· < ·) := by
  have hnodup : (valueTable p V).Nodup := (sortEntries_perm _).nodup_iff.mpr <|
    (keySpace_nodup h).map fun k k' hk => by simpa only [entryKey_pack] using congrArg entryKey hk
  exact ((sortEntries_ascending _).and hnodup).imp fun hed => BitVec.lt_of_le_ne hed.1 hed.2

theorem valueTable_valuesAscend {p : Params} (h : p.Ok) (V : Block → Block) : ValuesAscend (valueTable p V) :=
  (valueTable_strict h V).imp fun hlt => by
    rcases entry_lt_iff.mp hlt with hv | ⟨hv, -⟩
    · exact BitVec.le_of_lt hv
    · exact hv ▸ BitVec.le_refl _

/-! ### The result list (R180, R193, R201 to R203) -/

/-- `r` comes before `q` in a result list: by the value `V` of the first key, then by the first key, then by the second
one (D17). -/
def PairBefore (V : Block → Block) (r q : KeyPair) : Prop :=
  V r.key1 < V q.key1 ∨ (V r.key1 = V q.key1 ∧ (r.key1 < q.key1 ∨ (r.key1 = q.key1 ∧ r.key2 < q.key2)))

/-- The join of two tables of the key space lists its pairs in order, each once. -/
theorem matchingPairs_ordered {fs bs : List Entry} {V : Block → Block} (hf : fs.Pairwise (· < ·))
    (hb : bs.Pairwise (· < ·)) (hV : ∀ f ∈ fs, entryValue f = V (entryKey f)) :
    (matchingPairs fs bs).Pairwise (PairBefore V) := by
  refine List.pairwise_flatMap.mpr ⟨fun f _ => ?_, hf.imp_of_mem fun {f g} hff hfg hlt => ?_⟩
  · refine List.pairwise_map.mpr ((hb.filter _).imp_of_mem fun {b d} hbb hbd hlt => ?_)
    have hvb : entryValue b = entryValue f := beq_iff_eq.mp (List.mem_filter.mp hbb).2
    have hvd : entryValue d = entryValue f := beq_iff_eq.mp (List.mem_filter.mp hbd).2
    rcases entry_lt_iff.mp hlt with hv | ⟨-, hk⟩
    · exact absurd (hvb.trans hvd.symm) (BitVec.ne_of_lt hv)
    · exact .inr ⟨rfl, .inr ⟨rfl, hk⟩⟩
  · intro r hr q hq
    obtain ⟨b, -, rfl⟩ := List.mem_map.mp hr
    obtain ⟨d, -, rfl⟩ := List.mem_map.mp hq
    simp only [PairBefore, ← hV f hff, ← hV g hfg]
    rcases entry_lt_iff.mp hlt with hv | ⟨hv, hk⟩
    · exact .inl hv
    · exact .inr ⟨hv, .inl hk⟩

theorem join_tables_eq {p : Params} (h : p.Ok) (x y : Block) :
    join (forwardTable p x) (backwardTable p y) = matchingPairs (forwardTable p x) (backwardTable p y) :=
  join_eq_matchingPairs _ _ (valueTable_valuesAscend h _) (valueTable_valuesAscend h _)

/-- A pair is a candidate exactly when its keys meet in the middle (R177, R194). -/
theorem mem_join_tables {p : Params} (h : p.Ok) {x y : Block} {r : KeyPair} :
    r ∈ join (forwardTable p x) (backwardTable p y) ↔
      r.key1.toNat < p.n ∧ r.key2.toNat < p.n ∧ doubleEncrypt p.tables r.key1 r.key2 x = y := by
  have hmeet : doubleEncrypt p.tables r.key1 r.key2 x = y ↔
      forwardValue p.tables x r.key1 = backwardValue p.tables y r.key2 := encrypt_eq_iff h.tables_ok _ _ _
  rw [join_tables_eq h, mem_matchingPairs, forwardTable_eq, backwardTable_eq, hmeet]
  constructor
  · rintro ⟨f, hf, b, hb, hv, rfl⟩
    obtain ⟨hfk, hfv⟩ := mem_valueTable.mp hf
    obtain ⟨hbk, hbv⟩ := mem_valueTable.mp hb
    exact ⟨hfk, hbk, hfv.symm.trans (hv.symm.trans hbv)⟩
  · rintro ⟨h1, h2, hv⟩
    refine ⟨pack (forwardValue p.tables x r.key1) r.key1, mem_valueTable.mpr ?_,
      pack (backwardValue p.tables y r.key2) r.key2, mem_valueTable.mpr ?_, ?_⟩
    · rw [entryKey_pack, entryValue_pack]
      exact ⟨h1, rfl⟩
    · rw [entryKey_pack, entryValue_pack]
      exact ⟨h2, rfl⟩
    · simp only [entryKey_pack, entryValue_pack, hv, and_self]

theorem mem_searchResult {p : Params} (h : p.Ok) {x1 y1 x2 y2 : Block} {r : KeyPair} :
    r ∈ searchResult p x1 y1 x2 y2 ↔ r.key1.toNat < p.n ∧ r.key2.toNat < p.n ∧
      doubleEncrypt p.tables r.key1 r.key2 x1 = y1 ∧ doubleEncrypt p.tables r.key1 r.key2 x2 = y2 := by
  rw [searchResult, List.mem_filter, mem_join_tables h, verifies, beq_iff_eq, and_assoc, and_assoc]

theorem searchResult_ordered {p : Params} (h : p.Ok) (x1 y1 x2 y2 : Block) :
    (searchResult p x1 y1 x2 y2).Pairwise (PairBefore (forwardValue p.tables x1)) := by
  rw [searchResult, join_tables_eq h]
  exact (matchingPairs_ordered (valueTable_strict h _) (valueTable_strict h _)
    fun f hf => (mem_valueTable.mp hf).2).filter _

end Sys2Proof.Machine

open Sys2Proof Sys2Proof.Machine

/-- Settles O55: the list of the statement is that of the pairs of entries of one value. -/
theorem theJoinEmitsEveryMatchingPairOnce : Obligations.TheJoinEmitsEveryMatchingPairOnce :=
  join_eq_matchingPairs

/-- Settles O56, by the keys that meet in the middle, and by the order of the pairs of two strictly ascending tables. -/
theorem theResultListIsAllConsistentKeyPairs : Obligations.TheResultListIsAllConsistentKeyPairs :=
  fun _ x1 y1 x2 y2 h => ⟨fun _ => mem_searchResult h, searchResult_ordered h x1 y1 x2 y2⟩

end

section
/-! PROOF. Progress with nothing scheduled (45_host_interface.md R205; 70_reset_and_hazards.md R277, R290; log 2):
phase by phase, what the default agent does lowers the work left. -/

namespace Sys2Proof.Machine

open Sys2Proof.Config

/-! ### The work left, phase by phase -/

/-- The turns `VQ` still asks for: a verdict and a retirement, or a retirement alone (R197, R198). -/
def queueWork (q : List QueueEntry) : Nat := (q.map fun e => if e.verdict = .pending then 2 else 1).sum

/-- The turns the join unit still has, and those of the candidates it has still to emit (R188 to R192). -/
def joinWork (s : State) : Nat :=
  if s.jend then 1 else 2 + (s.params.n - s.i) + (s.params.n - s.j) + 3 * (joinRest s).length

/-- The work of a join that has not begun, for the tables of a run. -/
def searchWork (s : State) : Nat :=
  2 * s.params.n + 3 * (join (forwardTable s.params s.p1) (backwardTable s.params s.c1)).length + 2

theorem workLeft_of_idle {s : State} (hp : s.phase = .idle) : workLeft s = 0 := by simp only [workLeft, hp]

theorem workLeft_of_short {s : State} (hp : s.phase = .short) :
    workLeft s = (microProgram s.op).length - s.upc + 1 := by simp only [workLeft, hp]

theorem workLeft_of_gen {s : State} (hp : s.phase = .gen) :
    workLeft s = searchWork s + 3 + (s.params.n - nextKey 0 s.gdone) := by simp only [workLeft, hp, searchWork]

theorem workLeft_of_sort {s : State} (hp : s.phase = .sort) :
    workLeft s = searchWork s + if tablesSorted s then 1 else 2 := by simp only [workLeft, hp, searchWork]

theorem workLeft_of_join {s : State} (hp : s.phase = .join) : workLeft s = queueWork s.vq + joinWork s := by
  simp only [workLeft, hp, queueWork, joinWork]

theorem joinWork_of_jend {s : State} (h : s.jend = true) : joinWork s = 1 := if_pos h

theorem joinWork_of_not_jend {s : State} (h : s.jend = false) :
    joinWork s = 2 + (s.params.n - s.i) + (s.params.n - s.j) + 3 * (joinRest s).length := by simp [joinWork, h]

@[simp] theorem queueWork_cons (r : KeyPair) (v : Verdict) (q : List QueueEntry) :
    queueWork (⟨r, v⟩ :: q) = (if v = .pending then 2 else 1) + queueWork q := rfl

theorem queueWork_append_pending (q : List QueueEntry) (r : KeyPair) :
    queueWork (q ++ [⟨r, .pending⟩]) = queueWork q + 2 := by simp [queueWork]

theorem step_default {s : State} (ha : s.agenda = []) : step s = runTurn (turn (defaultAgent s) s) := by
  simp only [step_eq_runTurn, fetch, ha]

/-! ### A short command (R227) -/

theorem workLeft_lt_of_short {s t : State} (ha : s.agenda = []) (hp : s.phase = .short) (h : step s = .next t) :
    workLeft t < workLeft s := by
  rw [workLeft_of_short hp]
  by_cases hd : (microProgram s.op).length ≤ s.upc
  · obtain rfl := Host.Outcome.next.inj ((step_short_done ha hp hd).symm.trans h)
    rw [workLeft_of_idle rfl]
    exact Nat.succ_pos _
  · have hm := List.getElem?_eq_getElem (Nat.lt_of_not_le hd)
    obtain rfl := Host.Outcome.next.inj ((step_micro ha hp hm).symm.trans h)
    obtain ⟨-, hph, hop, hupc, -⟩ := microNext_frame hm
    rw [workLeft_of_short (hph.trans hp), hop, hupc]
    omega

/-! ### Generation (R182 to R185) -/

/-- Marking the least key to come moves on to a greater one. -/
theorem nextKey_lt_markKey {l : List Nat} (h : l.Pairwise (· < ·)) :
    nextKey 0 l < nextKey 0 (markKey l (nextKey 0 l)) := by
  obtain ⟨-, -, hbelow⟩ := nextKey_spec h 0 fun m _ => Nat.zero_le m
  obtain ⟨-, hnot, -⟩ := nextKey_spec (markKey_rising h (nextKey 0 l)) 0 fun m _ => Nat.zero_le m
  by_contra hle
  refine hnot (mem_markKey.mpr ?_)
  rcases Nat.lt_or_eq_of_le (Nat.le_of_not_lt hle) with hlt | heq
  · exact .inr (hbelow _ (Nat.zero_le _) hlt)
  · exact .inl heq

theorem workLeft_lt_of_gen {s t : State} (hok : s.params.Ok) (hs : GenInv s) (ha : s.agenda = []) (hp : s.phase = .gen)
    (h : step s = .next t) : workLeft t < workLeft s := by
  rw [step_default ha] at h
  rw [workLeft_of_gen hp]
  by_cases hd : allGenerated s = true
  · have hg : defaultAgent s = .sequencer := by simp only [defaultAgent, hp, hd, if_true]
    rw [hg] at h
    obtain rfl : sequencerTurn s = t := Host.Outcome.next.inj h
    rw [sequencerTurn_of_gen hp, if_pos hd, workLeft_of_sort rfl]
    have hw : searchWork { s with phase := .sort } = searchWork s := rfl
    rw [hw]
    split <;> omega
  · have hlt : nextKey 0 s.gdone < s.params.n := by simpa [allGenerated] using hd
    have hkey : (BitVec.ofNat 24 (nextKey 0 s.gdone)).toNat = nextKey 0 s.gdone :=
      Nat.mod_eq_of_lt (hlt.trans_le (n_le_of_ok hok))
    have hnew := (nextKey_spec hs.rising 0 fun m _ => Nat.zero_le m).2.1
    have hg : defaultAgent s = .worker 0 (BitVec.ofNat 24 (nextKey 0 s.gdone)) := by
      simp only [defaultAgent, hp, hd, Bool.false_eq_true, if_false]
    rw [hg] at h
    have hready : genReady s 0 (BitVec.ofNat 24 (nextKey 0 s.gdone)) = true :=
      genReady_iff.mpr ⟨hp, hok.workers_pos, by rwa [hkey], by rwa [hkey]⟩
    have ht := Host.Outcome.next.inj ((exec_gen_of_ready hready).symm.trans h)
    have hp' : t.phase = .gen := by rw [← ht]; exact hp
    have hn : t.params = s.params := by rw [← ht]; rfl
    have hg' : t.gdone = markKey s.gdone (nextKey 0 s.gdone) := by rw [← ht, hkey]
    have hw : searchWork t = searchWork s := by rw [← ht]; rfl
    have hnext := nextKey_lt_markKey hs.rising
    rw [workLeft_of_gen hp', hw, hn, hg']
    omega

/-! ### Sorting (R186) -/

theorem tablesSorted_sorted (s : State) : tablesSorted (sorted s) = true := by
  rw [tablesSorted_iff, tableEntries_sorted, tableEntries_sorted]
  exact ⟨sortEntries_ascending _, sortEntries_ascending _⟩

/-- All the work of a search is ahead of a join that begins on the sorted tables. -/
theorem joinWork_of_sortInv {s : State} (hs : SortInv s) (hd : tablesSorted s = true) :
    queueWork s.vq + joinWork s = searchWork s := by
  obtain ⟨hF, hB⟩ := hs.tableEntries_eq hd
  have hrest : joinRest s = join (forwardTable s.params s.p1) (backwardTable s.params s.c1) := by
    have hunderway := underway_of_notBegun hs.begun
    rwa [underway, hs.begun.vq_nil, hF, hB] at hunderway
  rw [joinWork_of_not_jend hs.begun.jend_false, hs.begun.vq_nil, hs.begun.i_zero, hs.begun.j_zero, hrest, searchWork,
    queueWork]
  simp only [List.map_nil, List.sum_nil]
  omega

theorem workLeft_lt_of_sort {s t : State} (hs : SortInv s) (ha : s.agenda = []) (hp : s.phase = .sort)
    (h : step s = .next t) : workLeft t < workLeft s := by
  rw [step_default ha] at h
  rw [workLeft_of_sort hp]
  by_cases hd : tablesSorted s = true
  · have hg : defaultAgent s = .sequencer := by simp only [defaultAgent, hp, hd, if_true]
    rw [hg] at h
    obtain rfl : sequencerTurn s = t := Host.Outcome.next.inj h
    have hw : queueWork s.vq + joinWork { s with phase := .join } = searchWork s := joinWork_of_sortInv hs hd
    rw [sequencerTurn_of_sort hp, if_pos hd, workLeft_of_join rfl, if_pos hd, hw]
    exact Nat.lt_succ_self _
  · have hg : defaultAgent s = .sorter := by simp only [defaultAgent, hp, hd, Bool.false_eq_true, if_false]
    rw [hg] at h
    obtain rfl := Host.Outcome.next.inj ((exec_sort_of_phase hp).symm.trans h)
    have hp' : (sorted s).phase = .sort := hp
    have hw : searchWork (sorted s) = searchWork s := rfl
    rw [workLeft_of_sort hp', if_pos (tablesSorted_sorted s), if_neg hd, hw]
    omega

/-! ### The join (R188 to R192) -/

/-- An emission moves no cursor back (R191). -/
theorem le_emitAdvance {s : State} (he : emitting s = true) : s.i ≤ (emitAdvance s).i ∧ s.j ≤ (emitAdvance s).j := by
  obtain ⟨hi, hj⟩ := emitting_iff.mp he
  rw [emitAdvance_eq]
  constructor <;> dsimp only <;> split <;> omega

theorem emitBegin_cursors (s : State) : (emitBegin s).i = s.i ∧ (emitBegin s).j = s.j := by
  rw [emitBegin_frame]
  exact ⟨rfl, rfl⟩

theorem emit_vq (s : State) :
    ∃ r, (emitAdvance (emitPair (emitBegin s))).vq = s.vq ++ [⟨r, .pending⟩] := by
  rw [emit_frame, emitBegin_frame]
  exact ⟨_, rfl⟩

/-- One emission puts a candidate, which asks for two turns more, where the join has one less to emit. -/
theorem work_emit_lt {s : State} (hcur : CursorInv s) (hr : emitxReady s = true) :
    queueWork (emitAdvance (emitPair (emitBegin s))).vq + joinWork (emitAdvance (emitPair (emitBegin s))) <
      queueWork s.vq + joinWork s := by
  obtain ⟨hp, hjend, -⟩ := emitxReady_iff.mp hr
  obtain ⟨-, he⟩ := cursorInv_emitBegin hcur hr
  obtain ⟨hbi, hbj⟩ := emitBegin_cursors s
  have hmoves := le_emitAdvance (s := emitPair (emitBegin s)) he
  have hi : s.i ≤ (emitAdvance (emitPair (emitBegin s))).i := hbi.ge.trans hmoves.1
  have hj : s.j ≤ (emitAdvance (emitPair (emitBegin s))).j := hbj.ge.trans hmoves.2
  have hu := congrArg List.length (underway_emit hcur hr)
  have hjend' : (emitAdvance (emitPair (emitBegin s))).jend = false := by rw [emit_frame]; exact hjend
  have hn : (emitAdvance (emitPair (emitBegin s))).params = s.params := by rw [emit_frame]
  obtain ⟨r, hvq⟩ := emit_vq s
  simp only [underway, hvq, List.length_append, List.length_map, List.length_singleton] at hu
  rw [hvq, queueWork_append_pending, joinWork_of_not_jend hjend', joinWork_of_not_jend hjend, hn]
  omega

/-- With the join on, the join unit has a move, and it lowers the work left. -/
theorem work_join_turn_lt {s t : State} (hcur : CursorInv s) (hp : s.phase = .join) (hjend : s.jend = false)
    (hroom : s.vq.length < s.params.lanes) (h : runTurn (turn .join s) = .next t) :
    t.phase = .join ∧ queueWork t.vq + joinWork t < queueWork s.vq + joinWork s := by
  have emit (hr : emitxReady s = true) :
      t.phase = .join ∧ queueWork t.vq + joinWork t < queueWork s.vq + joinWork s := by
    rw [runTurn_join_emitx hr, exec_emitx_of_ready hr hroom] at h
    obtain rfl := Host.Outcome.next.inj h
    exact ⟨by rw [emit_frame]; exact hp, work_emit_lt hcur hr⟩
  by_cases he : emitting s = true
  · exact emit (emitxReady_iff.mpr ⟨hp, hjend, .inl he⟩)
  rw [Bool.not_eq_true] at he
  rw [joinWork_of_not_jend hjend]
  by_cases hend : s.params.n ≤ s.i ∨ s.params.n ≤ s.j
  · have hr := joinAtEnd_iff.mpr ⟨hp, hjend, he, hend⟩
    obtain rfl := Host.Outcome.next.inj ((runTurn_join_atEnd hr).symm.trans h)
    rw [joinWork_of_jend rfl]
    exact ⟨hp, by dsimp only; omega⟩
  obtain ⟨hi, hj⟩ : s.i < s.params.n ∧ s.j < s.params.n := by omega
  have hc := comparing_of_join hp hjend he hi hj
  rcases BitVec.lt_trichotomy (valueF s) (valueB s) with hlt | heq | hgt
  · have hr := advfReady_iff.mpr ⟨hc, hlt⟩
    obtain rfl := Host.Outcome.next.inj ((runTurn_join_advf hr).symm.trans h)
    refine ⟨hp, ?_⟩
    rw [joinWork_of_not_jend (s := { s with i := s.i + 1 }) hjend, joinRest_advf hr]
    dsimp only
    omega
  · rw [← joinWork_of_not_jend hjend]
    exact emit (emitxReady_iff.mpr ⟨hp, hjend, .inr ⟨he, hi, hj, heq⟩⟩)
  · have hr := advbReady_iff.mpr ⟨hc, hgt⟩
    obtain rfl := Host.Outcome.next.inj ((runTurn_join_advb hr).symm.trans h)
    refine ⟨hp, ?_⟩
    rw [joinWork_of_not_jend (s := { s with j := s.j + 1 }) hjend, joinRest_advb hr]
    dsimp only
    omega

/-! ### Verification and delivery (R197 to R199) -/

/-- The default agent in phase JOIN while `RF` has room: the retirement of a head with a verdict, the verdict of a head
that has none, or, with `VQ` empty, the sequencer after the join and the join unit before its end (log 2). -/
theorem defaultAgent_join {s : State} (hp : s.phase = .join) (hroom : s.rf.length < s.params.fifoDepth) :
    (∃ r v q, s.vq = ⟨r, v⟩ :: q ∧ v ≠ .pending ∧ defaultAgent s = .retirement) ∨
      (∃ r q, s.vq = ⟨r, .pending⟩ :: q ∧ defaultAgent s = .lane 0 0) ∨
      (s.vq = [] ∧ defaultAgent s = if s.jend then .sequencer else .join) := by
  rcases hq : s.vq with _ | ⟨⟨r, v⟩, q⟩
  · refine .inr (.inr ⟨rfl, ?_⟩)
    simp [defaultAgent, hp, retireReady, hq]
  · cases v with
    | fail => exact .inl ⟨r, _, q, rfl, by decide, by simp [defaultAgent, hp, retireReady, hq]⟩
    | pass => exact .inl ⟨r, _, q, rfl, by decide, by simp [defaultAgent, hp, retireReady, hq, hroom]⟩
    | pending => exact .inr (.inl ⟨r, q, rfl, by simp [defaultAgent, hp, retireReady, hq, List.findIdx?_cons]⟩)

theorem verdictOf_ne_pending (s : State) (r : KeyPair) : verdictOf s r ≠ .pending := by
  unfold verdictOf
  split <;> decide

theorem workLeft_lt_of_join {s t : State} (hok : s.params.Ok) (hs : JoinInv s) (ha : s.agenda = [])
    (hp : s.phase = .join) (hroom : s.rf.length < s.params.fifoDepth) (h : step s = .next t) :
    workLeft t < workLeft s := by
  rw [step_default ha] at h
  rw [workLeft_of_join hp]
  rcases defaultAgent_join hp hroom with ⟨r, v, q, hq, hv, hg⟩ | ⟨r, q, hq, hg⟩ | ⟨hq, hg⟩
  · rw [hg] at h
    obtain ⟨rf, ht⟩ : ∃ rf, { s with vq := q, rf := rf } = t := by
      cases v with
      | pending => exact absurd rfl hv
      | fail => exact ⟨s.rf, Host.Outcome.next.inj ((exec_retire_fail hp hq).symm.trans h)⟩
      | pass =>
        have hpush := (exec_retire_pass hp hq).trans (if_pos hroom)
        exact ⟨_, Host.Outcome.next.inj (hpush.symm.trans h)⟩
    have hp' : t.phase = .join := by rw [← ht]; exact hp
    have hvq : t.vq = q := by rw [← ht]
    have hw : joinWork t = joinWork s := by rw [← ht]; rfl
    rw [workLeft_of_join hp', hvq, hw, hq, queueWork_cons, if_neg hv]
    omega
  · rw [hg] at h
    have hn : s.vq[0]? = some ⟨r, .pending⟩ := by rw [hq]; rfl
    have ht := Host.Outcome.next.inj ((exec_verify_of_pending hp hok.lanes_pos hn).symm.trans h)
    have hp' : t.phase = .join := by rw [← ht]; exact hp
    have hvq : t.vq = ⟨r, verdictOf s r⟩ :: q := by rw [← ht, hq]; rfl
    have hw : joinWork t = joinWork s := by rw [← ht]; rfl
    rw [workLeft_of_join hp', hvq, hw, hq, queueWork_cons, queueWork_cons, if_neg (verdictOf_ne_pending s r),
      if_pos rfl]
    omega
  · rw [hg] at h
    by_cases hjend : s.jend = true
    · rw [if_pos hjend] at h
      obtain rfl : sequencerTurn s = t := Host.Outcome.next.inj h
      rw [sequencerTurn_of_join hp, if_pos ⟨hjend, hq⟩, workLeft_of_idle rfl, joinWork_of_jend hjend]
      exact Nat.succ_pos _
    · rw [if_neg hjend] at h
      obtain ⟨hp', hlt⟩ := work_join_turn_lt hs.cursors hp (by simpa using hjend) (by rw [hq]; exact hok.lanes_pos) h
      rwa [workLeft_of_join hp']

end Sys2Proof.Machine

open Sys2Proof Sys2Proof.Machine

/-- Settles O59, phase by phase: the turn of the default agent is effective, and takes off the work it has done. -/
theorem everyTurnBringsARunningCommandNearerToItsEnd : Obligations.EveryTurnBringsARunningCommandNearerToItsEnd := by
  intro s t hok hst hs ha hb hroom h
  cases hp : s.phase with
  | idle => exact absurd hp (hst.busy_iff.mp hb)
  | short => exact workLeft_lt_of_short ha hp h
  | gen => exact workLeft_lt_of_gen hok (hs.genInv hp) ha hp h
  | sort => exact workLeft_lt_of_sort (hs.sortInv hp) ha hp h
  | join => exact workLeft_lt_of_join hok (hs.joinInv hp) ha hp hroom h

end

section
/-! PROOF. The host interface (45_host_interface.md R220 to R225; 20_memory.md R65, R67): what a read returns, what an
operand write, a command word and a pop do, and that `NOP` runs to its completion (R223, R227). -/

namespace Sys2Proof.Machine

open Sys2Proof.Config

/-! ### Command words (R222) -/

/-- The instruction of a command word (R92). -/
def Op.instr : Op → Instr
  | .nop => .nop
  | .ksched => .ksched
  | .enc => .enc
  | .dec => .dec
  | .denc => .denc
  | .mitm => .mitm

theorem exec_instr (o : Op) (s : State) : exec o.instr s = .next (command o s) := by cases o <;> rfl

theorem exec_instr_short {o : Op} (ho : o ≠ .mitm) {s : State} (hb : s.busy = false) :
    exec o.instr s = .next (beginCommand o .short s) := by
  rw [exec_instr, command_of_ready hb, accept_short ho]

theorem exec_instr_mitm {s : State} (hb : s.busy = false) :
    exec .mitm s = .next (beginCommand .mitm .gen (flush s)) := by
  rw [← accept_mitm, ← command_of_ready hb]
  exact exec_instr .mitm s

theorem exec_instr_of_busy {s : State} (hb : s.busy = true) (o : Op) :
    exec o.instr s = .next (refuse .busywr s) := by
  rw [exec_instr, command_of_busy hb]

/-! ### Reads (R220, R225) -/

theorem isResultIndex_iff {x : Index} : isResultIndex x = true ↔ x = 0x05 ∨ (0x10 ≤ x ∧ x ≤ 0x1A) := by
  simp [isResultIndex, ← BitVec.toNat_inj, BitVec.le_def]

theorem drawsFree_iff {s : State} {x : Index} :
    drawsFree s x = true ↔ s.busy = true ∧ (x = 0x05 ∨ (0x10 ≤ x ∧ x ≤ 0x1A)) := by
  rw [drawsFree, Bool.and_eq_true, isResultIndex_iff]

theorem exec_rd_stored {s : State} {x : Index} (h : ¬drawsFree s x = true) :
    exec (.rd x) s = .next { s with rdata := storedWord s x } := by
  simp only [exec, execRd, hostRead, if_neg h]

theorem exec_rd_free {s : State} {x : Index} (h : drawsFree s x = true) :
    exec (.rd x) s = .next { s with rdata := zext32 (busyRead s.draws), draws := s.draws + 1 } := by
  simp only [exec, execRd, hostRead, if_pos h]

theorem storedWord_result_nil {s : State} (h : s.rf = []) : storedWord s 0x0A = 0 ∧ storedWord s 0x0B = 0 := by
  simp [storedWord, h]

theorem storedWord_result_cons {s : State} {r : KeyPair} {q : List KeyPair} (h : s.rf = r :: q) :
    storedWord s 0x0A = zext32 r.key1 ∧ storedWord s 0x0B = zext32 r.key2 := by
  simp [storedWord, h]

theorem storedWord_roundKey (s : State) (n : Fin 11) :
    storedWord s (BitVec.ofNat 6 (0x10 + n.val)) = zext32 s.rk[n] := by
  fin_cases n <;> rfl

/-- Write-only and unmapped indices read as 0 (R67). -/
theorem storedWord_eq_zero (s : State) {x : Index}
    (hx : x = 0x00 ∨ x = 0x0C ∨ (0x0D ≤ x ∧ x ≤ 0x0F) ∨ 0x1B ≤ x) : storedWord s x = 0 := by
  have hn : x.toNat = 0 ∨ x.toNat = 12 ∨ (13 ≤ x.toNat ∧ x.toNat ≤ 15) ∨ 27 ≤ x.toNat := by
    simpa [← BitVec.toNat_inj, BitVec.le_def] using hx
  unfold storedWord
  split
  case h_12 => exact dif_neg (by omega)
  all_goals omega

theorem zext32_top_zero (b : Block) : (zext32 b).extractLsb' 24 8 = 0 := by
  ext i hi
  simp [zext32]

/-! ### Operand writes and pops (R221, R224) -/

theorem exec_write_of_ready {s : State} (hb : s.busy = false) {i : Instr} {d : HostWord} (r : OperandReg)
    (hexec : exec i s = .next (writeOperand r d s)) : exec i s = .next (setOperand r (d.extractLsb' 0 24) s) := by
  rw [hexec, writeOperand_of_ready hb, low24_eq]

theorem exec_pop (s : State) : exec .pop s = .next { s with rf := s.rf.tail } := rfl

theorem decode_write_respop (d : HostWord) : decode (txn true 0x0C d) = .pop := decode_txn_write 0x0C d

end Sys2Proof.Machine

open Sys2Proof Sys2Proof.Machine Sys2Proof.Config

/-- Settles O39: `NOP` has no micro-step, so the one turn after its acceptance is its completion. -/
theorem nopOnlyClearsTheError : Obligations.NopOnlyClearsTheError := fun _ hb ha =>
  ⟨_, exec_instr_short (o := .nop) (by decide) hb, run_short [] ha rfl rfl⟩

/-- Settles O19, with the stored word: the reads left out are those that draw a free value. -/
theorem aReadReturnsTheWordOfItsIndex : Obligations.AReadReturnsTheWordOfItsIndex := fun s =>
  ⟨storedWord s, fun _ hx => exec_rd_stored fun h => hx (drawsFree_iff.mp h), rfl, rfl, rfl, rfl, rfl, rfl, rfl, rfl,
    rfl, storedWord_result_nil, fun _ _ => storedWord_result_cons, storedWord_roundKey s, fun _ => storedWord_eq_zero s⟩

/-- Settles O20: the word is a free value, widened. -/
theorem aReadOfAResultWhileBusyIsAnyBlock : Obligations.AReadOfAResultWhileBusyIsAnyBlock := fun s _ hb hx =>
  ⟨busyRead s.draws, exec_rd_free (drawsFree_iff.mpr ⟨hb, hx⟩), zext32_top_zero _⟩

/-- Settles O21, register by register. -/
theorem anOperandWriteStoresTheLow24Bits : Obligations.AnOperandWriteStoresTheLow24Bits := by
  intro s d hb
  have stores {i : Instr} := exec_write_of_ready hb (i := i) (d := d)
  exact ⟨stores .k1 rfl, stores .k2 rfl, stores .din rfl, stores .p1 rfl, stores .c1 rfl, stores .p2 rfl, stores .c2 rfl,
    stores (.rk 0) rfl, stores (.rk 1) rfl, stores (.rk 2) rfl, stores (.rk 3) rfl, stores (.rk 4) rfl,
    stores (.rk 5) rfl, stores (.rk 6) rfl, stores (.rk 7) rfl, stores (.rk 8) rfl, stores (.rk 9) rfl,
    stores (.rk 10) rfl⟩

/-- Settles O24: a command word is an acceptance or a refusal, as `BUSY` says. -/
theorem commandsAreAcceptedExactlyWhenReady : Obligations.CommandsAreAcceptedExactlyWhenReady := by
  refine fun s => ⟨fun hb => ⟨?_, 0, exec_instr_mitm hb⟩, fun hb => ?_⟩
  · change ∀ io ∈ [Op.nop, .ksched, .enc, .dec, .denc].map fun o => (o.instr, o), _
    rw [List.forall_mem_map]
    exact fun o ho => ⟨0, exec_instr_short (by rintro rfl; simp at ho) hb⟩
  · change ∀ i ∈ [Op.nop, .ksched, .enc, .dec, .denc, .mitm].map Op.instr, _
    rw [List.forall_mem_map]
    exact fun o _ => exec_instr_of_busy hb o

/-- Settles O26: a pop leaves the tail of `RF`, which is `RF` itself when it is empty. -/
theorem popRemovesTheHead : Obligations.PopRemovesTheHead := by
  refine ⟨decode_write_respop, fun s => ⟨?_, fun r q h => ?_, fun h => ?_⟩⟩
  · rw [(statusWord_bits s).2, rvalid, decide_eq_true_iff]
  · rw [exec_pop, h, List.tail_cons]
  · have htail : s.rf.tail = s.rf := by rw [h, List.tail_nil]
    rw [exec_pop, htail]

end

section
/-! PROOF. Exceptions (60_exceptions.md R240 to R248): every step completes, an agent's turn runs its own
micro-operation, and the one exception of the core, a refused host write, is the one way `ERR` and `CAUSE` are set. -/

namespace Sys2Proof.Machine

/-! ### Every step completes (R240) -/

theorem step_reset {s : State} {rest : List Event} (ha : s.agenda = .reset :: rest) :
    step s = .next (resetCore { s with agenda := rest }) := by simp only [step, fetch, ha]

theorem exists_runTurn_turn (g : Agent) (s : State) : ∃ t, runTurn (turn g s) = .next t := by
  obtain ⟨t, ht, -⟩ := agentStep_turn g s
  exact ⟨t, ht⟩

/-! ### What comes when nothing is scheduled (log 2) -/

theorem step_agent_default {s : State} (ha : s.agenda = []) :
    step s = step { s with agenda := [.agent (defaultAgent s)] } := by
  have hs : { s with agenda := [] } = s := by rw [← ha]
  rw [step_default ha, step_agent (s := { s with agenda := [.agent (defaultAgent s)] }) rfl]
  exact congrArg (fun u => runTurn (turn (defaultAgent s) u)) hs.symm

/-! ### Operand writes (R221) -/

/-- The eighteen operand registers, in the order of their indices (R66). -/
def operandRegs : List OperandReg := [.k1, .k2, .din, .p1, .c1, .p2, .c2] ++ (List.finRange 11).map .rk

/-- The write an index of an operand register decodes to. -/
theorem exec_decodeWrite_index (r : OperandReg) (d : HostWord) (s : State) :
    exec (decodeWrite r.index d) s = .next (writeOperand r d s) := by
  cases r
  case rk i => fin_cases i <;> rfl
  all_goals rfl

theorem exec_decodeWrite_of_busy {s : State} (hb : s.busy = true) (r : OperandReg) (d : HostWord) :
    exec (decodeWrite r.index d) s = .next (refuse .busywr s) := by
  rw [exec_decodeWrite_index, writeOperand_of_busy hb]

/-! ### `ERR` and `CAUSE` (R241, R245) -/

/-- The fields a refusal sets. -/
def errorFields (s : State) : Bool × Cause := (s.err, s.cause)

/-- The access `i`, issued in `s`, assigns `ERR` and `CAUSE` of `t`: an accepted command clears both (R222), a refused
write sets both (R241). -/
def AssignsError (i : Instr) (s t : State) : Prop :=
  (s.busy = false ∧ i ∈ [Instr.nop, .ksched, .enc, .dec, .denc, .mitm] ∧ t.err = false ∧ t.cause = .noCause) ∨
    ((s.busy = true ∨ (∃ d, i = .illcmd d) ∨ ∃ x, i = .badwr x) ∧ t.err = true ∧ t.cause ≠ .noCause)

theorem accept_err_cause (o : Op) (s : State) : (accept o s).err = false ∧ (accept o s).cause = .noCause := by
  unfold accept
  split <;> exact ⟨rfl, rfl⟩

theorem assignsError_command {o : Op} {i : Instr} (hi : o.instr = i) (s : State) : AssignsError i s (command o s) := by
  subst hi
  cases hb : s.busy with
  | true =>
    rw [command_of_busy hb]
    exact .inr ⟨.inl hb, rfl, nofun⟩
  | false =>
    rw [command_of_ready hb]
    exact .inl ⟨hb, by cases o <;> decide, accept_err_cause o s⟩

/-- An operand write is refused while a command runs, and else leaves both fields alone. -/
theorem writeOperand_error (i : Instr) (r : OperandReg) (d : HostWord) (s : State) :
    errorFields (writeOperand r d s) = errorFields s ∨ AssignsError i s (writeOperand r d s) := by
  cases hb : s.busy with
  | true =>
    rw [writeOperand_of_busy hb]
    exact .inr (.inr ⟨.inl hb, rfl, nofun⟩)
  | false =>
    rw [writeOperand_of_ready hb]
    exact .inl (by simp only [errorFields, setOperand_err, setOperand_cause])

/-- A host access leaves `ERR` and `CAUSE` as they are, or is a write other than a pop that assigns both. -/
theorem exec_host_error {i : Instr} (hi : (encode i).isSome = true) {s t : State} (h : exec i s = .next t) :
    errorFields t = errorFields s ∨ ((∀ x, i ≠ .rd x) ∧ i ≠ .pop ∧ AssignsError i s t) := by
  cases i <;> simp only [encode, Option.isSome_some, Option.isSome_none, Bool.false_eq_true] at hi <;>
    obtain rfl := Host.Outcome.next.inj h
  case rd | pop => exact .inl rfl
  case illcmd d => exact .inr ⟨nofun, nofun, .inr ⟨.inr (.inl ⟨d, rfl⟩), rfl, nofun⟩⟩
  case badwr x => exact .inr ⟨nofun, nofun, .inr ⟨.inr (.inr ⟨x, rfl⟩), rfl, nofun⟩⟩
  case nop | ksched | enc | dec | denc | mitm => exact .inr ⟨nofun, nofun, assignsError_command (by rfl) s⟩
  all_goals exact (writeOperand_error _ _ _ s).imp_right fun ha => ⟨nofun, nofun, ha⟩

/-- No turn of an agent changes `ERR` or `CAUSE` (R245). -/
theorem AgentStep.errorFields_eq {s t : State} (h : AgentStep s t) : errorFields t = errorFields s := by
  cases h with
  | micro m _ hm => rw [(runMicro_frame (List.mem_of_getElem? hm) _).1]; rfl
  | emitx => rw [emit_frame]; rfl
  | _ => rfl

end Sys2Proof.Machine

namespace Sys2Proof

/-- What decodes to no read is a write (R100 line 1). -/
theorem txnRw_of_decode_ne_rd {w : Txn} (h : ∀ x, decode w ≠ .rd x) : txnRw w = true := by
  by_contra hw
  exact h (txnIndex w) (if_neg hw)

end Sys2Proof

open Sys2Proof Sys2Proof.Machine

/-- Settles O11, by the event at the head of the agenda: a host access and an agent's turn complete, and reset is no
instruction. -/
theorem noStepFails : Obligations.NoStepFails := by
  intro s
  match ha : s.agenda with
  | [] => rw [step_default ha]; exact exists_runTurn_turn _ _
  | .host w :: rest =>
    obtain ⟨t, ht, -⟩ := hostStep_of_decode w { s with agenda := rest }
    exact ⟨t, (step_host ha).trans ht⟩
  | .reset :: rest => exact ⟨_, step_reset ha⟩
  | .agent g :: rest => rw [step_agent ha]; exact exists_runTurn_turn _ _

/-- Settles O35, by the cases of a step: a host access assigns `ERR` and `CAUSE` where it is an accepted command or a
refused write, and no other move of the core touches them. -/
theorem errIsStickyAndOnlyHostWritesSetIt : Obligations.ErrIsStickyAndOnlyHostWritesSetIt := by
  intro s t hstep hreset
  rcases step_cases hstep with ⟨w, rest, ha, hexec, -⟩ | ⟨rest, ha, -⟩ | ⟨g, rest, -, h⟩ | ⟨-, h⟩
  · rcases exec_host_error (encode_decode_isSome w) hexec with hsame | ⟨hrd, hpop, hassigns⟩
    · exact .inl (Prod.mk.inj hsame)
    · exact .inr ⟨w, rest, ha, txnRw_of_decode_ne_rd hrd, hpop, hassigns⟩
  · exact absurd ha (hreset rest)
  · exact .inl (Prod.mk.inj h.errorFields_eq)
  · exact .inl (Prod.mk.inj h.errorFields_eq)

/-- Settles O6, agent by agent: the turn of each is one instruction, and the datapath's the next micro-step. -/
theorem anAgentsTurnRunsItsMicroOperation : Obligations.AnAgentsTurnRunsItsMicroOperation := fun _ _ =>
  ⟨fun _ _ ha => step_agent ha, fun ha => step_agent ha, fun _ _ ha => step_agent ha, fun ha => step_agent ha,
    fun _ ha hp hm => (step_agent ha).trans (turn_datapath hp hm), step_agent_default⟩

/-- Settles O22: each of the writes is a command word or the write of an operand register. -/
theorem writesWhileBusyAreRefused : Obligations.WritesWhileBusyAreRefused := by
  intro s d hb
  change ∀ i ∈ [Op.nop, .ksched, .enc, .dec, .denc, .mitm].map Op.instr ++
    operandRegs.map fun r => decodeWrite r.index d, exec i s = .next (refuse .busywr s)
  rw [List.forall_mem_append, List.forall_mem_map, List.forall_mem_map]
  exact ⟨fun o _ => exec_instr_of_busy hb o, fun r _ => exec_decodeWrite_of_busy hb r d⟩

end

section
/-! PROOF. Reset at any time (70_reset_and_hazards.md R270, R271). -/

namespace Sys2Proof.Machine

/-- Whatever ran before (R271), reset gives the values of R39: where it differs from `State.resetOf` is only in fields of
the model's own, which R39 does not list. -/
theorem resetValues_resetCore (s : State) : ResetValues (resetCore s) :=
  { resetValues_resetOf s.params with }

end Sys2Proof.Machine

open Sys2Proof.Machine

/-- Settles O8: such a step ends in the state after reset with the rest of the agenda, and reset keeps parameters and
agenda. -/
theorem resetAtAnyTimeGivesTheResetValues : Obligations.ResetAtAnyTimeGivesTheResetValues := fun s rest ha =>
  ⟨resetCore { s with agenda := rest }, step_reset ha, resetValues_resetCore _, resetCore_params _, resetCore_agenda _⟩

end
